-- ==== Sys2Proof/Word.lean ====
section
/-! DEFINITION. The word types of the core, one per width the spec names (00_scope.md section 6, 10_state.md). -/

namespace Sys2Proof

/-- A byte: 8 bits, bit 0 the least significant (00_scope.md section 6). -/
abbrev Byte := BitVec 8

/-- A 16-bit field, for example `dataLength` (R63). -/
abbrev Half := BitVec 16

/-- A 32-bit physical address: sender, destination, registry key (R22, R63). -/
abbrev Addr := BitVec 32

/-- A 24-bit EEP profile identifier, RORG : FUNC : TYPE (R69). -/
abbrev ProfileId := BitVec 24

/-- A signal strength: `DBM_BITS` = 9 bits, two's complement (R141, D10). -/
abbrev Dbm := BitVec 9

/-- A rocker channel index, 2 bits (R23). -/
abbrev Channel := BitVec 2

end Sys2Proof
end

