-- ==== Sys2Proof/Syntax.lean ====
section
/-! DEFINITION. The syntax: packets, handler records, and `Instr`, one constructor per row of
spec/opcode_table.json. The first 37 constructors are the operations of 30_encoding.md R70 with structured
operands (D3: "a model should use an enumeration"); the last 38 are the rows of the wire formats and code
tables (R61, R62, R64 to R69, R73), whose operands are the bits their patterns leave free (log 15). -/

namespace Sys2Proof

/-- The six header bytes of a packet, under the names of 10_state.md R11. -/
structure Header where
  sync   : Byte
  lenHi  : Byte
  lenLo  : Byte
  optLen : Byte
  ptype  : Byte
  crc    : Byte
deriving DecidableEq, Repr, Inhabited

/-- A packet as a value (10_state.md R18): the six header bytes and the payload bytes (data, optional data,
one trailing CRC byte). -/
structure Packet where
  hdr : Header
  pay : List Byte
deriving DecidableEq, Repr, Inhabited

/-- The one decode rule a handler is bound to (R23, D29), in the order of 95_test_vectors.md section 3. -/
inductive RuleTag where
  | rocker | windowOpen | windowTilted | cardKeyErp2 | cardKeyErp1 | smokeAlarm | smokeBattery
deriving DecidableEq, Repr, Inhabited

/-- A handler record (10_state.md R23). `sink` is the opaque identifier of its one behaviour sink; the widths
the source leaves open are those of log 23. -/
structure Handler where
  address        : Addr
  subdeviceIndex : Nat
  profileId      : ProfileId
  manufacturerId : BitVec 16
  rule           : RuleTag
  channel        : Channel
  sink           : Nat
deriving DecidableEq, Repr, Inhabited

/-- The instructions: one constructor per row of spec/opcode_table.json. -/
inductive Instr where
  -- operations (R70)
  | coreReset
  | crc8Update (byte crc : Byte)
  | crc8Compute (bytes : List Byte) (seed : Byte)
  | frNew
  | frByte (b : Byte)
  | frAccept (buffer : List Byte)
  | frTake
  | tvPtype (P : Packet)
  | tvDlen (P : Packet)
  | tvOlen (P : Packet)
  | tvRorg (P : Packet)
  | tvStoff (P : Packet)
  | tvStatus (P : Packet)
  | tvUdlen (P : Packet)
  | tvUdata (P : Packet)
  | tvSender (P : Packet)
  | tvSubtel (P : Packet)
  | tvDest (P : Packet)
  | tvDbm (P : Packet)
  | tvSeclvl (P : Packet)
  | tvOk (P : Packet)
  | dpHandle (P : Packet)
  | dpSetlearn (enabled : Bool)
  | dpRegister (h : Handler)
  | dpUnregister (a : Addr)
  | dpLookup (a : Addr)
  | dpTeachq (P : Packet)
  | pdMatch (p : ProfileId)
  | pdRocker (P : Packet) (ch : Channel)
  | pdWinopen (P : Packet)
  | pdWintilt (P : Packet)
  | pdCardkey2 (P : Packet)
  | pdCardkey1 (P : Packet)
  | pdSmokealm (P : Packet)
  | pdSmokebat (P : Packet)
  | pdInvoke (h : Handler) (P : Packet)
  | chRx (bytes : List Byte) (err : Option Nat)
  -- stream units (R61, R62)
  | esp3Header (h l o t c : Byte)
  | esp3Payload (data opt : List Byte) (c : Byte)
  -- packet type codes (R64, R65)
  | ptypeRadio
  | ptypeResponse
  | ptypeRadioSubtelegram
  | ptypeEvent
  | ptypeCommonCmd
  | ptypeSmartAckCmd
  | ptypeRemoteMgmtCmd
  | ptypeManufacturerSpecific (low : BitVec 7)
  | ptypeReserved (t : Byte)
  -- RORG codes (R66)
  | rorgRps
  | rorg1bs
  | rorg4bs
  | rorgVld
  | rorgMsc
  | rorgAdt
  | rorgSmLrnReq
  | rorgSmLrnAns
  | rorgSmRec
  | rorgSysEx
  | rorgSec
  | rorgSecEncaps
  -- status byte fields (R67)
  | statusT21 (b : Byte)
  | statusNu (b : Byte)
  -- RPS data byte fields by sub-format (R68)
  | rpsRockerN (a : BitVec 3) (p : BitVec 1) (b : BitVec 3) (s : BitVec 1)
  | rpsRockerU (b : BitVec 3) (p : BitVec 1) (low : BitVec 4)
  | rpsWindow (p : BitVec 4) (low : BitVec 4)
  | rpsCardkeyErp2 (hi : BitVec 5) (i : BitVec 1) (low : BitVec 2)
  | rpsCardkeyErp1
  | rpsSmoke (hi : BitVec 2) (s : BitVec 2) (low : BitVec 4)
  -- profile match table (R69)
  | eepRockerFunc02 (ty : Byte)
  | eepRockerFunc03 (ty : Byte)
  | eepWindowHandle
  | eepCardkeyErp2
  | eepCardkeyErp1 (ty : Byte)
  | eepSmoke
  -- radio optional data (R73)
  | optdataRadio (s : Byte) (d : Addr) (g v : Byte)
deriving DecidableEq, Repr

end Sys2Proof
end

