-- ==== Sys2Proof/Config.lean ====
section
/-! DEFINITION. What is fixed for the core: the constants of 00_scope.md R9, the OPEN parameters as one record, its
functions uninterpreted (log 8, log 9), and the uninterpreted values the spec leaves open (log 10). -/

namespace Sys2Proof.Config

/-- `SYNC` (R9). -/
def sync : Byte := 0x55

/-- `MAX_PAYLOAD` (R9): a header declaring more is refused. -/
def maxPayload : Nat := 300

/-- `HEADER_BYTES` (R9). -/
def headerBytes : Nat := 6

/-- `CRC_POLY` (R9), the x^8 term implicit. -/
def crcPoly : Byte := 0x07

/-- `CRC_SEED` (R9), the default seed. -/
def crcSeed : Byte := 0x00

/-- `BROADCAST` (R9): the destination that means every receiver (R73, R140). -/
def broadcast : Addr := 0xFFFFFFFF

/-- `OPT_RADIO_LEN` (R9). -/
def optRadioLen : Nat := 7

/-- `LEARN_DBM_MIN` (R9): the default and reset value of `D.dbm_min`, -50. -/
def learnDbmMin : Dbm := BitVec.ofInt 9 (-50)

/-- What `MAKE_HANDLERS` is free to choose for one handler (R194, D15): everything in the record that R194's
constraints do not fix. `second` picks the second decode rule of a two-channel family. -/
structure HandlerPlan where
  subdeviceIndex : Nat
  manufacturerId : BitVec 16
  second         : Bool
  channel        : Channel
  sink           : Nat
deriving DecidableEq, Repr, Inhabited

/-- A bound on the registry, as R9 describes `REG_CAPACITY`: the number of addresses, and of handlers per address. -/
structure RegCapacity where
  addresses  : Nat
  perAddress : Nat
deriving DecidableEq, Repr, Inhabited

/-- The OPEN parameters of the core (R9, R29, 93 U14): arguments of the dispatcher and the channel. `handlerPlan` gives
a first plan and further ones, so that what is built from it is never empty (R194). DESIGN CHOICE, log 8. -/
structure Params where
  /-- `EXPLICIT_TEACH : Packet -> Bool` (D14). -/
  explicitTeach : Packet → Bool
  /-- `LEARN_PROFILE : Packet -> 24-bit id` (D15). -/
  learnProfile  : Packet → ProfileId
  /-- The free part of `MAKE_HANDLERS : (id, address, Packet) -> list` (D15). -/
  handlerPlan   : ProfileId → Addr → Packet → HandlerPlan × List HandlerPlan
  /-- `REG_CAPACITY` (D20): none where the registry is unbounded. -/
  regCapacity   : Option RegCapacity
deriving Inhabited

/-- The OPEN functions of this core: uninterpreted, so a claim holds whatever they are. -/
opaque openParams : Params

/-- The parameters of this core: the OPEN functions, and `REG_CAPACITY` at D20's default, unbounded (log 9). -/
def params : Params := { openParams with regCapacity := none }

/-! The accessor values of which the spec says `any value` (93 U4), each a function of the packet alone (R144; log 10). -/

/-- RORG of a radio packet without a data part. -/
opaque freeRorg : Packet → Byte

/-- The status byte of a radio packet that fails `view_ok`. -/
opaque freeStatus : Packet → Byte

/-- The sender of a radio packet that fails `view_ok`. -/
opaque freeSender : Packet → Addr

end Sys2Proof.Config
end

