-- ==== Sys2Proof/Machine/Operands.lean ====
section
/-! DEFINITION. Operand fields: how the bytes of a header, a packet, a status byte and an RPS data byte are
assembled into the values the rules compute with (10_state.md R12, 30_encoding.md R63, R67 to R69, R73). -/

namespace Sys2Proof

/-- `be16(b0, b1)`: the first byte is the most significant (R41). -/
def be16 (b0 b1 : Byte) : Half := b0 ++ b1

/-- `be32(b0, b1, b2, b3)`: the first byte is the most significant (R41). -/
def be32 (b0 b1 b2 b3 : Byte) : Addr := b0 ++ b1 ++ b2 ++ b3

/-- `{RORG, FUNC, TYPE}` as a profile identifier (R69). -/
def profileOf (rorg func ty : Byte) : ProfileId := rorg ++ func ++ ty

/-! Header fields (R12). -/

/-- `dataLength`, 0..65535. -/
def Header.dataLength (H : Header) : Nat := (be16 H.lenHi H.lenLo).toNat

/-- `optDataLength`, 0..255. -/
def Header.optDataLength (H : Header) : Nat := H.optLen.toNat

/-- `paySize = dataLength + optDataLength + 1`, no wrap (R12, R270). -/
def Header.paySize (H : Header) : Nat := H.dataLength + H.optDataLength + 1

/-- The six header bytes in stream order (R61). -/
def Header.bytes (H : Header) : List Byte := [H.sync, H.lenHi, H.lenLo, H.optLen, H.ptype, H.crc]

/-- Header bytes 1..4, which the header CRC covers (R103). -/
def Header.covered (H : Header) : List Byte := [H.lenHi, H.lenLo, H.optLen, H.ptype]

/-- Header bytes 1..5, which a resync replays (R105). -/
def Header.replayed (H : Header) : List Byte := [H.lenHi, H.lenLo, H.optLen, H.ptype, H.crc]

/-! Packet fields (42_telegram_view.md). -/

/-- `dl` (42_telegram_view.md, abbreviations). -/
def Packet.dl (P : Packet) : Nat := P.hdr.dataLength

/-- `ol`. -/
def Packet.ol (P : Packet) : Nat := P.hdr.optDataLength

/-- RORG code of VLD telegrams (R66). -/
def rorgCodeVld : Byte := 0xD2

/-- RORG code of RPS telegrams (R66). -/
def rorgCodeRps : Byte := 0xF6

/-- The one byte by which the trailer of a VLD telegram is longer, for a RORG byte (R45, R66). -/
def vldShift (rorg : Byte) : Nat := if rorg = rorgCodeVld then 1 else 0

/-- `v`: 1 where `P.pay[0]` is the VLD code, else 0. -/
def Packet.v (P : Packet) : Nat := (P.pay.head?.map vldShift).getD 0

/-- `statusOffset = dl - 1 - v` in integers (R133). -/
def Packet.statusOffset (P : Packet) : Int := (P.dl : Int) - 1 - (P.v : Int)

/-- `userDataLength = max(0, dl - 6 - v)`: natural subtraction is the clamp (R135). -/
def Packet.userDataLength (P : Packet) : Nat := P.dl - 6 - P.v

/-- The whole payload CRC-checked part followed by its CRC byte, split as R44 lays it out. -/
def Packet.dataPart (P : Packet) : List Byte := P.pay.take P.dl

/-- The optional-data bytes (R44). -/
def Packet.optPart (P : Packet) : List Byte := (P.pay.drop P.dl).take P.ol

/-- `0 - zext_9(g)`, the signal strength of a magnitude byte (R141). -/
def dbmOf (g : Byte) : Dbm := 0 - g.setWidth 9

/-- A broadcast destination (R73, R140). No operation of the core filters on it (R140). -/
def isBroadcast (destination : Addr) : Bool := destination == Config.broadcast

/-! Status byte fields (R67). -/

/-- T21: status bit 5. -/
def t21Set (status : Byte) : Bool := status.getLsbD 5

/-- NU: status bit 4. -/
def nuSet (status : Byte) : Bool := status.getLsbD 4

/-- `numRockers := T21 ? 2 : 4` (R164). -/
def numRockers (status : Byte) : Nat := if t21Set status then 2 else 4

/-! RPS data byte fields by sub-format (R68). -/

/-- The action code at bit offset `4*i + 1` of the data byte (R63). -/
def actionCode (data : Byte) (i : Nat) : BitVec 3 := data.extractLsb' (4 * i + 1) 3

/-- The rocker index of an action code: `(a >> 1) & 3` (R63). -/
def actionRocker (a : BitVec 3) : Channel := a.extractLsb' 1 2

/-- The side bit of an action code: set means up/off (R68). -/
def actionUpOff (a : BitVec 3) : Bool := a.getLsbD 0

/-- Energy bow: data bit 4, set means pressed (R68). -/
def bowPressed (data : Byte) : Bool := data.getLsbD 4

/-- Data bit 0: a second action is present (R68). -/
def secondPresent (data : Byte) : Bool := data.getLsbD 0

/-- `b`, the count of remaining pressed buttons: bits 7..5 (R68). -/
def buttonCount (data : Byte) : BitVec 3 := data.extractLsb' 5 3

/-- Window handle: tilted position, `(data & 0xF0) == 0xD0` (R165). -/
def windowTiltedBit (data : Byte) : Bool := data &&& 0xF0 == 0xD0

/-- Window handle: closed position, `(data & 0xF0) == 0xF0` (R165). -/
def windowClosedBit (data : Byte) : Bool := data &&& 0xF0 == 0xF0

/-- Card key ERP2: inserted, mask 0x04 (R166). -/
def erp2Inserted (data : Byte) : Bool := data &&& 0x04 != 0

/-- Card key ERP1: the whole byte is 0x70 (R167). -/
def erp1Code (data : Byte) : Bool := data == 0x70

/-- Smoke detector: alarm active, `(data & 0x30) == 0x10` (R168). -/
def smokeAlarmBit (data : Byte) : Bool := data &&& 0x30 == 0x10

/-- Smoke detector: battery low, `(data & 0x30) == 0x30` (R168). -/
def smokeBatteryBit (data : Byte) : Bool := data &&& 0x30 == 0x30

/-- The affected-count table of R164. It has no entry for a 2-rocker device with `b` other than 0 and 3: there
the function answers nothing (93 U11). No operation of the core reads it (log 28). -/
def affected (rockers : Nat) (b : BitVec 3) : Option Nat :=
  if rockers = 2 then
    if b = 0 then some 2 else if b = 3 then some 2 else none
  else if rockers = 4 then
    if b = 0 then some 4 else some ((b.toNat + 1) >>> 1)
  else none

end Sys2Proof
end

