-- ==== Sys2Proof/Machine/Flags.lean ====
section
/-! DEFINITION. The flags of the core: the derived predicates of 10_state.md R17 over headers, payload bytes and
packets, and the code-table tests of 30_encoding.md R64, R65. None is stored. (`complete`, over the framer, stands
in Machine/Ops.lean, where the framer's other accessors are.) -/

namespace Sys2Proof

/-- `hdr_crc_ok` (R17): the CRC over header bytes 1..4 is header byte 5. -/
def Header.crcOk (H : Header) : Bool := crc8Compute H.covered Config.crcSeed == H.crc

/-- `oversize` (R17): `paySize > 300`. -/
def Header.oversize (H : Header) : Bool := decide (Config.maxPayload < H.paySize)

/-- A header is valid where its CRC matches and the declared size is accepted (R61). -/
def Header.valid (H : Header) : Bool := H.crcOk && !H.oversize

/-- `pay_crc_ok` (R17): the CRC over all payload bytes but the last is the last byte. -/
def payCrcOk (pay : List Byte) : Bool :=
  pay.getLast? == some (crc8Compute pay.dropLast Config.crcSeed)

/-- `is_radio(P)` for a packet type code (R17, R64). -/
def isRadioType (t : Byte) : Bool := t == 0x01

/-- The packet types R64 lists: 0x01 to 0x07 and 0x80 to 0xFF. -/
def isListedType (t : Byte) : Bool := (1 ≤ t.toNat && t.toNat ≤ 7) || t.getLsbD 7

/-- The reserved packet types of R65: 0x00 and 0x08 to 0x7F. -/
def isReservedType (t : Byte) : Bool := t.toNat == 0 || (8 ≤ t.toNat && t.toNat ≤ 0x7F)

/-- `is_radio(P)` (R17). -/
def Packet.isRadio (P : Packet) : Bool := isRadioType P.hdr.ptype

/-- `is_vld(P)` (R17). -/
def Packet.isVld (P : Packet) : Bool := P.pay.head? == some rorgCodeVld

/-- `opt_valid(P)` (R17, R138): `ol >= 7`. -/
def Packet.optValid (P : Packet) : Bool := decide (Config.optRadioLen ≤ P.ol)

/-- `view_ok(P)` (R143). -/
def Packet.viewOk (P : Packet) : Bool := P.isRadio && decide (1 ≤ P.dl) && decide (6 + P.v ≤ P.dl)

/-- The shape of a packet (R10): the payload is exactly as long as the header declares. -/
def Packet.sized (P : Packet) : Bool := P.pay.length == P.hdr.paySize

/-- A completed packet (R18): sync byte, matching header CRC, accepted size, whole payload, matching payload CRC. -/
def Packet.completed (P : Packet) : Bool :=
  P.hdr.sync == Config.sync && P.hdr.valid && P.sized && payCrcOk P.pay

end Sys2Proof
end

