-- ==== Sys2Proof/WellFormed.lean ====
section
/-! DEFINITION. Which instructions are well formed: a packet operand is a completed packet (R18, R269: the
accessors apply "only on a *completed* packet"), and the operands of a wire-format row lie in the row (R62, R65,
R67, R69). Every other operand is free. -/

namespace Sys2Proof

/-- A header and payload with the given fields and bytes and the CRC bytes they call for: the completed packet
that carries them (R61, R62), where its size is accepted. -/
def Packet.build (lenHi lenLo optLen ptype : Byte) (body : List Byte) : Packet :=
  { hdr := { sync := Config.sync, lenHi := lenHi, lenLo := lenLo, optLen := optLen, ptype := ptype,
             crc := crc8Compute [lenHi, lenLo, optLen, ptype] Config.crcSeed }
    pay := body ++ [crc8Compute body Config.crcSeed] }

/-- The checks on an instruction's operands. -/
def Instr.wf : Instr → Bool
  | .coreReset => true
  | .crc8Update _ _ => true
  | .crc8Compute _ _ => true
  | .frNew => true
  | .frByte _ => true
  | .frAccept _ => true
  | .frTake => true
  | .tvPtype P => P.completed
  | .tvDlen P => P.completed
  | .tvOlen P => P.completed
  | .tvRorg P => P.completed
  | .tvStoff P => P.completed
  | .tvStatus P => P.completed
  | .tvUdlen P => P.completed
  | .tvUdata P => P.completed
  | .tvSender P => P.completed
  | .tvSubtel P => P.completed
  | .tvDest P => P.completed
  | .tvDbm P => P.completed
  | .tvSeclvl P => P.completed
  | .tvOk P => P.completed
  | .dpHandle P => P.completed
  | .dpSetlearn _ => true
  | .dpRegister _ => true
  | .dpUnregister _ => true
  | .dpLookup _ => true
  | .dpTeachq P => P.completed
  | .pdMatch _ => true
  | .pdRocker P _ => P.completed
  | .pdWinopen P => P.completed
  | .pdWintilt P => P.completed
  | .pdCardkey2 P => P.completed
  | .pdCardkey1 P => P.completed
  | .pdSmokealm P => P.completed
  | .pdSmokebat P => P.completed
  | .pdInvoke _ P => P.completed
  | .chRx _ _ => true
  | .esp3Header _ _ _ _ _ => true
  | .esp3Payload data opt _ =>
      decide (opt.length ≤ 255) && decide (data.length + opt.length + 1 ≤ Config.maxPayload)
  | .ptypeRadio => true
  | .ptypeResponse => true
  | .ptypeRadioSubtelegram => true
  | .ptypeEvent => true
  | .ptypeCommonCmd => true
  | .ptypeSmartAckCmd => true
  | .ptypeRemoteMgmtCmd => true
  | .ptypeManufacturerSpecific _ => true
  | .ptypeReserved t => isReservedType t
  | .rorgRps => true
  | .rorg1bs => true
  | .rorg4bs => true
  | .rorgVld => true
  | .rorgMsc => true
  | .rorgAdt => true
  | .rorgSmLrnReq => true
  | .rorgSmLrnAns => true
  | .rorgSmRec => true
  | .rorgSysEx => true
  | .rorgSec => true
  | .rorgSecEncaps => true
  | .statusT21 b => t21Set b
  | .statusNu b => nuSet b
  | .rpsRockerN _ _ _ _ => true
  | .rpsRockerU _ _ _ => true
  | .rpsWindow _ _ => true
  | .rpsCardkeyErp2 _ _ _ => true
  | .rpsCardkeyErp1 => true
  | .rpsSmoke _ _ _ => true
  | .eepRockerFunc02 _ => true
  | .eepRockerFunc03 _ => true
  | .eepWindowHandle => true
  | .eepCardkeyErp2 => true
  | .eepCardkeyErp1 ty => ty != 0x02
  | .eepSmoke => true
  | .optdataRadio _ _ _ _ => true

/-- A handler record fits the one-byte fields of an encoded record: sub-device index and sink id. -/
def Handler.fits (h : Handler) : Bool := decide (h.subdeviceIndex < 256) && decide (h.sink < 256)

/-- An error value fits the flag byte of an encoded `CH.RX`: 00 is none, any other byte an error. -/
def errFits (err : Option Nat) : Bool :=
  match err with
  | none => true
  | some e => decide (1 ≤ e) && decide (e < 256)

/-- An instruction whose operands fit the fields of its encoded line (95_test_vectors.md section 3; log 2):
16-bit sequence lengths, 8-bit sub-device index and sink, an error value the flag byte holds. An instruction that
does not fit is still issued with structured operands. -/
def Instr.fits : Instr → Bool
  | .crc8Compute bytes _ => decide (bytes.length < 65536)
  | .frAccept buffer => decide (buffer.length < 65536)
  | .dpRegister h => h.fits
  | .pdInvoke h _ => h.fits
  | .chRx bytes err => decide (bytes.length < 65536) && errFits err
  | _ => true

end Sys2Proof
end

