-- ==== Sys2Proof/Decode.lean ====
section
/-! DEFINITION. The decoder, total on any bytes, and after it the encoder written from the same tables.

A line is one encoded instruction: the bytes, and the format (the opcode table's `format` column) they are read
in. An operation's line is its `opsel` byte (30_encoding.md R70) and its operand bytes; the operand layouts are those
of 95_test_vectors.md section 3 for the host's operations and log 2's for the internal ones. A packet operand is
written as lenHi, lenLo, optLen, type and the data and optional-data bytes: the sync byte and the two CRC bytes
of a completed packet follow from them (R61, R62). The lines of the wire formats are their own bits (log 15). -/

namespace Sys2Proof

/-- The formats of the opcode table; the sub-formats of the status and RPS data bytes apart (R67, R68). -/
inductive Format where
  | operation | header | payload | packetType | rorg | statusT21 | statusNu
  | rockerN | rockerU | window | cardkeyErp2 | cardkeyErp1 | smoke | profileId | optData
deriving DecidableEq, Repr, Inhabited

/-- One encoded instruction. -/
structure Line where
  fmt   : Format
  bytes : List Byte
deriving DecidableEq, Repr, Inhabited

/-- Why a line is no instruction. -/
inductive DecodeError where
  /-- No operation has this `opsel` (R70: "selects no operation"). -/
  | noSuchOperation (opsel : Byte)
  /-- The line ends before its last operand byte. -/
  | truncated
  /-- Bytes are left over after the last operand. -/
  | trailingBytes
  /-- The operand byte of `DP.SETLEARN` is neither 00 nor 01. -/
  | badBit (b : Byte)
  /-- No decode rule has this tag number (95_test_vectors.md section 3). -/
  | badRuleTag (b : Byte)
  /-- A channel byte above 3 (R23: 2 bits). -/
  | badChannel (b : Byte)
  /-- The declared size is over 300 (R104): no such packet is ever completed. -/
  | packetTooLong (size : Nat)
  /-- The bits are no member of any row of the line's format. -/
  | noSuchCode (fmt : Format)
deriving DecidableEq, Repr

/-! Readers of operand fields: each answers the field and the bytes after it. -/

def takeByte : List Byte → Except DecodeError (Byte × List Byte)
  | [] => .error .truncated
  | b :: bs => .ok (b, bs)

def takeBytes (n : Nat) (bs : List Byte) : Except DecodeError (List Byte × List Byte) :=
  if n ≤ bs.length then .ok (bs.take n, bs.drop n) else .error .truncated

/-- A sequence with its 16-bit big-endian length before it. -/
def takeSeq (bs : List Byte) : Except DecodeError (List Byte × List Byte) := do
  let (hi, bs) ← takeByte bs
  let (lo, bs) ← takeByte bs
  takeBytes (be16 hi lo).toNat bs

def takeAddr (bs : List Byte) : Except DecodeError (Addr × List Byte) := do
  let (b0, bs) ← takeByte bs
  let (b1, bs) ← takeByte bs
  let (b2, bs) ← takeByte bs
  let (b3, bs) ← takeByte bs
  .ok (be32 b0 b1 b2 b3, bs)

def takeProfile (bs : List Byte) : Except DecodeError (ProfileId × List Byte) := do
  let (r, bs) ← takeByte bs
  let (f, bs) ← takeByte bs
  let (t, bs) ← takeByte bs
  .ok (profileOf r f t, bs)

def takeChannel (bs : List Byte) : Except DecodeError (Channel × List Byte) := do
  let (b, bs) ← takeByte bs
  if b.toNat < 4 then .ok (b.setWidth 2, bs) else .error (.badChannel b)

def takeBit (bs : List Byte) : Except DecodeError (Bool × List Byte) := do
  let (b, bs) ← takeByte bs
  if b = 0x00 then .ok (false, bs) else if b = 0x01 then .ok (true, bs) else .error (.badBit b)

/-- The tag numbers of 95_test_vectors.md section 3. -/
def ruleTagOf (b : Byte) : Except DecodeError RuleTag :=
  match b.toNat with
  | 0 => .ok .rocker
  | 1 => .ok .windowOpen
  | 2 => .ok .windowTilted
  | 3 => .ok .cardKeyErp2
  | 4 => .ok .cardKeyErp1
  | 5 => .ok .smokeAlarm
  | 6 => .ok .smokeBattery
  | _ => .error (.badRuleTag b)

/-- address (4), subdeviceIndex (1), profileId (3), manufacturerId (2), rule tag (1), channel (1), sink (1). -/
def takeRecord (bs : List Byte) : Except DecodeError (Handler × List Byte) := do
  let (a, bs) ← takeAddr bs
  let (sub, bs) ← takeByte bs
  let (p, bs) ← takeProfile bs
  let (m1, bs) ← takeByte bs
  let (m0, bs) ← takeByte bs
  let (t, bs) ← takeByte bs
  let tag ← ruleTagOf t
  let (ch, bs) ← takeChannel bs
  let (sink, bs) ← takeByte bs
  .ok ({ address := a, subdeviceIndex := sub.toNat, profileId := p, manufacturerId := be16 m1 m0,
         rule := tag, channel := ch, sink := sink.toNat }, bs)

/-- A completed packet, from the bytes that are not determined by the others. -/
def takePacket (bs : List Byte) : Except DecodeError (Packet × List Byte) := do
  let (hi, bs) ← takeByte bs
  let (lo, bs) ← takeByte bs
  let (ol, bs) ← takeByte bs
  let (ty, bs) ← takeByte bs
  let size := (be16 hi lo).toNat + ol.toNat + 1
  if Config.maxPayload < size then .error (.packetTooLong size)
  else do
    let (body, bs) ← takeBytes (size - 1) bs
    .ok (Packet.build hi lo ol ty body, bs)

/-- The flag byte of `CH.RX`: 00 = no error. -/
def errOf (flag : Byte) : Option Nat := if flag = 0x00 then none else some flag.toNat

/-- `CH.RX`'s operands: a 16-bit length, the error flag, the chunk. -/
def takeChunk (bs : List Byte) : Except DecodeError ((List Byte × Option Nat) × List Byte) := do
  let (hi, bs) ← takeByte bs
  let (lo, bs) ← takeByte bs
  let (flag, bs) ← takeByte bs
  let (chunk, bs) ← takeBytes (be16 hi lo).toNat bs
  .ok ((chunk, errOf flag), bs)

def takeOnPacket (f : Packet → Instr) (bs : List Byte) : Except DecodeError (Instr × List Byte) := do
  let (P, bs) ← takePacket bs
  .ok (f P, bs)

/-! The decoder proper. -/

/-- An operation, by its `opsel` (R70) and the bytes after it. -/
def decodeOperation (opsel : Byte) (bs : List Byte) : Except DecodeError (Instr × List Byte) :=
  match opsel.toNat with
  | 0x00 => .ok (.coreReset, bs)
  | 0x10 => do
      let (b, bs) ← takeByte bs
      let (c, bs) ← takeByte bs
      .ok (.crc8Update b c, bs)
  | 0x11 => do
      let (seed, bs) ← takeByte bs
      let (bytes, bs) ← takeSeq bs
      .ok (.crc8Compute bytes seed, bs)
  | 0x20 => .ok (.frNew, bs)
  | 0x21 => do
      let (b, bs) ← takeByte bs
      .ok (.frByte b, bs)
  | 0x22 => do
      let (buffer, bs) ← takeSeq bs
      .ok (.frAccept buffer, bs)
  | 0x23 => .ok (.frTake, bs)
  | 0x30 => takeOnPacket .tvPtype bs
  | 0x31 => takeOnPacket .tvDlen bs
  | 0x32 => takeOnPacket .tvOlen bs
  | 0x33 => takeOnPacket .tvRorg bs
  | 0x34 => takeOnPacket .tvStoff bs
  | 0x35 => takeOnPacket .tvStatus bs
  | 0x36 => takeOnPacket .tvUdlen bs
  | 0x37 => takeOnPacket .tvUdata bs
  | 0x38 => takeOnPacket .tvSender bs
  | 0x39 => takeOnPacket .tvSubtel bs
  | 0x3A => takeOnPacket .tvDest bs
  | 0x3B => takeOnPacket .tvDbm bs
  | 0x3C => takeOnPacket .tvSeclvl bs
  | 0x3D => takeOnPacket .tvOk bs
  | 0x40 => takeOnPacket .dpHandle bs
  | 0x41 => do
      let (e, bs) ← takeBit bs
      .ok (.dpSetlearn e, bs)
  | 0x42 => do
      let (h, bs) ← takeRecord bs
      .ok (.dpRegister h, bs)
  | 0x43 => do
      let (a, bs) ← takeAddr bs
      .ok (.dpUnregister a, bs)
  | 0x44 => do
      let (a, bs) ← takeAddr bs
      .ok (.dpLookup a, bs)
  | 0x45 => takeOnPacket .dpTeachq bs
  | 0x50 => do
      let (p, bs) ← takeProfile bs
      .ok (.pdMatch p, bs)
  | 0x51 => do
      let (P, bs) ← takePacket bs
      let (ch, bs) ← takeChannel bs
      .ok (.pdRocker P ch, bs)
  | 0x52 => takeOnPacket .pdWinopen bs
  | 0x53 => takeOnPacket .pdWintilt bs
  | 0x54 => takeOnPacket .pdCardkey2 bs
  | 0x55 => takeOnPacket .pdCardkey1 bs
  | 0x56 => takeOnPacket .pdSmokealm bs
  | 0x57 => takeOnPacket .pdSmokebat bs
  | 0x58 => do
      let (h, bs) ← takeRecord bs
      let (P, bs) ← takePacket bs
      .ok (.pdInvoke h P, bs)
  | 0x60 => do
      let ((chunk, err), bs) ← takeChunk bs
      .ok (.chRx chunk err, bs)
  | _ => .error (.noSuchOperation opsel)

/-- A packet type code (R64, R65): every byte has a row. -/
def decodePacketType (t : Byte) : Instr :=
  match t.toNat with
  | 0x01 => .ptypeRadio
  | 0x02 => .ptypeResponse
  | 0x03 => .ptypeRadioSubtelegram
  | 0x04 => .ptypeEvent
  | 0x05 => .ptypeCommonCmd
  | 0x06 => .ptypeSmartAckCmd
  | 0x07 => .ptypeRemoteMgmtCmd
  | _ => if t.getLsbD 7 then .ptypeManufacturerSpecific (t.setWidth 7) else .ptypeReserved t

/-- A RORG code (R66). -/
def decodeRorg (r : Byte) : Except DecodeError Instr :=
  match r.toNat with
  | 0xF6 => .ok .rorgRps
  | 0xD5 => .ok .rorg1bs
  | 0xA5 => .ok .rorg4bs
  | 0xD2 => .ok .rorgVld
  | 0xD1 => .ok .rorgMsc
  | 0xA6 => .ok .rorgAdt
  | 0xC6 => .ok .rorgSmLrnReq
  | 0xC7 => .ok .rorgSmLrnAns
  | 0xA7 => .ok .rorgSmRec
  | 0xC5 => .ok .rorgSysEx
  | 0x30 => .ok .rorgSec
  | 0x31 => .ok .rorgSecEncaps
  | _ => .error (.noSuchCode .rorg)

/-- A profile identifier, by the match table of R69. -/
def decodeProfile (rorg func ty : Byte) : Except DecodeError Instr :=
  if rorg ≠ 0xF6 then .error (.noSuchCode .profileId)
  else match func.toNat with
    | 0x02 => .ok (.eepRockerFunc02 ty)
    | 0x03 => .ok (.eepRockerFunc03 ty)
    | 0x10 => if ty = 0x00 then .ok .eepWindowHandle else .error (.noSuchCode .profileId)
    | 0x04 => if ty = 0x02 then .ok .eepCardkeyErp2 else .ok (.eepCardkeyErp1 ty)
    | 0x05 => if ty = 0xC0 then .ok .eepSmoke else .error (.noSuchCode .profileId)
    | _ => .error (.noSuchCode .profileId)

/-- A payload: its two lengths (which the stream takes from the header), its data and optional-data bytes and its
CRC byte (R62). -/
def decodePayload (bs : List Byte) : Except DecodeError (Instr × List Byte) := do
  let (hi, bs) ← takeByte bs
  let (lo, bs) ← takeByte bs
  let (ol, bs) ← takeByte bs
  let size := (be16 hi lo).toNat + ol.toNat + 1
  if Config.maxPayload < size then .error (.packetTooLong size)
  else do
    let (data, bs) ← takeBytes (be16 hi lo).toNat bs
    let (opt, bs) ← takeBytes ol.toNat bs
    let (c, bs) ← takeByte bs
    .ok (.esp3Payload data opt c, bs)

/-- A header: the constant sync byte and five free bytes (R61). -/
def decodeHeader (bs : List Byte) : Except DecodeError (Instr × List Byte) := do
  let (sy, bs) ← takeByte bs
  let (h, bs) ← takeByte bs
  let (l, bs) ← takeByte bs
  let (o, bs) ← takeByte bs
  let (t, bs) ← takeByte bs
  let (c, bs) ← takeByte bs
  if sy = Config.sync then .ok (.esp3Header h l o t c, bs) else .error (.noSuchCode .header)

/-- The one-byte formats of a status or RPS data byte (R67, R68). -/
def decodeField (fmt : Format) (b : Byte) : Except DecodeError Instr :=
  match fmt with
  | .packetType => .ok (decodePacketType b)
  | .rorg => decodeRorg b
  | .statusT21 => if t21Set b then .ok (.statusT21 b) else .error (.noSuchCode .statusT21)
  | .statusNu => if nuSet b then .ok (.statusNu b) else .error (.noSuchCode .statusNu)
  | .rockerN => .ok (.rpsRockerN (b.extractLsb' 5 3) (b.extractLsb' 4 1) (b.extractLsb' 1 3) (b.extractLsb' 0 1))
  | .rockerU => .ok (.rpsRockerU (b.extractLsb' 5 3) (b.extractLsb' 4 1) (b.extractLsb' 0 4))
  | .window => .ok (.rpsWindow (b.extractLsb' 4 4) (b.extractLsb' 0 4))
  | .cardkeyErp2 => .ok (.rpsCardkeyErp2 (b.extractLsb' 3 5) (b.extractLsb' 2 1) (b.extractLsb' 0 2))
  | .cardkeyErp1 => if erp1Code b then .ok .rpsCardkeyErp1 else .error (.noSuchCode .cardkeyErp1)
  | .smoke => .ok (.rpsSmoke (b.extractLsb' 6 2) (b.extractLsb' 4 2) (b.extractLsb' 0 4))
  | .operation => .error (.noSuchCode .operation)
  | .header => .error (.noSuchCode .header)
  | .payload => .error (.noSuchCode .payload)
  | .profileId => .error (.noSuchCode .profileId)
  | .optData => .error (.noSuchCode .optData)

/-- The radio optional data, 7 bytes (R73). -/
def decodeOptData (bs : List Byte) : Except DecodeError (Instr × List Byte) := do
  let (s, bs) ← takeByte bs
  let (d, bs) ← takeAddr bs
  let (g, bs) ← takeByte bs
  let (v, bs) ← takeByte bs
  .ok (.optdataRadio s d g v, bs)

/-- The first instruction of a byte sequence read in a format, and the bytes after it. -/
def decodePrefix (fmt : Format) (bs : List Byte) : Except DecodeError (Instr × List Byte) :=
  match fmt with
  | .operation => do
      let (op, bs) ← takeByte bs
      decodeOperation op bs
  | .header => decodeHeader bs
  | .payload => decodePayload bs
  | .profileId => do
      let (r, bs) ← takeByte bs
      let (f, bs) ← takeByte bs
      let (t, bs) ← takeByte bs
      let i ← decodeProfile r f t
      .ok (i, bs)
  | .optData => decodeOptData bs
  | fmt => do
      let (b, bs) ← takeByte bs
      let i ← decodeField fmt b
      .ok (i, bs)

/-- A line is decoded whole: nothing may be left over. -/
def decodeLine (l : Line) : Except DecodeError Instr := do
  let (i, rest) ← decodePrefix l.fmt l.bytes
  if rest = [] then .ok i else .error .trailingBytes

/-! The encoder. -/

def encHalf (n : Nat) : List Byte := [BitVec.ofNat 8 (n / 256), BitVec.ofNat 8 n]

def encSeq (bytes : List Byte) : List Byte := encHalf bytes.length ++ bytes

def encAddr (a : Addr) : List Byte :=
  [a.extractLsb' 24 8, a.extractLsb' 16 8, a.extractLsb' 8 8, a.extractLsb' 0 8]

def encProfile (p : ProfileId) : List Byte := [p.extractLsb' 16 8, p.extractLsb' 8 8, p.extractLsb' 0 8]

def encRuleTag : RuleTag → Byte
  | .rocker => 0
  | .windowOpen => 1
  | .windowTilted => 2
  | .cardKeyErp2 => 3
  | .cardKeyErp1 => 4
  | .smokeAlarm => 5
  | .smokeBattery => 6

def encChannel (ch : Channel) : Byte := ch.setWidth 8

def encRecord (h : Handler) : List Byte :=
  encAddr h.address ++ [BitVec.ofNat 8 h.subdeviceIndex] ++ encProfile h.profileId ++
  [h.manufacturerId.extractLsb' 8 8, h.manufacturerId.extractLsb' 0 8, encRuleTag h.rule, encChannel h.channel,
   BitVec.ofNat 8 h.sink]

def encPacket (P : Packet) : List Byte :=
  [P.hdr.lenHi, P.hdr.lenLo, P.hdr.optLen, P.hdr.ptype] ++ P.pay.dropLast

def encErr : Option Nat → Byte
  | none => 0x00
  | some e => BitVec.ofNat 8 e

/-- An operation's line. -/
def opLine (opsel : Byte) (operands : List Byte) : Line := { fmt := .operation, bytes := opsel :: operands }

/-- A one-byte line of a field format. -/
def fieldLine (fmt : Format) (b : Byte) : Line := { fmt := fmt, bytes := [b] }

/-- A profile identifier's line. -/
def eepLine (func ty : Byte) : Line := { fmt := .profileId, bytes := [0xF6, func, ty] }

/-- The line of an instruction, from the same tables as the decoder. -/
def encode : Instr → Line
  | .coreReset => opLine 0x00 []
  | .crc8Update b c => opLine 0x10 [b, c]
  | .crc8Compute bytes seed => opLine 0x11 (seed :: encSeq bytes)
  | .frNew => opLine 0x20 []
  | .frByte b => opLine 0x21 [b]
  | .frAccept buffer => opLine 0x22 (encSeq buffer)
  | .frTake => opLine 0x23 []
  | .tvPtype P => opLine 0x30 (encPacket P)
  | .tvDlen P => opLine 0x31 (encPacket P)
  | .tvOlen P => opLine 0x32 (encPacket P)
  | .tvRorg P => opLine 0x33 (encPacket P)
  | .tvStoff P => opLine 0x34 (encPacket P)
  | .tvStatus P => opLine 0x35 (encPacket P)
  | .tvUdlen P => opLine 0x36 (encPacket P)
  | .tvUdata P => opLine 0x37 (encPacket P)
  | .tvSender P => opLine 0x38 (encPacket P)
  | .tvSubtel P => opLine 0x39 (encPacket P)
  | .tvDest P => opLine 0x3A (encPacket P)
  | .tvDbm P => opLine 0x3B (encPacket P)
  | .tvSeclvl P => opLine 0x3C (encPacket P)
  | .tvOk P => opLine 0x3D (encPacket P)
  | .dpHandle P => opLine 0x40 (encPacket P)
  | .dpSetlearn e => opLine 0x41 [if e then 0x01 else 0x00]
  | .dpRegister h => opLine 0x42 (encRecord h)
  | .dpUnregister a => opLine 0x43 (encAddr a)
  | .dpLookup a => opLine 0x44 (encAddr a)
  | .dpTeachq P => opLine 0x45 (encPacket P)
  | .pdMatch p => opLine 0x50 (encProfile p)
  | .pdRocker P ch => opLine 0x51 (encPacket P ++ [encChannel ch])
  | .pdWinopen P => opLine 0x52 (encPacket P)
  | .pdWintilt P => opLine 0x53 (encPacket P)
  | .pdCardkey2 P => opLine 0x54 (encPacket P)
  | .pdCardkey1 P => opLine 0x55 (encPacket P)
  | .pdSmokealm P => opLine 0x56 (encPacket P)
  | .pdSmokebat P => opLine 0x57 (encPacket P)
  | .pdInvoke h P => opLine 0x58 (encRecord h ++ encPacket P)
  | .chRx bytes err => opLine 0x60 (encHalf bytes.length ++ [encErr err] ++ bytes)
  | .esp3Header h l o t c => { fmt := .header, bytes := [Config.sync, h, l, o, t, c] }
  | .esp3Payload data opt c =>
      { fmt := .payload, bytes := encHalf data.length ++ [BitVec.ofNat 8 opt.length] ++ data ++ opt ++ [c] }
  | .ptypeRadio => fieldLine .packetType 0x01
  | .ptypeResponse => fieldLine .packetType 0x02
  | .ptypeRadioSubtelegram => fieldLine .packetType 0x03
  | .ptypeEvent => fieldLine .packetType 0x04
  | .ptypeCommonCmd => fieldLine .packetType 0x05
  | .ptypeSmartAckCmd => fieldLine .packetType 0x06
  | .ptypeRemoteMgmtCmd => fieldLine .packetType 0x07
  | .ptypeManufacturerSpecific low => fieldLine .packetType (1#1 ++ low)
  | .ptypeReserved t => fieldLine .packetType t
  | .rorgRps => fieldLine .rorg 0xF6
  | .rorg1bs => fieldLine .rorg 0xD5
  | .rorg4bs => fieldLine .rorg 0xA5
  | .rorgVld => fieldLine .rorg 0xD2
  | .rorgMsc => fieldLine .rorg 0xD1
  | .rorgAdt => fieldLine .rorg 0xA6
  | .rorgSmLrnReq => fieldLine .rorg 0xC6
  | .rorgSmLrnAns => fieldLine .rorg 0xC7
  | .rorgSmRec => fieldLine .rorg 0xA7
  | .rorgSysEx => fieldLine .rorg 0xC5
  | .rorgSec => fieldLine .rorg 0x30
  | .rorgSecEncaps => fieldLine .rorg 0x31
  | .statusT21 b => fieldLine .statusT21 b
  | .statusNu b => fieldLine .statusNu b
  | .rpsRockerN a p b s => fieldLine .rockerN (a ++ p ++ b ++ s)
  | .rpsRockerU b p low => fieldLine .rockerU (b ++ p ++ low)
  | .rpsWindow p low => fieldLine .window (p ++ low)
  | .rpsCardkeyErp2 hi i low => fieldLine .cardkeyErp2 (hi ++ i ++ low)
  | .rpsCardkeyErp1 => fieldLine .cardkeyErp1 0x70
  | .rpsSmoke hi s low => fieldLine .smoke (hi ++ s ++ low)
  | .eepRockerFunc02 ty => eepLine 0x02 ty
  | .eepRockerFunc03 ty => eepLine 0x03 ty
  | .eepWindowHandle => eepLine 0x10 0x00
  | .eepCardkeyErp2 => eepLine 0x04 0x02
  | .eepCardkeyErp1 ty => eepLine 0x04 ty
  | .eepSmoke => eepLine 0x05 0xC0
  | .optdataRadio s d g v => { fmt := .optData, bytes := [s] ++ encAddr d ++ [g, v] }

/-! The opcode table's words (log 16). The table numbers a row's bits from 0 and gives no row its format, and one
byte can be a code of several formats; the row's width and the order below say which row a word is read as. -/

/-- The `opsel` codes and the width, in whole bytes, that spec/opcode_table.json gives each row. -/
def opselWidths : List (Nat × Nat) :=
  [(0x00, 8), (0x10, 8), (0x11, 8), (0x20, 8), (0x21, 8), (0x22, 8), (0x23, 8)] ++
  [(0x30, 16), (0x31, 24), (0x32, 16), (0x33, 16), (0x34, 8), (0x35, 16), (0x36, 24), (0x37, 8)] ++
  [(0x38, 8), (0x39, 16), (0x3A, 8), (0x3B, 8), (0x3C, 16), (0x3D, 8)] ++
  [(0x40, 8), (0x41, 8), (0x42, 8), (0x43, 8), (0x44, 8), (0x45, 8)] ++
  [(0x50, 8), (0x51, 8), (0x52, 8), (0x53, 8), (0x54, 8), (0x55, 8), (0x56, 8), (0x57, 8), (0x58, 8), (0x60, 8)]

/-- The RORG codes of R66. -/
def rorgCodes : List Nat := [0xF6, 0xD5, 0xA5, 0xD2, 0xD1, 0xA6, 0xC6, 0xC7, 0xA7, 0xC5, 0x30, 0x31]

/-- The format a table word of `nbits` bits is read in. -/
def tableFormat (nbits w : Nat) : Format :=
  let b := w % 256
  if opselWidths.contains (b, nbits) then .operation
  else if nbits = 24 then .profileId
  else if nbits = 48 then .header
  else if nbits = 56 then .optData
  else if nbits = 8 && rorgCodes.contains b then .rorg
  else if opselWidths.any (fun r => r.1 == b) then .operation
  else if b = 0x70 then .cardkeyErp1
  else .packetType

/-- How many zero bytes are laid above a table word: enough for the longest operands of fixed length. -/
def tablePadding : Nat := 24

/-- Zero bytes enough for any operand: a packet operand whose length bytes the word sets can call for 300. -/
def tableLongPadding : Nat := 600

/-- The bytes of a table word, the first at the least significant end. -/
def tableBytes : Nat → Nat → List Byte
  | 0, _ => []
  | n + 1, w => BitVec.ofNat 8 w :: tableBytes n (w / 256)

/-- The bytes of a table word as they are stored: a profile identifier is one 24-bit word and stored big-endian
(R41); everything else is a byte sequence, numbered from its first byte; zeros follow. -/
def tableStored (nbits w padding : Nat) : List Byte :=
  match tableFormat nbits w with
  | .profileId => (tableBytes (nbits / 8) w).reverse
  | _ => tableBytes (nbits / 8) w ++ List.replicate padding 0

/-- A line cut to the bytes its decoding consumes, or none where it does not decode. -/
def trimLine (l : Line) : Option Line :=
  match decodePrefix l.fmt l.bytes with
  | .ok (_, rest) => some { fmt := l.fmt, bytes := l.bytes.take (l.bytes.length - rest.length) }
  | .error _ => none

/-- The line of a table word: the bytes the decoder consumes, or all of them where it refuses. -/
def tableLine (nbits w : Nat) : Line :=
  let short : Line := { fmt := tableFormat nbits w, bytes := tableStored nbits w tablePadding }
  let long : Line := { fmt := tableFormat nbits w, bytes := tableStored nbits w tableLongPadding }
  match trimLine short with
  | some l => l
  | none => (trimLine long).getD short

/-- The instruction the decoder reads from a word of the opcode table. -/
def decodeTableWord (nbits w : Nat) : Option Instr := (decodeLine (tableLine nbits w)).toOption

end Sys2Proof
end

