-- ==== Sys2Proof/Machine/State.lean ====
section
/-! DEFINITION. The state of the core as plain data (10_state.md), the values its operations answer and emit, the
reasons a step can stop, and the state after reset (R28). -/

namespace Sys2Proof.Machine

open Sys2Proof

/-! Storage. -/

/-- A storage space of bytes (R40): listed cells hold the byte listed, every other index holds no value. The
canonical form, strictly rising indexes, is `Memory.wf`. -/
abbrev Memory := List Host.Cell

/-- The two byte-indexed storage spaces (R27). -/
inductive Space where
  | hdr | pay
deriving DecidableEq, Repr, Inhabited

/-- `F.state` (R13). -/
inductive ParseState where
  | syncWait | headerRead | dataRead | complete
deriving DecidableEq, Repr, Inhabited

/-- The framer `F` (R10 to R16). `idx` is `F.idx`, a natural number as D5 allows (log 6). -/
structure Framer where
  state : ParseState
  idx   : Nat
  hdr   : Memory
  pay   : Memory
deriving DecidableEq, Repr, Inhabited

/-- `D.learn` (R21). -/
inductive LearnState where
  | disabled | enabled
deriving DecidableEq, Repr, Inhabited

/-- `D.reg` (R22): addresses strictly rising, each with its non-empty list of handlers (log 26). -/
abbrev Registry := List (Addr × List Handler)

/-! Values. -/

/-- The side of a rocker (R170). -/
inductive Side where
  | upOff | downOn
deriving DecidableEq, Repr, Inhabited

/-- Event values (R170, D24). -/
inductive Event where
  | button (side : Side) (pressed : Bool)
  | releaseAll
  | value (v : Bool)
deriving DecidableEq, Repr, Inhabited

/-- The decode rule families of `PD.MATCH` (R160). -/
inductive Family where
  | rocker | window | cardKeyErp2 | cardKeyErp1 | smoke
deriving DecidableEq, Repr, Inhabited

/-- One action of a rocker N-message: the rocker it addresses, its side, and the shared pressed bit (R162). -/
structure Action where
  rocker  : Channel
  side    : Side
  pressed : Bool
deriving DecidableEq, Repr, Inhabited

/-- The positions of a window handle (R68, R165). -/
inductive WindowPosition where
  | tilted | closed | fullyOpen
deriving DecidableEq, Repr, Inhabited

/-- Diagnostics (R230), each with the value the rule says is recorded. The RORG of `shortTelegram` is absent where
the data part is empty and there is no RORG byte (log 22). -/
inductive Diag where
  | headerCrcMismatch (hdr : Header)
  | payloadCrcMismatch (hdr : Header) (pay : List Byte)
  | oversize (size : Nat)
  | unknownPacketType (t : Byte)
  | unsupportedProfile (p : ProfileId)
  | unregisteredAddress (a : Addr)
  | transportError (err : Nat)
  | shortTelegram (dataLength : Nat) (rorg : Option Byte)
deriving DecidableEq, Repr

/-- The "enumerated error kinds" of the design note (R230, R249). -/
inductive ErrorKind where
  | syncLost | crcMismatch | oversize | unsupportedProfile
deriving DecidableEq, Repr, Inhabited

/-- The kind of a learn event (R8). -/
inductive LearnKind where
  | learnIn | learnOut
deriving DecidableEq, Repr, Inhabited

/-- One emission on an output port (R8). -/
inductive Output where
  | sinkEvt (h : Handler) (e : Event)
  | learnEvt (kind : LearnKind) (a : Addr)
  | unpair (a : Addr)
  | diag (d : Diag)
deriving DecidableEq, Repr

/-- What an operation answers its caller (the results column of R70; log 3), and what reading an item of the wire
formats answers (log 15). -/
inductive Result where
  /-- The operation has no result. -/
  | none
  | byte (v : Byte)
  | half (v : Half)
  | word (v : Addr)
  | dbm (v : Dbm)
  | bit (v : Bool)
  | count (n : Nat)
  | offset (n : Int)
  | bytes (bs : List Byte)
  | packet (P : Packet)
  | handlers (hs : List Handler)
  | family (f : Option Family)
  | events (es : List Event)
  /-- A RORG code: by how much it shifts the trailer (R45), and whether its teach-in is implicit (R193). -/
  | rorg (vldShift : Nat) (implicitTeach : Bool)
  /-- The actions of a rocker N-message data byte (R68). -/
  | actions (as : List Action)
  /-- The fields of a rocker U-message data byte (R68). -/
  | buttons (count : BitVec 3) (pressed : Bool)
  | position (p : WindowPosition)
  | smoke (alarm battery : Bool)
  /-- A row of the profile match table: its family and the family's handler tags (R69). -/
  | eepRow (f : Option Family) (tags : List RuleTag)
  /-- The radio optional data (R73). -/
  | optData (subtel : Byte) (destination : Addr) (dbm : Dbm) (secLevel : Byte)
deriving DecidableEq, Repr

/-- What the host has asked for and the core has not yet run (R7, R24; log 1): an operation with structured operands
(D3), an operation as an encoded line, or a write of the configuration register `D.dbm_min`. -/
inductive Request where
  | call (i : Instr)
  | line (l : Line)
  | setDbmMin (v : Dbm)
deriving DecidableEq, Repr

/-! Stops. -/

/-- Why the machine stops with a fault. -/
inductive Fault where
  /-- An operation of the framer reads a byte that nothing has written since `FR.NEW` or the allocation: "a
  valueless read is an error of the model, never a value" (93 U1). Raised by `FR.BYTE`, `FR.ACCEPT`, `FR.TAKE`,
  `CH.RX`, `ESP3.HEADER`, `ESP3.PAYLOAD`; safe: no state that meets `State.Inv` reaches it. -/
  | readUnwritten (sp : Space) (index : Nat)
  /-- An operation of the framer addresses a byte outside HDR's 6 or PAY's paySize bytes (R40). Raised by the same
  operations; safe: no state that meets `State.Inv` reaches it. -/
  | noSuchByte (sp : Space) (index : Nat)
  /-- The framing loop of `CH.RX` has gone round more often than it has bytes. R222's termination argument rules
  it out; the constructor closes the loop's recursion. Safe: never reached from any state. -/
  | noProgress
deriving DecidableEq, Repr

/-- Why a request is refused. -/
inductive Refusal where
  /-- The instruction has no meaning yet. No arm of `exec` answers it. -/
  | notModelled (mnemonic : String)
  /-- The line decodes to no instruction. Raised by `step`; safe: R70 says such a code "selects no operation". -/
  | undecodable (e : DecodeError)
  /-- The operands do not meet `Instr.wf`: a packet that is not completed, a byte outside its row. Raised by `step`;
  safe: R269 gives accessors no meaning there. -/
  | illFormed
  /-- A radio accessor, decoder or teach-in test on a packet of another type (93 U2: `refuse`). Raised by `TV.RORG`
  to `TV.SECLVL`, `DP.TEACHQ`, `PD.ROCKER` to `PD.INVOKE`; safe. -/
  | notRadio
  /-- An optional-data accessor where `optDataLength < 7` (93 U3: `refuse`). Raised by `TV.SUBTEL`, `TV.DEST`,
  `TV.DBM`, `TV.SECLVL`; safe. -/
  | optDataTooShort
  /-- An accessor's index is negative or not below the payload's length (93 U4: `refuse`). Raised by `TV.STATUS` and
  `TV.SENDER` on short radio packets, and by any reader of a packet that is not completed; safe. -/
  | indexOutsidePayload (index : Int)
  /-- `FR.TAKE` where `F.state` is not Complete (93 U5: `refuse`). Safe. -/
  | framerNotComplete
  /-- `DP.REGISTER` of a record whose rule tag is not of the family its profile matches (93 U15: `refuse`). Safe. -/
  | recordNotOfFamily
  /-- A registration that a bounded registry cannot hold: "a bounded implementation's overflow behaviour is outside the
  spec" (R198, D20). Raised by `DP.REGISTER` and learn-in where `REG_CAPACITY` is a bound, so never with this core's
  own parameters (log 9). Safe. -/
  | registryFull
deriving DecidableEq, Repr

/-- A stop inside an operation. -/
inductive Stop where
  | fault (f : Fault)
  | refuse (r : Refusal)
deriving DecidableEq, Repr

/-- A computation that answers a value or stops. -/
abbrev Run (α : Type) := Except Stop α

/-- A computation's outcome as the host reads it. -/
def Run.outcome (r : Except Stop α) : Host.Outcome α Fault Refusal :=
  match r with
  | .ok s => .next s
  | .error (.fault f) => .fault f
  | .error (.refuse f) => .refused f

/-! The state. -/

/-- The state of the core: `F`, `D.learn`, `D.reg`, `D.dbm_min` (R28), the output ports (R8; log 4), the result port
(log 3) and the host's requests (log 1). -/
structure State where
  fr      : Framer
  learn   : LearnState
  reg     : Registry
  dbmMin  : Dbm
  outputs : List Output
  result  : Result
  issue   : List Request
deriving DecidableEq, Repr

/-- A fresh framer (R100): SyncWait, index 0, no byte with a value. -/
def Framer.fresh : Framer := { state := .syncWait, idx := 0, hdr := [], pay := [] }

/-- The state right after reset (R28, R260), with nothing issued and nothing emitted (log 19). -/
def State.reset : State where
  fr      := Framer.fresh
  learn   := .disabled
  reg     := []
  dbmMin  := Config.learnDbmMin
  outputs := []
  result  := .none
  issue   := []

end Sys2Proof.Machine
end

