-- ==== Sys2Proof/Machine/Ops.lean ====
section
/-! DEFINITION. The shared operations over the state: byte storage, the framer's accessors, the registry, the
output ports, and raising a diagnostic (the core's one form of exception, R242). -/

namespace Sys2Proof.Machine

open Sys2Proof

/-! Byte storage (R40, R42). An index not listed holds no value. -/

def Memory.read : Memory → Nat → Option Byte
  | [], _ => none
  | c :: m, a => if c.1 = a then some c.2 else Memory.read m a

def Memory.write : Memory → Nat → Byte → Memory
  | [], a, b => [(a, b)]
  | c :: m, a, b =>
    if a < c.1 then (a, b) :: c :: m
    else if c.1 = a then (a, b) :: m
    else c :: Memory.write m a b

/-- The canonical form of a storage space of `size` bytes: indexes strictly rising and below `size`. No entry can
equal what an unlisted index reads as, since that is no value. -/
abbrev Memory.wf (size : Nat) (m : Memory) : Prop :=
  List.Pairwise (fun x y : Host.Cell => x.1 < y.1) m ∧ ∀ c ∈ m, c.1 < size

/-- `MemRead(space, i, 1)` where the space has `size` bytes: an index outside does not exist, a byte without value
is a fault (00_scope.md section 6, 93 U1). -/
def readByte (sp : Space) (size : Nat) (m : Memory) (i : Nat) : Run Byte :=
  if i < size then
    match Memory.read m i with
    | some b => .ok b
    | none => .error (.fault (.readUnwritten sp i))
  else .error (.fault (.noSuchByte sp i))

/-- `MemRead(space, i, n)`: `n` single-byte reads of consecutive indexes (R42). -/
def readBytes (sp : Space) (size : Nat) (m : Memory) (i : Nat) : Nat → Run (List Byte)
  | 0 => .ok []
  | n + 1 => do
      let b ← readByte sp size m i
      let bs ← readBytes sp size m (i + 1) n
      .ok (b :: bs)

/-- `MemWrite(space, i, 1, b)`. -/
def writeByte (sp : Space) (size : Nat) (m : Memory) (i : Nat) (b : Byte) : Run Memory :=
  if i < size then .ok (Memory.write m i b) else .error (.fault (.noSuchByte sp i))

/-! The framer's accessors. -/

/-- The flag `complete` (R17). -/
def Framer.isComplete (F : Framer) : Bool := F.state == .complete

/-- The header as six single-byte reads (R18, R42). -/
def Framer.header (F : Framer) : Run Header := do
  let b0 ← readByte .hdr Config.headerBytes F.hdr 0
  let b1 ← readByte .hdr Config.headerBytes F.hdr 1
  let b2 ← readByte .hdr Config.headerBytes F.hdr 2
  let b3 ← readByte .hdr Config.headerBytes F.hdr 3
  let b4 ← readByte .hdr Config.headerBytes F.hdr 4
  let b5 ← readByte .hdr Config.headerBytes F.hdr 5
  .ok { sync := b0, lenHi := b1, lenLo := b2, optLen := b3, ptype := b4, crc := b5 }

/-- Payload bytes `0..n-1`. -/
def Framer.payload (F : Framer) (n : Nat) : Run (List Byte) := readBytes .pay Config.maxPayload F.pay 0 n

/-- Stores a header byte at `F.idx` and advances the index (R103). -/
def Framer.storeHeader (b : Byte) (F : Framer) : Run Framer := do
  let m ← writeByte .hdr Config.headerBytes F.hdr F.idx b
  .ok { F with hdr := m, idx := F.idx + 1 }

/-- Stores a payload byte at `F.idx` and advances the index (R107); only indexes below `paySize`, and only the 300
registers of the buffer, exist (R16, R40). -/
def Framer.storePayload (paySize : Nat) (b : Byte) (F : Framer) : Run Framer := do
  let m ← writeByte .pay (min paySize Config.maxPayload) F.pay F.idx b
  .ok { F with pay := m, idx := F.idx + 1 }

/-- Back to scanning: the recovery of R105, R106 and R108. The bytes stay in the storage (D9). -/
def Framer.toSync (F : Framer) : Framer := { F with state := .syncWait, idx := 0 }

/-- The payload buffer allocated (R104, D6): its limit is the header's `paySize`, no byte holds a value. -/
def Framer.allocate (F : Framer) : Framer := { F with state := .dataRead, idx := 0, pay := [] }

/-! The registry (R22, R51). -/

/-- `D.reg[a]`, or the empty list where `a` is absent (R200). -/
def Registry.lookup : Registry → Addr → List Handler
  | [], _ => []
  | x :: r, a => if x.1 = a then x.2 else Registry.lookup r a

/-- `a in D.reg`. -/
def Registry.has (r : Registry) (a : Addr) : Bool := r.any (fun x => x.1 == a)

/-- `D.reg[a] <- hs`. -/
def Registry.set : Registry → Addr → List Handler → Registry
  | [], a, hs => [(a, hs)]
  | x :: r, a, hs =>
    if a < x.1 then (a, hs) :: x :: r
    else if x.1 = a then (a, hs) :: r
    else x :: Registry.set r a hs

/-- `remove(D.reg, a)`. -/
def Registry.remove (r : Registry) (a : Addr) : Registry := r.filter (fun x => x.1 != a)

/-- The list a record joins: the record replaces one of the same sub-device index and goes to the end (R198, D21). -/
def joinHandlers (hs : List Handler) (h : Handler) : List Handler :=
  hs.filter (fun x => x.subdeviceIndex != h.subdeviceIndex) ++ [h]

/-- `DP.REGISTER` on the map (R198). -/
def Registry.register (r : Registry) (h : Handler) : Registry :=
  Registry.set r h.address (joinHandlers (Registry.lookup r h.address) h)

/-- Whether a registry of a given capacity can hold what a registration makes of it (R9, D20). -/
def Registry.within (capacity : Option Config.RegCapacity) (r : Registry) : Bool :=
  match capacity with
  | none => true
  | some c => decide (r.length ≤ c.addresses) && r.all (fun x => decide (x.2.length ≤ c.perAddress))

/-- A registration's registry where it fits; the spec gives an overflow no effect (R198, D20; log 9). -/
def Registry.enter (capacity : Option Config.RegCapacity) (r : Registry) : Run Registry :=
  if Registry.within capacity r then .ok r else .error (.refuse .registryFull)

/-! Ports, diagnostics, results. -/

/-- `emit port(value)`: one emission, after all earlier ones (R8, R276). -/
def State.emit (o : Output) (s : State) : State := { s with outputs := s.outputs ++ [o] }

/-- Emissions in order. -/
def State.emitAll (os : List Output) (s : State) : State := { s with outputs := s.outputs ++ os }

/-- `raise <Diag>(info)`, the core's one form of exception (R230, R242): one emission on `diag`. Nothing is saved,
no mode changes and control goes nowhere; the recovery of the condition's own rule stands where it is raised, and
there is nothing to return from (R243). -/
def State.raise (d : Diag) (s : State) : State := s.emit (.diag d)

/-- Diagnostics raised one after the other. -/
def State.raiseAll (ds : List Diag) (s : State) : State := s.emitAll (ds.map .diag)

/-- The diagnostic codes of R230. -/
def Diag.code : Diag → Nat
  | .headerCrcMismatch _ => 1
  | .payloadCrcMismatch _ _ => 2
  | .oversize _ => 3
  | .unknownPacketType _ => 4
  | .unsupportedProfile _ => 5
  | .unregisteredAddress _ => 6
  | .transportError _ => 7
  | .shortTelegram _ _ => 8

/-- The error kind column of R230's table, absent where it says "none given"; "sync-lost" is the kind of no diagnostic
(R249, D26). -/
def Diag.errorKind : Diag → Option ErrorKind
  | .headerCrcMismatch _ => some .crcMismatch
  | .payloadCrcMismatch _ _ => some .crcMismatch
  | .oversize _ => some .oversize
  | .unknownPacketType _ => none
  | .unsupportedProfile _ => some .unsupportedProfile
  | .unregisteredAddress _ => none
  | .transportError _ => none
  | .shortTelegram _ _ => none

/-- The operation's answer (log 3). -/
def State.answer (r : Result) (s : State) : State := { s with result := r }

/-- The framer replaced. -/
def State.withFramer (F : Framer) (s : State) : State := { s with fr := F }

/-- The registry replaced. -/
def State.withReg (r : Registry) (s : State) : State := { s with reg := r }

/-- The learn state replaced. -/
def State.withLearn (l : LearnState) (s : State) : State := { s with learn := l }

end Sys2Proof.Machine
end

