-- ==== Sys2Proof/Machine/CoreReset.lean ====
section
/-! DEFINITION. `CORE.RESET` (70_reset_and_hazards.md R260). -/

namespace Sys2Proof.Machine

open Sys2Proof

/-- `CORE.RESET` (R260): the core's own state as after reset. It emits nothing; what the host has issued and what was
emitted before are not the core's to forget (log 20). -/
def execCoreReset (s : State) : Host.Outcome State Fault Refusal :=
  .next { s with fr := Framer.fresh, learn := .disabled, reg := [], dbmMin := Config.learnDbmMin, result := .none }

end Sys2Proof.Machine
end

