-- ==== Sys2Proof/Machine/Crc8Unit.lean ====
section
/-! DEFINITION. The CRC8 unit's operations (40_crc8.md). Pure: they answer a byte and change nothing else. -/

namespace Sys2Proof.Machine

open Sys2Proof

/-- `CRC8.UPDATE(byte, crc) -> crc'` (R90). -/
def execCrc8Update (byte crc : Byte) (s : State) : Host.Outcome State Fault Refusal :=
  .next (s.answer (.byte (crc8Update byte crc)))

/-- `CRC8.COMPUTE(bytes, seed) -> crc` (R91). -/
def execCrc8Compute (bytes : List Byte) (seed : Byte) (s : State) : Host.Outcome State Fault Refusal :=
  .next (s.answer (.byte (crc8Compute bytes seed)))

end Sys2Proof.Machine
end

