-- ==== Sys2Proof/Machine/TelegramView.lean ====
section
/-! DEFINITION. The telegram view (42_telegram_view.md): accessors over a packet operand. Each answers its value
and changes nothing else; the value is a function of the packet alone (R144), a free one where the spec leaves it open
(93 U4; log 10). -/

namespace Sys2Proof

open Sys2Proof.Machine

/-- Payload byte `i` of a packet operand. -/
def Packet.byteAt (P : Packet) (i : Int) : Run Byte :=
  if i < 0 then .error (.refuse (.indexOutsidePayload i))
  else match P.pay[i.toNat]? with
    | some b => .ok b
    | none => .error (.refuse (.indexOutsidePayload i))

/-- Four consecutive payload bytes as a big-endian 32-bit value (R41, R42). -/
def Packet.addrAt (P : Packet) (i : Nat) : Run Addr := do
  let b0 ← P.byteAt i
  let b1 ← P.byteAt (i + 1 : Nat)
  let b2 ← P.byteAt (i + 2 : Nat)
  let b3 ← P.byteAt (i + 3 : Nat)
  .ok (be32 b0 b1 b2 b3)

/-- The precondition of the radio accessors (R131, 93 U2). -/
def Packet.radio (P : Packet) : Run Unit :=
  if P.isRadio then .ok () else .error (.refuse .notRadio)

/-- The preconditions of the optional-data accessors (R131, R138, 93 U3). -/
def Packet.withOptData (P : Packet) : Run Unit := do
  P.radio
  if P.optValid then .ok () else .error (.refuse .optDataTooShort)

/-- `rorg` (R132): payload byte 0, a data byte where `dl >= 1`; with no data part the value is free (log 10,
log 11). -/
def Packet.rorg (P : Packet) : Run Byte := do
  P.radio
  let b ← P.byteAt 0
  .ok (if 1 ≤ P.dl then b else Config.freeRorg P)

/-- `status` (R134): payload byte `statusOffset`; free where `view_ok` fails (log 10). -/
def Packet.status (P : Packet) : Run Byte := do
  P.radio
  let b ← P.byteAt P.statusOffset
  .ok (if P.viewOk then b else Config.freeStatus P)

/-- `userData` (R136): payload bytes `1..userDataLength`. -/
def Packet.userData (P : Packet) : Run (List Byte) := do
  P.radio
  if 1 + P.userDataLength ≤ P.pay.length then .ok ((P.pay.drop 1).take P.userDataLength)
  else .error (.refuse (.indexOutsidePayload P.userDataLength))

/-- `sender` (R137): the four bytes after the user data, big-endian; free where `view_ok` fails (log 10). -/
def Packet.sender (P : Packet) : Run Addr := do
  P.radio
  let a ← P.addrAt (1 + P.userDataLength)
  .ok (if P.viewOk then a else Config.freeSender P)

/-- `subtelegramCount` (R139). -/
def Packet.subtelegramCount (P : Packet) : Run Byte := do
  P.withOptData
  P.byteAt P.dl

/-- `destination` (R140). -/
def Packet.destination (P : Packet) : Run Addr := do
  P.withOptData
  P.addrAt (P.dl + 1)

/-- `signalStrengthDbm` (R141): the negative of optional-data byte 5, in 9 bits. -/
def Packet.signalDbm (P : Packet) : Run Dbm := do
  P.withOptData
  let g ← P.byteAt (P.dl + 5 : Nat)
  .ok (dbmOf g)

/-- `securityLevel` (R142). -/
def Packet.securityLevel (P : Packet) : Run Byte := do
  P.withOptData
  P.byteAt (P.dl + 6 : Nat)

namespace Machine

/-- `TV.PTYPE(P)` (R130). -/
def execTvPtype (P : Packet) (s : State) : Host.Outcome State Fault Refusal :=
  .next (s.answer (.byte P.hdr.ptype))

/-- `TV.DLEN(P)` (R130). -/
def execTvDlen (P : Packet) (s : State) : Host.Outcome State Fault Refusal :=
  .next (s.answer (.half (be16 P.hdr.lenHi P.hdr.lenLo)))

/-- `TV.OLEN(P)` (R130). -/
def execTvOlen (P : Packet) (s : State) : Host.Outcome State Fault Refusal :=
  .next (s.answer (.byte P.hdr.optLen))

/-- `TV.RORG(P)` (R132). -/
def execTvRorg (P : Packet) (s : State) : Host.Outcome State Fault Refusal :=
  Run.outcome do
    let b ← P.rorg
    .ok (s.answer (.byte b))

/-- `TV.STOFF(P)` (R133): an integer, -1 or -2 where there is no status byte. -/
def execTvStoff (P : Packet) (s : State) : Host.Outcome State Fault Refusal :=
  Run.outcome do
    P.radio
    .ok (s.answer (.offset P.statusOffset))

/-- `TV.STATUS(P)` (R134). -/
def execTvStatus (P : Packet) (s : State) : Host.Outcome State Fault Refusal :=
  Run.outcome do
    let b ← P.status
    .ok (s.answer (.byte b))

/-- `TV.UDLEN(P)` (R135), 16 bits. -/
def execTvUdlen (P : Packet) (s : State) : Host.Outcome State Fault Refusal :=
  Run.outcome do
    P.radio
    .ok (s.answer (.half (BitVec.ofNat 16 P.userDataLength)))

/-- `TV.UDATA(P)` (R136). -/
def execTvUdata (P : Packet) (s : State) : Host.Outcome State Fault Refusal :=
  Run.outcome do
    let bs ← P.userData
    .ok (s.answer (.bytes bs))

/-- `TV.SENDER(P)` (R137). -/
def execTvSender (P : Packet) (s : State) : Host.Outcome State Fault Refusal :=
  Run.outcome do
    let a ← P.sender
    .ok (s.answer (.word a))

/-- `TV.SUBTEL(P)` (R139). -/
def execTvSubtel (P : Packet) (s : State) : Host.Outcome State Fault Refusal :=
  Run.outcome do
    let b ← P.subtelegramCount
    .ok (s.answer (.byte b))

/-- `TV.DEST(P)` (R140). -/
def execTvDest (P : Packet) (s : State) : Host.Outcome State Fault Refusal :=
  Run.outcome do
    let a ← P.destination
    .ok (s.answer (.word a))

/-- `TV.DBM(P)` (R141). -/
def execTvDbm (P : Packet) (s : State) : Host.Outcome State Fault Refusal :=
  Run.outcome do
    let d ← P.signalDbm
    .ok (s.answer (.dbm d))

/-- `TV.SECLVL(P)` (R142). -/
def execTvSeclvl (P : Packet) (s : State) : Host.Outcome State Fault Refusal :=
  Run.outcome do
    let b ← P.securityLevel
    .ok (s.answer (.byte b))

/-- `TV.OK(P)` (R143). -/
def execTvOk (P : Packet) (s : State) : Host.Outcome State Fault Refusal :=
  .next (s.answer (.bit P.viewOk))

end Machine

end Sys2Proof
end

