-- ==== Sys2Proof/Machine/ProfileDecoders.lean ====
section
/-! DEFINITION. The profile decoders (43_profile_decoders.md): the match table and seven decode rules, each a
pure function from a packet to the events it yields, and their meanings, which answer the events. -/

namespace Sys2Proof.Machine

open Sys2Proof

/-- `PD.MATCH(profileId)` (R160): the masked comparisons in the rule's order. -/
def profileMatch (p : ProfileId) : Option Family :=
  if p &&& 0xFFFF00 = 0xF60200 ∨ p &&& 0xFFFF00 = 0xF60300 then some .rocker
  else if p = 0xF61000 then some .window
  else if p = 0xF60402 then some .cardKeyErp2
  else if p &&& 0xFFFF00 = 0xF60400 then some .cardKeyErp1
  else if p = 0xF605C0 then some .smoke
  else none

/-- The handler tags of a family (R160, R69). -/
def Family.tags : Family → List RuleTag
  | .rocker => [.rocker]
  | .window => [.windowOpen, .windowTilted]
  | .cardKeyErp2 => [.cardKeyErp2]
  | .cardKeyErp1 => [.cardKeyErp1]
  | .smoke => [.smokeAlarm, .smokeBattery]

/-- The family whose tags hold a tag. -/
def familyOf : RuleTag → Family
  | .rocker => .rocker
  | .windowOpen => .window
  | .windowTilted => .window
  | .cardKeyErp2 => .cardKeyErp2
  | .cardKeyErp1 => .cardKeyErp1
  | .smokeAlarm => .smoke
  | .smokeBattery => .smoke

/-- A record whose rule tag is of the family its profile matches (93 U15, R23). -/
def recordOk (h : Handler) : Bool := profileMatch h.profileId == some (familyOf h.rule)

/-- The status byte and the data byte the decoders read (R161). -/
structure RpsInputs where
  status : Byte
  data   : Byte
deriving DecidableEq, Repr

/-- The common inputs and gate (R161): nothing where the RORG is not RPS or there is no user data. A radio packet
that fails `view_ok` has no user data and yields nothing (log 12). -/
def rpsInputs (P : Packet) : Run (Option RpsInputs) := do
  P.radio
  let r ← P.byteAt 0
  if r ≠ rorgCodeRps ∨ P.userDataLength = 0 then .ok none
  else do
    let st ← P.byteAt P.statusOffset
    let d ← P.byteAt 1
    .ok (some { status := st, data := d })

/-- A decode rule behind the gate. -/
def behindGate (f : RpsInputs → List Event) (P : Packet) : Run (List Event) := do
  let i ← rpsInputs P
  .ok ((i.map f).getD [])

/-- One action of a data byte (R162): the action code at offset `4*i + 1` and the shared pressed bit. -/
def actionAt (data : Byte) (i : Nat) : Action :=
  { rocker := actionRocker (actionCode data i)
    side := if actionUpOff (actionCode data i) then .upOff else .downOn
    pressed := bowPressed data }

/-- The actions of an N-message data byte in order: the first always, the second where bit 0 is set (R162). -/
def actionsOf (data : Byte) : List Action :=
  if secondPresent data then [actionAt data 1, actionAt data 0] else [actionAt data 1]

/-- The N-message arm (R162). -/
def rockerN (ch : Channel) (data : Byte) : List Event :=
  ((actionsOf data).filter (fun a => a.rocker == ch)).map (fun a => .button a.side a.pressed)

/-- The U-message arm (R163): only the release of all buttons yields an event, whatever the channel. -/
def rockerU (data : Byte) : List Event :=
  if !bowPressed data && buttonCount data == 0 then [.releaseAll] else []

def rockerRule (ch : Channel) (i : RpsInputs) : List Event :=
  if nuSet i.status then rockerN ch i.data else rockerU i.data

/-- A window handle message is valid only with NU clear and T21 set (R165). -/
def windowValid (i : RpsInputs) : Bool := !nuSet i.status && t21Set i.status

def windowOpenRule (i : RpsInputs) : List Event :=
  if windowValid i then [.value (!windowClosedBit i.data)] else []

def windowTiltedRule (i : RpsInputs) : List Event :=
  if windowValid i then [.value (windowTiltedBit i.data)] else []

def cardKeyErp2Rule (i : RpsInputs) : List Event := [.value (erp2Inserted i.data)]

def cardKeyErp1Rule (i : RpsInputs) : List Event := [.value (nuSet i.status && erp1Code i.data)]

def smokeAlarmRule (i : RpsInputs) : List Event := [.value (smokeAlarmBit i.data)]

def smokeBatteryRule (i : RpsInputs) : List Event := [.value (smokeBatteryBit i.data)]

/-- The events a handler's decode rule yields (R201). -/
def decodeFor (h : Handler) (P : Packet) : Run (List Event) :=
  match h.rule with
  | .rocker => behindGate (rockerRule h.channel) P
  | .windowOpen => behindGate windowOpenRule P
  | .windowTilted => behindGate windowTiltedRule P
  | .cardKeyErp2 => behindGate cardKeyErp2Rule P
  | .cardKeyErp1 => behindGate cardKeyErp1Rule P
  | .smokeAlarm => behindGate smokeAlarmRule P
  | .smokeBattery => behindGate smokeBatteryRule P

/-- A decoder's events as the answer of its operation (R169: no other effect). -/
def answerEvents (r : Run (List Event)) (s : State) : Host.Outcome State Fault Refusal :=
  Run.outcome do
    let es ← r
    .ok (s.answer (.events es))

/-- `PD.MATCH(profileId)` (R160). It raises nothing by itself: `UnsupportedProfile` arises "in one place only", the
learn-in (R236; log 25). -/
def execPdMatch (p : ProfileId) (s : State) : Host.Outcome State Fault Refusal :=
  .next (s.answer (.family (profileMatch p)))

/-- `PD.ROCKER(P, ch)` (R162, R163). -/
def execPdRocker (P : Packet) (ch : Channel) (s : State) : Host.Outcome State Fault Refusal :=
  answerEvents (behindGate (rockerRule ch) P) s

/-- `PD.WINOPEN(P)` (R165). -/
def execPdWinopen (P : Packet) (s : State) : Host.Outcome State Fault Refusal :=
  answerEvents (behindGate windowOpenRule P) s

/-- `PD.WINTILT(P)` (R165). -/
def execPdWintilt (P : Packet) (s : State) : Host.Outcome State Fault Refusal :=
  answerEvents (behindGate windowTiltedRule P) s

/-- `PD.CARDKEY2(P)` (R166). -/
def execPdCardkey2 (P : Packet) (s : State) : Host.Outcome State Fault Refusal :=
  answerEvents (behindGate cardKeyErp2Rule P) s

/-- `PD.CARDKEY1(P)` (R167). -/
def execPdCardkey1 (P : Packet) (s : State) : Host.Outcome State Fault Refusal :=
  answerEvents (behindGate cardKeyErp1Rule P) s

/-- `PD.SMOKEALM(P)` (R168). -/
def execPdSmokealm (P : Packet) (s : State) : Host.Outcome State Fault Refusal :=
  answerEvents (behindGate smokeAlarmRule P) s

/-- `PD.SMOKEBAT(P)` (R168). -/
def execPdSmokebat (P : Packet) (s : State) : Host.Outcome State Fault Refusal :=
  answerEvents (behindGate smokeBatteryRule P) s

end Sys2Proof.Machine
end

