-- ==== Sys2Proof/Machine/Dispatcher.lean ====
section
/-! DEFINITION. The dispatcher (44_dispatcher.md R190 to R201). What the spec leaves OPEN is an argument `π` here
(R9, R29: "arguments of the model"); the meanings take `Config.params` for it. -/

namespace Sys2Proof.Machine

open Sys2Proof

/-- `PD.INVOKE(h, P)` (R201): the events of the handler's decode rule go to its sink in order. -/
def invoke (h : Handler) (P : Packet) (s : State) : Run State := do
  let es ← decodeFor h P
  .ok (s.emitAll (es.map (.sinkEvt h)))

/-- The handlers of one address in list order (R191). -/
def invokeAll : List Handler → Packet → State → Run State
  | [], _, s => .ok s
  | h :: hs, P, s => do
      let s' ← invoke h P s
      invokeAll hs P s'

/-- Normal dispatch (R191) of a telegram from sender `a`. -/
def dispatch (a : Addr) (P : Packet) (s : State) : Run State :=
  match Registry.lookup s.reg a with
  | [] => .ok (s.raise (.unregisteredAddress a))
  | h :: hs => invokeAll (h :: hs) P s

/-- `DP.TEACHQ(P)` for a RORG byte read from the packet (R193): RPS telegrams qualify by signal strength, a signed and
inclusive comparison; others by the explicit teach flag. -/
def qualifies (π : Config.Params) (dbmMin : Dbm) (rorg : Byte) (P : Packet) : Run Bool :=
  if rorg = rorgCodeRps then
    if P.optValid then do
      let d ← P.signalDbm
      .ok (dbmMin.sle d)
    else .ok false
  else .ok (π.explicitTeach P)

/-- One handler record of a learn-in, from its plan: what R194 fixes is fixed, the rest is the plan's. -/
def planned (f : Family) (p : ProfileId) (a : Addr) (pl : Config.HandlerPlan) : Handler :=
  { address := a
    subdeviceIndex := pl.subdeviceIndex
    profileId := p
    manufacturerId := pl.manufacturerId
    rule := match f with
      | .rocker => .rocker
      | .window => if pl.second then .windowTilted else .windowOpen
      | .cardKeyErp2 => .cardKeyErp2
      | .cardKeyErp1 => .cardKeyErp1
      | .smoke => if pl.second then .smokeBattery else .smokeAlarm
    channel := pl.channel
    sink := pl.sink }

/-- Records of distinct sub-device indexes: a later record of an index already taken is left out (R194). -/
def distinctSubs : List Nat → List Handler → List Handler
  | _, [] => []
  | seen, h :: hs =>
    if seen.contains h.subdeviceIndex then distinctSubs seen hs
    else h :: distinctSubs (h.subdeviceIndex :: seen) hs

/-- `MAKE_HANDLERS(p, a, P)` within R194's constraints (log 8): non-empty, address, profile and family consistent,
distinct sub-device indexes. -/
def makeHandlers (π : Config.Params) (f : Family) (p : ProfileId) (a : Addr) (P : Packet) : List Handler :=
  let plans := π.handlerPlan p a P
  distinctSubs [] ((plans.1 :: plans.2).map (planned f p a))

/-- `DP.REGISTER` of records in order (R194, R198). -/
def registerAll (r : Registry) (hs : List Handler) : Registry := hs.foldl Registry.register r

/-- Learn-in (R194) of sender `a`. -/
def learnIn (π : Config.Params) (a : Addr) (P : Packet) (s : State) : Run State :=
  match profileMatch (π.learnProfile P) with
  | none => .ok (s.raise (.unsupportedProfile (π.learnProfile P)))
  | some f => do
      let r ← Registry.enter π.regCapacity (registerAll s.reg (makeHandlers π f (π.learnProfile P) a P))
      .ok ((s.withReg r).emit (.learnEvt .learnIn a))

/-- Learn-out (R195) of sender `a`. -/
def learnOut (a : Addr) (s : State) : State :=
  ((s.withReg (Registry.remove s.reg a)).emit (.unpair a)).emit (.learnEvt .learnOut a)

/-- The learn action and the single shot (R192, R196). -/
def learnAction (π : Config.Params) (a : Addr) (P : Packet) (s : State) : Run State := do
  let s' ← (if Registry.has s.reg a then .ok (learnOut a s) else learnIn π a P s)
  .ok (s'.withLearn .disabled)

/-- Learn mode (R192): a telegram that does not qualify is dropped and the mode kept (D17). -/
def learnMode (π : Config.Params) (rorg : Byte) (a : Addr) (P : Packet) (s : State) : Run State := do
  let q ← qualifies π s.dbmMin rorg P
  if q then learnAction π a P s else .ok s

/-- The first test of `DP.HANDLE` on a packet type (R190): a type R64 does not list raises a diagnostic; every
non-radio packet is ignored (D12). -/
def ignoreType (t : Byte) (s : State) : State :=
  if isListedType t then s else s.raise (.unknownPacketType t)

/-- What `ShortTelegram` records (R230; log 22). -/
def shortDiag (P : Packet) : Diag := .shortTelegram P.dl (if 1 ≤ P.dl then P.pay.head? else none)

/-- A radio telegram that passes `view_ok`: the learn state decides (R190). -/
def handleTelegram (π : Config.Params) (P : Packet) (s : State) : Run State := do
  let r ← P.byteAt 0
  let a ← P.addrAt (1 + P.userDataLength)
  match s.learn with
  | .disabled => dispatch a P s
  | .enabled => learnMode π r a P s

/-- `DP.HANDLE(P)` (R190), the order of tests of R241. -/
def handle (π : Config.Params) (P : Packet) (s : State) : Run State :=
  if !P.isRadio then .ok (ignoreType P.hdr.ptype s)
  else if !P.viewOk then .ok (s.raise (shortDiag P))
  else handleTelegram π P s

/-- `DP.HANDLE(P)` (R190). -/
def execDpHandle (P : Packet) (s : State) : Host.Outcome State Fault Refusal :=
  Run.outcome do
    let s' ← handle Config.params P s
    .ok (s'.answer .none)

/-- `DP.SETLEARN(enabled)` (R197). -/
def execDpSetlearn (enabled : Bool) (s : State) : Host.Outcome State Fault Refusal :=
  .next ((s.withLearn (if enabled then .enabled else .disabled)).answer .none)

/-- `DP.REGISTER(h)` (R198); a record that is not of its profile's family is refused (93 U15; log 14). -/
def execDpRegister (h : Handler) (s : State) : Host.Outcome State Fault Refusal :=
  if recordOk h then Run.outcome do
    let r ← Registry.enter Config.params.regCapacity (Registry.register s.reg h)
    .ok ((s.withReg r).answer .none)
  else .refused .recordNotOfFamily

/-- `DP.UNREGISTER(a)` (R199). -/
def execDpUnregister (a : Addr) (s : State) : Host.Outcome State Fault Refusal :=
  .next ((s.withReg (Registry.remove s.reg a)).answer .none)

/-- `DP.LOOKUP(a)` (R200). -/
def execDpLookup (a : Addr) (s : State) : Host.Outcome State Fault Refusal :=
  .next (s.answer (.handlers (Registry.lookup s.reg a)))

/-- `DP.TEACHQ(P)` (R193), on RORG as `TV.RORG` answers it. -/
def execDpTeachq (P : Packet) (s : State) : Host.Outcome State Fault Refusal :=
  Run.outcome do
    let r ← P.rorg
    let q ← qualifies Config.params s.dbmMin r P
    .ok (s.answer (.bit q))

/-- `PD.INVOKE(h, P)` (R201). -/
def execPdInvoke (h : Handler) (P : Packet) (s : State) : Host.Outcome State Fault Refusal :=
  Run.outcome do
    let s' ← invoke h P s
    .ok (s'.answer .none)

end Sys2Proof.Machine
end

