-- ==== Sys2Proof/Machine/FramerUnit.lean ====
section
/-! DEFINITION. The packet framer (41_framer.md R100 to R116): the per-byte step, the buffer operation, the
hand-over, and their meanings. The functions on `Framer` answer the diagnostics they raise, in order. -/

namespace Sys2Proof.Machine

open Sys2Proof

/-- SyncWait (R102): 0x55 starts a header, any other byte is skipped. -/
def Framer.syncByte (b : Byte) (F : Framer) : Framer :=
  if b = Config.sync then
    { F with state := .headerRead, idx := 1, hdr := Memory.write F.hdr 0 Config.sync }
  else F

/-- One replayed byte (R105): R102 in SyncWait, the storing half of R103 in HeaderRead. A replay offers five bytes
to a framer in SyncWait, so it never stores a 6th header byte and checks no CRC (R114; log 18). -/
def Framer.gather (b : Byte) (F : Framer) : Run Framer :=
  match F.state with
  | .syncWait => .ok (F.syncByte b)
  | .headerRead => F.storeHeader b
  | .dataRead => .ok F
  | .complete => .ok F

/-- The replay of R105: the bytes in order. -/
def Framer.replay : List Byte → Framer → Run Framer
  | [], F => .ok F
  | b :: bs, F => do
      let F' ← F.gather b
      Framer.replay bs F'

/-- The 6th header byte has been stored: header CRC first, then the size (R103 to R106, R241). -/
def Framer.headerDone (F : Framer) : Run (Framer × List Diag) := do
  let H ← F.header
  if H.crcOk then
    if H.oversize then .ok (F.toSync, [.oversize H.paySize])
    else .ok (F.allocate, [])
  else do
    let F' ← Framer.replay H.replayed F.toSync
    .ok (F', [.headerCrcMismatch H])

/-- HeaderRead (R103). -/
def Framer.headerByte (b : Byte) (F : Framer) : Run (Framer × List Diag) := do
  let F' ← F.storeHeader b
  if F'.idx = Config.headerBytes then F'.headerDone else .ok (F', [])

/-- The last payload byte has been stored: R108 or R109. -/
def Framer.payloadDone (H : Header) (F : Framer) : Run (Framer × List Diag) := do
  let bytes ← F.payload H.paySize
  if payCrcOk bytes then .ok ({ F with state := .complete }, [])
  else .ok (F.toSync, [.payloadCrcMismatch H bytes])

/-- DataRead (R107): `paySize` is recomputed from `F.hdr`. -/
def Framer.dataByte (b : Byte) (F : Framer) : Run (Framer × List Diag) := do
  let H ← F.header
  let F' ← F.storePayload H.paySize b
  if F'.idx = H.paySize then F'.payloadDone H else .ok (F', [])

/-- `FR.BYTE(b)` (R101); in Complete the byte is refused and nothing changes (R110, D7). -/
def Framer.byte (b : Byte) (F : Framer) : Run (Framer × List Diag) :=
  match F.state with
  | .syncWait => .ok (F.syncByte b, [])
  | .headerRead => F.headerByte b
  | .dataRead => F.dataByte b
  | .complete => .ok (F, [])

/-- The loop of `FR.ACCEPT` (R111), answering the bytes consumed, the framer and the diagnostics raised. -/
def Framer.acceptLoop : List Byte → Framer → Run (Nat × Framer × List Diag)
  | [], F => .ok (0, F, [])
  | b :: bs, F => do
      let (F', ds) ← F.byte b
      if F'.isComplete then .ok (1, F', ds)
      else do
        let (n, F'', ds') ← Framer.acceptLoop bs F'
        .ok (n + 1, F'', ds ++ ds')

/-- `FR.ACCEPT(buffer) -> bytesConsumed` (R111): 0 on a framer already complete. -/
def Framer.accept (buffer : List Byte) (F : Framer) : Run (Nat × Framer × List Diag) :=
  if F.isComplete then .ok (0, F, []) else Framer.acceptLoop buffer F

/-- `FR.TAKE -> P` (R115): the packet as a value (R18); refused where the framer is not complete (93 U5). -/
def Framer.take (F : Framer) : Run Packet :=
  if F.isComplete then do
    let H ← F.header
    let bytes ← F.payload H.paySize
    .ok { hdr := H, pay := bytes }
  else .error (.refuse .framerNotComplete)

/-- `FR.NEW` (R100, R264): the framer alone is reset. -/
def execFrNew (s : State) : Host.Outcome State Fault Refusal :=
  .next ((s.withFramer Framer.fresh).answer .none)

/-- `FR.BYTE(b)` (R101 to R110). -/
def execFrByte (b : Byte) (s : State) : Host.Outcome State Fault Refusal :=
  Run.outcome do
    let (F, ds) ← s.fr.byte b
    .ok (((s.withFramer F).raiseAll ds).answer .none)

/-- `FR.ACCEPT(buffer) -> n` (R111). -/
def execFrAccept (buffer : List Byte) (s : State) : Host.Outcome State Fault Refusal :=
  Run.outcome do
    let (n, F, ds) ← s.fr.accept buffer
    .ok (((s.withFramer F).raiseAll ds).answer (.count n))

/-- `FR.TAKE -> P` (R115): reads the framer and changes nothing. -/
def execFrTake (s : State) : Host.Outcome State Fault Refusal :=
  Run.outcome do
    let P ← s.fr.take
    .ok (s.answer (.packet P))

end Sys2Proof.Machine
end

