-- ==== Sys2Proof/Machine/Channel.lean ====
section
/-! DEFINITION. The channel sequencer (45_comm_channel.md R220 to R223), the entry point of the core. -/

namespace Sys2Proof.Machine

open Sys2Proof

/-- The hand-over inside the loop of R222: where the framer is complete, `FR.TAKE`, `FR.NEW`, `DP.HANDLE`. -/
def deliver (π : Config.Params) (s : State) : Run State :=
  if s.fr.isComplete then do
    let P ← s.fr.take
    handle π P (s.withFramer Framer.fresh)
  else .ok s

/-- The framing loop (R222). The first argument bounds the rounds: a round on a framer that is not complete consumes
a byte, and only the first round can meet a complete one, so one more than the bytes is enough. -/
def rxLoop (π : Config.Params) : Nat → List Byte → State → Run State
  | _, [], s => .ok s
  | 0, _ :: _, _ => .error (.fault .noProgress)
  | fuel + 1, b :: bs, s => do
      let (n, F, ds) ← s.fr.accept (b :: bs)
      let s' ← deliver π ((s.withFramer F).raiseAll ds)
      rxLoop π fuel ((b :: bs).drop n) s'

/-- An error-free chunk (R222). -/
def rxChunk (π : Config.Params) (bytes : List Byte) (s : State) : Run State :=
  rxLoop π (bytes.length + 1) bytes s

/-- `CH.RX(bytes, err)` (R220): with an error the bytes are dropped unseen (R221). -/
def rx (π : Config.Params) (bytes : List Byte) (err : Option Nat) (s : State) : Run State :=
  match err with
  | some e => .ok (s.raise (.transportError e))
  | none => rxChunk π bytes s

/-- `CH.RX(bytes, err)` (R220 to R222). -/
def execChRx (bytes : List Byte) (err : Option Nat) (s : State) : Host.Outcome State Fault Refusal :=
  Run.outcome do
    let s' ← rx Config.params bytes err s
    .ok (s'.answer .none)

end Sys2Proof.Machine
end

