-- ==== Sys2Proof/Machine/WireFormats.lean ====
section
/-! DEFINITION. The rows of the wire formats and code tables as instructions (30_encoding.md R61, R62, R64 to R69, R73;
log 15). A header or payload is a stretch of the byte stream: it arrives, as `CH.RX` delivers it, and the answer is
whether it is valid. A code, a status or data byte, a profile id and the optional data are items inside a packet: the
core's own functions read them, and the answer is what the rule says the item means. -/

namespace Sys2Proof.Machine

open Sys2Proof

/-- Bytes of the stream arriving in one error-free chunk (R222), with an answer. -/
def arrive (bytes : List Byte) (r : Result) (s : State) : Host.Outcome State Fault Refusal :=
  Run.outcome do
    let s' ← rxChunk Config.params bytes s
    .ok (s'.answer r)

/-- `ESP3.HEADER` (R60, R61): the six bytes arrive; the answer is whether the header is valid. -/
def execEsp3Header (h l o t c : Byte) (s : State) : Host.Outcome State Fault Refusal :=
  let H : Header := { sync := Config.sync, lenHi := h, lenLo := l, optLen := o, ptype := t, crc := c }
  arrive H.bytes (.bit H.valid) s

/-- `ESP3.PAYLOAD` (R60, R62): data, optional data and CRC byte arrive; the answer is whether the CRC matches. -/
def execEsp3Payload (data opt : List Byte) (c : Byte) (s : State) : Host.Outcome State Fault Refusal :=
  arrive (data ++ opt ++ [c]) (.bit (payCrcOk (data ++ opt ++ [c]))) s

/-- A packet type code at the dispatcher's first test (R64, R65, R190): the answer is `is_radio`; a type that is not
radio is ignored, with a diagnostic where R64 does not list it. -/
def readPtype (t : Byte) (s : State) : Host.Outcome State Fault Refusal :=
  .next ((if isRadioType t then s else ignoreType t s).answer (.bit (isRadioType t)))

/-- `PTYPE.radio` (R64). -/
def execPtypeRadio (s : State) : Host.Outcome State Fault Refusal := readPtype 0x01 s

/-- `PTYPE.response` (R64). -/
def execPtypeResponse (s : State) : Host.Outcome State Fault Refusal := readPtype 0x02 s

/-- `PTYPE.radio_subtelegram` (R64, D12: not treated as radio). -/
def execPtypeRadioSubtelegram (s : State) : Host.Outcome State Fault Refusal := readPtype 0x03 s

/-- `PTYPE.event` (R64). -/
def execPtypeEvent (s : State) : Host.Outcome State Fault Refusal := readPtype 0x04 s

/-- `PTYPE.common_cmd` (R64). -/
def execPtypeCommonCmd (s : State) : Host.Outcome State Fault Refusal := readPtype 0x05 s

/-- `PTYPE.smart_ack_cmd` (R64). -/
def execPtypeSmartAckCmd (s : State) : Host.Outcome State Fault Refusal := readPtype 0x06 s

/-- `PTYPE.remote_mgmt_cmd` (R64). -/
def execPtypeRemoteMgmtCmd (s : State) : Host.Outcome State Fault Refusal := readPtype 0x07 s

/-- `PTYPE.manufacturer_specific` (R64): 0x80..0xFF. -/
def execPtypeManufacturerSpecific (low : BitVec 7) (s : State) : Host.Outcome State Fault Refusal :=
  readPtype (1#1 ++ low) s

/-- `PTYPE.reserved` (R65). -/
def execPtypeReserved (t : Byte) (s : State) : Host.Outcome State Fault Refusal := readPtype t s

/-- A RORG code as the view and the teach-in test read it (R66): the trailer's shift and the implicit teach-in. -/
def readRorg (r : Byte) (s : State) : Host.Outcome State Fault Refusal :=
  .next (s.answer (.rorg (vldShift r) (r == rorgCodeRps)))

/-- `RORG.RPS` (R66). -/
def execRorgRps (s : State) : Host.Outcome State Fault Refusal := readRorg 0xF6 s

/-- `RORG.1BS` (R66). -/
def execRorg1bs (s : State) : Host.Outcome State Fault Refusal := readRorg 0xD5 s

/-- `RORG.4BS` (R66). -/
def execRorg4bs (s : State) : Host.Outcome State Fault Refusal := readRorg 0xA5 s

/-- `RORG.VLD` (R66). -/
def execRorgVld (s : State) : Host.Outcome State Fault Refusal := readRorg 0xD2 s

/-- `RORG.MSC` (R66). -/
def execRorgMsc (s : State) : Host.Outcome State Fault Refusal := readRorg 0xD1 s

/-- `RORG.ADT` (R66). -/
def execRorgAdt (s : State) : Host.Outcome State Fault Refusal := readRorg 0xA6 s

/-- `RORG.SM_LRN_REQ` (R66). -/
def execRorgSmLrnReq (s : State) : Host.Outcome State Fault Refusal := readRorg 0xC6 s

/-- `RORG.SM_LRN_ANS` (R66). -/
def execRorgSmLrnAns (s : State) : Host.Outcome State Fault Refusal := readRorg 0xC7 s

/-- `RORG.SM_REC` (R66). -/
def execRorgSmRec (s : State) : Host.Outcome State Fault Refusal := readRorg 0xA7 s

/-- `RORG.SYS_EX` (R66). -/
def execRorgSysEx (s : State) : Host.Outcome State Fault Refusal := readRorg 0xC5 s

/-- `RORG.SEC` (R66). -/
def execRorgSec (s : State) : Host.Outcome State Fault Refusal := readRorg 0x30 s

/-- `RORG.SEC_ENCAPS` (R66). -/
def execRorgSecEncaps (s : State) : Host.Outcome State Fault Refusal := readRorg 0x31 s

/-- `STATUS.T21` (R67, R164): the number of rockers the status byte tells. -/
def execStatusT21 (b : Byte) (s : State) : Host.Outcome State Fault Refusal :=
  .next (s.answer (.count (numRockers b)))

/-- `STATUS.NU` (R67): whether the telegram is an N-message. -/
def execStatusNu (b : Byte) (s : State) : Host.Outcome State Fault Refusal :=
  .next (s.answer (.bit (nuSet b)))

/-- `RPS.DATA.rockerN` (R68): the actions the data byte packs. -/
def execRpsRockerN (a : BitVec 3) (p : BitVec 1) (b : BitVec 3) (sec : BitVec 1) (s : State) :
    Host.Outcome State Fault Refusal :=
  .next (s.answer (.actions (actionsOf (a ++ p ++ b ++ sec))))

/-- `RPS.DATA.rockerU` (R68): the count of remaining pressed buttons and the energy bow. -/
def execRpsRockerU (b : BitVec 3) (p : BitVec 1) (low : BitVec 4) (s : State) : Host.Outcome State Fault Refusal :=
  .next (s.answer (.buttons (buttonCount (b ++ p ++ low)) (bowPressed (b ++ p ++ low))))

/-- The position a window handle's data byte tells (R68, R165). -/
def windowPosition (data : Byte) : WindowPosition :=
  if windowTiltedBit data then .tilted else if windowClosedBit data then .closed else .fullyOpen

/-- `RPS.DATA.window` (R68). -/
def execRpsWindow (p low : BitVec 4) (s : State) : Host.Outcome State Fault Refusal :=
  .next (s.answer (.position (windowPosition (p ++ low))))

/-- `RPS.DATA.cardkeyErp2` (R68): inserted. -/
def execRpsCardkeyErp2 (hi : BitVec 5) (i : BitVec 1) (low : BitVec 2) (s : State) :
    Host.Outcome State Fault Refusal :=
  .next (s.answer (.bit (erp2Inserted (hi ++ i ++ low))))

/-- `RPS.DATA.cardkeyErp1` (R68): the byte is the inserted code; the status bit NU is the other half of the
condition (R167). -/
def execRpsCardkeyErp1 (s : State) : Host.Outcome State Fault Refusal :=
  .next (s.answer (.bit (erp1Code 0x70)))

/-- `RPS.DATA.smoke` (R68): alarm active, battery low. -/
def execRpsSmoke (hi st : BitVec 2) (low : BitVec 4) (s : State) : Host.Outcome State Fault Refusal :=
  .next (s.answer (.smoke (smokeAlarmBit (hi ++ st ++ low)) (smokeBatteryBit (hi ++ st ++ low))))

/-- A profile id looked up in the match table (R69, R160): the family and its handler tags. -/
def readProfile (p : ProfileId) (s : State) : Host.Outcome State Fault Refusal :=
  .next (s.answer (.eepRow (profileMatch p) (((profileMatch p).map Family.tags).getD [])))

/-- `EEP.rocker_func02` (R69). -/
def execEepRockerFunc02 (ty : Byte) (s : State) : Host.Outcome State Fault Refusal :=
  readProfile (profileOf 0xF6 0x02 ty) s

/-- `EEP.rocker_func03` (R69). -/
def execEepRockerFunc03 (ty : Byte) (s : State) : Host.Outcome State Fault Refusal :=
  readProfile (profileOf 0xF6 0x03 ty) s

/-- `EEP.window_handle` (R69). -/
def execEepWindowHandle (s : State) : Host.Outcome State Fault Refusal := readProfile 0xF61000 s

/-- `EEP.cardkey_erp2` (R69). -/
def execEepCardkeyErp2 (s : State) : Host.Outcome State Fault Refusal := readProfile 0xF60402 s

/-- `EEP.cardkey_erp1` (R69): any TYPE but 0x02. -/
def execEepCardkeyErp1 (ty : Byte) (s : State) : Host.Outcome State Fault Refusal :=
  readProfile (profileOf 0xF6 0x04 ty) s

/-- `EEP.smoke` (R69). -/
def execEepSmoke (s : State) : Host.Outcome State Fault Refusal := readProfile 0xF605C0 s

/-- `OPTDATA.radio` (R73): the four optional-data values as R139 to R142 read them. -/
def execOptdataRadio (sub : Byte) (d : Addr) (g v : Byte) (s : State) : Host.Outcome State Fault Refusal :=
  .next (s.answer (.optData sub d (dbmOf g) v))

end Sys2Proof.Machine
end

