-- ==== Sys2Proof/Machine/Dispatch.lean ====
section
/-! DEFINITION. The dispatch: one arm per constructor of `Instr`, in the order of spec/opcode_table.json. -/

namespace Sys2Proof.Machine

open Sys2Proof

def exec (i : Instr) (s : State) : Host.Outcome State Fault Refusal :=
  match i with
  | .coreReset => Sys2Proof.Machine.execCoreReset s
  | .crc8Update byte crc => Sys2Proof.Machine.execCrc8Update byte crc s
  | .crc8Compute bytes seed => Sys2Proof.Machine.execCrc8Compute bytes seed s
  | .frNew => Sys2Proof.Machine.execFrNew s
  | .frByte b => Sys2Proof.Machine.execFrByte b s
  | .frAccept buffer => Sys2Proof.Machine.execFrAccept buffer s
  | .frTake => Sys2Proof.Machine.execFrTake s
  | .tvPtype P => Sys2Proof.Machine.execTvPtype P s
  | .tvDlen P => Sys2Proof.Machine.execTvDlen P s
  | .tvOlen P => Sys2Proof.Machine.execTvOlen P s
  | .tvRorg P => Sys2Proof.Machine.execTvRorg P s
  | .tvStoff P => Sys2Proof.Machine.execTvStoff P s
  | .tvStatus P => Sys2Proof.Machine.execTvStatus P s
  | .tvUdlen P => Sys2Proof.Machine.execTvUdlen P s
  | .tvUdata P => Sys2Proof.Machine.execTvUdata P s
  | .tvSender P => Sys2Proof.Machine.execTvSender P s
  | .tvSubtel P => Sys2Proof.Machine.execTvSubtel P s
  | .tvDest P => Sys2Proof.Machine.execTvDest P s
  | .tvDbm P => Sys2Proof.Machine.execTvDbm P s
  | .tvSeclvl P => Sys2Proof.Machine.execTvSeclvl P s
  | .tvOk P => Sys2Proof.Machine.execTvOk P s
  | .dpHandle P => Sys2Proof.Machine.execDpHandle P s
  | .dpSetlearn enabled => Sys2Proof.Machine.execDpSetlearn enabled s
  | .dpRegister h => Sys2Proof.Machine.execDpRegister h s
  | .dpUnregister a => Sys2Proof.Machine.execDpUnregister a s
  | .dpLookup a => Sys2Proof.Machine.execDpLookup a s
  | .dpTeachq P => Sys2Proof.Machine.execDpTeachq P s
  | .pdMatch p => Sys2Proof.Machine.execPdMatch p s
  | .pdRocker P ch => Sys2Proof.Machine.execPdRocker P ch s
  | .pdWinopen P => Sys2Proof.Machine.execPdWinopen P s
  | .pdWintilt P => Sys2Proof.Machine.execPdWintilt P s
  | .pdCardkey2 P => Sys2Proof.Machine.execPdCardkey2 P s
  | .pdCardkey1 P => Sys2Proof.Machine.execPdCardkey1 P s
  | .pdSmokealm P => Sys2Proof.Machine.execPdSmokealm P s
  | .pdSmokebat P => Sys2Proof.Machine.execPdSmokebat P s
  | .pdInvoke h P => Sys2Proof.Machine.execPdInvoke h P s
  | .chRx bytes err => Sys2Proof.Machine.execChRx bytes err s
  | .esp3Header h l o t c => Sys2Proof.Machine.execEsp3Header h l o t c s
  | .esp3Payload data opt c => Sys2Proof.Machine.execEsp3Payload data opt c s
  | .ptypeRadio => Sys2Proof.Machine.execPtypeRadio s
  | .ptypeResponse => Sys2Proof.Machine.execPtypeResponse s
  | .ptypeRadioSubtelegram => Sys2Proof.Machine.execPtypeRadioSubtelegram s
  | .ptypeEvent => Sys2Proof.Machine.execPtypeEvent s
  | .ptypeCommonCmd => Sys2Proof.Machine.execPtypeCommonCmd s
  | .ptypeSmartAckCmd => Sys2Proof.Machine.execPtypeSmartAckCmd s
  | .ptypeRemoteMgmtCmd => Sys2Proof.Machine.execPtypeRemoteMgmtCmd s
  | .ptypeManufacturerSpecific low => Sys2Proof.Machine.execPtypeManufacturerSpecific low s
  | .ptypeReserved t => Sys2Proof.Machine.execPtypeReserved t s
  | .rorgRps => Sys2Proof.Machine.execRorgRps s
  | .rorg1bs => Sys2Proof.Machine.execRorg1bs s
  | .rorg4bs => Sys2Proof.Machine.execRorg4bs s
  | .rorgVld => Sys2Proof.Machine.execRorgVld s
  | .rorgMsc => Sys2Proof.Machine.execRorgMsc s
  | .rorgAdt => Sys2Proof.Machine.execRorgAdt s
  | .rorgSmLrnReq => Sys2Proof.Machine.execRorgSmLrnReq s
  | .rorgSmLrnAns => Sys2Proof.Machine.execRorgSmLrnAns s
  | .rorgSmRec => Sys2Proof.Machine.execRorgSmRec s
  | .rorgSysEx => Sys2Proof.Machine.execRorgSysEx s
  | .rorgSec => Sys2Proof.Machine.execRorgSec s
  | .rorgSecEncaps => Sys2Proof.Machine.execRorgSecEncaps s
  | .statusT21 b => Sys2Proof.Machine.execStatusT21 b s
  | .statusNu b => Sys2Proof.Machine.execStatusNu b s
  | .rpsRockerN a p b sv => Sys2Proof.Machine.execRpsRockerN a p b sv s
  | .rpsRockerU b p low => Sys2Proof.Machine.execRpsRockerU b p low s
  | .rpsWindow p low => Sys2Proof.Machine.execRpsWindow p low s
  | .rpsCardkeyErp2 hi b low => Sys2Proof.Machine.execRpsCardkeyErp2 hi b low s
  | .rpsCardkeyErp1 => Sys2Proof.Machine.execRpsCardkeyErp1 s
  | .rpsSmoke hi sv low => Sys2Proof.Machine.execRpsSmoke hi sv low s
  | .eepRockerFunc02 ty => Sys2Proof.Machine.execEepRockerFunc02 ty s
  | .eepRockerFunc03 ty => Sys2Proof.Machine.execEepRockerFunc03 ty s
  | .eepWindowHandle => Sys2Proof.Machine.execEepWindowHandle s
  | .eepCardkeyErp2 => Sys2Proof.Machine.execEepCardkeyErp2 s
  | .eepCardkeyErp1 ty => Sys2Proof.Machine.execEepCardkeyErp1 ty s
  | .eepSmoke => Sys2Proof.Machine.execEepSmoke s
  | .optdataRadio sv d g v => Sys2Proof.Machine.execOptdataRadio sv d g v s

end Sys2Proof.Machine
end

