-- ==== Sys2Proof/Machine/Step.lean ====
section
/-! DEFINITION. One step: the oldest request of the host is taken and run (R6, R240; log 1). -/

namespace Sys2Proof.Machine

open Sys2Proof

/-- One step. With nothing issued the core waits ("The core does nothing unless the host issues an operation", R240).
A line is decoded and run; an operation with structured operands is run where they are well formed; a write of
`D.dbm_min` is made (R24). The request is gone from the queue in the state the operation starts from. -/
def step (s : State) : Host.Outcome State Fault Refusal :=
  match s.issue with
  | [] => .next s
  | .setDbmMin v :: rest => .next { s with issue := rest, dbmMin := v }
  | .call i :: rest => if i.wf then exec i { s with issue := rest } else .refused .illFormed
  | .line l :: rest =>
    match decodeLine l with
    | .ok i => exec i { s with issue := rest }
    | .error e => .refused (.undecodable e)

/-- The state with a word of the opcode table issued as the very next request (log 1, log 16). -/
def State.withFetchWord (s : State) (nbits w : Nat) : State :=
  { s with issue := .line (tableLine nbits w) :: s.issue }

end Sys2Proof.Machine
end

