-- ==== Sys2Proof/Safety.lean ====
section
/-! DEFINITION. What a good state and a safe step are, in the terms the claims use: the invariant of the framer (R10,
R14 to R16, R18), of the registry (R22, R23, R194), and of the whole core. -/

namespace Sys2Proof

/-- A telegram the RPS decoders read (R161): completed, `view_ok`, RORG 0xF6, at least one user-data byte, with its status
byte and its data byte. -/
def Packet.rps (P : Packet) (status data : Byte) : Prop :=
  P.completed = true ∧ P.viewOk = true ∧ P.pay[0]? = some 0xF6 ∧ 7 ≤ P.dl ∧
  P.pay[P.dl - 1]? = some status ∧ P.pay[1]? = some data

/-- The decoder a handler's rule tag names (R201). -/
def Handler.decoder (h : Handler) (P : Packet) : Instr :=
  match h.rule with
  | .rocker => .pdRocker P h.channel
  | .windowOpen => .pdWinopen P
  | .windowTilted => .pdWintilt P
  | .cardKeyErp2 => .pdCardkey2 P
  | .cardKeyErp1 => .pdCardkey1 P
  | .smokeAlarm => .pdSmokealm P
  | .smokeBattery => .pdSmokebat P

end Sys2Proof

namespace Sys2Proof.Machine

open Sys2Proof

/-- Header byte `i` as stored, if it holds a value. -/
def Framer.hdrAt (F : Framer) (i : Nat) : Option Byte := Memory.read F.hdr i

/-- Payload byte `i` as stored, if it holds a value. -/
def Framer.payAt (F : Framer) (i : Nat) : Option Byte := Memory.read F.pay i

/-- The header bytes all hold values and make up `H`. -/
def Framer.holds (F : Framer) (H : Header) : Prop :=
  F.hdrAt 0 = some H.sync ∧ F.hdrAt 1 = some H.lenHi ∧ F.hdrAt 2 = some H.lenLo ∧
  F.hdrAt 3 = some H.optLen ∧ F.hdrAt 4 = some H.ptype ∧ F.hdrAt 5 = some H.crc

/-- An accepted header: 0x55 first, CRC matching, size at most 300 (R103, R104). -/
def Framer.accepted (F : Framer) (H : Header) : Prop :=
  F.holds H ∧ H.sync = Config.sync ∧ H.crcOk = true ∧ H.paySize ≤ Config.maxPayload

/-- The invariant of a framer, by parse state (R14, R15, R16, R18). -/
def Framer.Inv (F : Framer) : Prop :=
  Memory.wf Config.headerBytes F.hdr ∧ Memory.wf Config.maxPayload F.pay ∧
  match F.state with
  | .syncWait => F.idx = 0
  | .headerRead =>
      1 ≤ F.idx ∧ F.idx ≤ 5 ∧ F.hdrAt 0 = some Config.sync ∧ ∀ i, i < F.idx → (F.hdrAt i).isSome
  | .dataRead =>
      ∃ H, F.accepted H ∧ F.idx < H.paySize ∧ ∀ i, (F.payAt i).isSome ↔ i < F.idx
  | .complete =>
      ∃ H, F.accepted H ∧ F.idx = H.paySize ∧
        ∃ bytes : List Byte, bytes.length = H.paySize ∧ payCrcOk bytes = true ∧ ∀ i, F.payAt i = bytes[i]?

/-- The invariant of the registry: addresses strictly rising, no empty list, every record under its own address with a
rule of its profile's family, sub-device indexes distinct (R22, R23, R198, 93 U15). -/
def Registry.Inv (r : Registry) : Prop :=
  List.Pairwise (fun x y : Addr × List Handler => x.1 < y.1) r ∧
  ∀ x ∈ r, x.2 ≠ [] ∧ (∀ h ∈ x.2, h.address = x.1 ∧ recordOk h = true) ∧
    (x.2.map Handler.subdeviceIndex).Nodup

/-- The invariant of the core. -/
def State.Inv (s : State) : Prop := s.fr.Inv ∧ Registry.Inv s.reg

/-- A step is safe where it does not fault. -/
def Safe (s : State) : Prop := ∀ f, step s ≠ .fault f

/-- A framer that has gathered header bytes 0..4, those of `H`, and awaits the sixth (R103). -/
def Framer.awaitsCrc (F : Framer) (H : Header) : Prop :=
  F.state = .headerRead ∧ F.idx = 5 ∧ F.hdrAt 0 = some H.sync ∧ F.hdrAt 1 = some H.lenHi ∧
  F.hdrAt 2 = some H.lenLo ∧ F.hdrAt 3 = some H.optLen ∧ F.hdrAt 4 = some H.ptype

/-- The decoders of R162 to R168 on one packet. -/
def decodersOn (P : Packet) : List Instr :=
  [.pdRocker P 0, .pdRocker P 1, .pdRocker P 2, .pdRocker P 3, .pdWinopen P, .pdWintilt P, .pdCardkey2 P,
   .pdCardkey1 P, .pdSmokealm P, .pdSmokebat P]

/-- The accessors of the telegram view on one packet (R130 to R143). -/
def accessorsOn (P : Packet) : List Instr :=
  [.tvPtype P, .tvDlen P, .tvOlen P, .tvRorg P, .tvStoff P, .tvStatus P, .tvUdlen P, .tvUdata P, .tvSender P,
   .tvSubtel P, .tvDest P, .tvDbm P, .tvSeclvl P, .tvOk P]

/-- An emission on `diag`. -/
def Output.isDiag : Output → Bool
  | .sinkEvt _ _ => false
  | .learnEvt _ _ => false
  | .unpair _ => false
  | .diag _ => true

/-- An emission on `sink_evt`. -/
def Output.isSink : Output → Bool
  | .sinkEvt _ _ => true
  | .learnEvt _ _ => false
  | .unpair _ => false
  | .diag _ => false

/-- Error-free chunks delivered by `CH.RX` one after the other, up to the first that does not go on. -/
def rxAll : List (List Byte) → State → Host.Outcome State Fault Refusal
  | [], s => .next s
  | c :: cs, s =>
    match exec (.chRx c none) s with
    | .next t => rxAll cs t
    | .fault f => .fault f
    | .refused r => .refused r

/-- How many bits of a byte sequence are set. -/
def setBits (bytes : List Byte) : Nat := (bytes.map fun b => (List.range 8).countP b.getLsbD).sum

/-- The operations that work on the framer (R47, R264) and the rows of the byte stream (log 15). -/
def touchesFramer (i : Instr) : Prop :=
  i = .coreReset ∨ i = .frNew ∨ (∃ b, i = .frByte b) ∨ (∃ buffer, i = .frAccept buffer) ∨
  (∃ bytes err, i = .chRx bytes err) ∨ (∃ h l o t c, i = .esp3Header h l o t c) ∨
  (∃ data opt c, i = .esp3Payload data opt c)

/-- The operations with effects on the core's state or its ports (R47), and the rows through which bytes or a packet type
arrive (log 15). -/
def hasEffect (i : Instr) : Prop :=
  touchesFramer i ∨ (∃ P, i = .dpHandle P) ∨ (∃ e, i = .dpSetlearn e) ∨ (∃ h, i = .dpRegister h) ∨
  (∃ a, i = .dpUnregister a) ∨ (∃ h P, i = .pdInvoke h P) ∨ ∃ t, i = .ptypeReserved t

/-- The operations a host may issue (R7); the others are internal. -/
def hostOperation (i : Instr) : Prop :=
  i = .coreReset ∨ (∃ e, i = .dpSetlearn e) ∨ (∃ h, i = .dpRegister h) ∨ (∃ a, i = .dpUnregister a) ∨
  ∃ bytes err, i = .chRx bytes err

end Sys2Proof.Machine
end

