-- ==== Sys2Proof/Certificates/Slice0/Obligations.lean ====
section
/-! DEFINITION. The statements about the core, for the provers. Each docstring names the rule of spec/ it formalises, or the
section it rests on together with the inference the spec marks as its own or the log entry of the model's choice. -/

open Sys2Proof Sys2Proof.Machine

/-! Encoding and stepping. -/

/-- Decoding the line of a well-formed instruction gives it back, with every operand at every value its field admits. The
operand layouts are log 2's. -/
def Obligations.DecodeOfEncodeGivesInstruction : Prop :=
  ∀ i : Instr, i.wf = true → i.fits = true → decodeLine (encode i) = .ok i

/-- A line that decodes is the line of a well-formed instruction whose operands fit: one line, one instruction (log 2). -/
def Obligations.DecodedLineIsItsEncoding : Prop :=
  ∀ (l : Line) (i : Instr), decodeLine l = .ok i → i.wf = true ∧ i.fits = true ∧ encode i = l

/-- A few lines written out by hand from 30_encoding.md and 95_test_vectors.md section 3. -/
def Obligations.HandWrittenLinesDecode : Prop :=
  decodeLine ⟨.operation, [0x00]⟩ = .ok .coreReset ∧
  decodeLine ⟨.operation, [0x21, 0x55]⟩ = .ok (.frByte 0x55) ∧
  decodeLine ⟨.operation, [0x41, 0x01]⟩ = .ok (.dpSetlearn true) ∧
  decodeLine ⟨.operation, [0x42, 0x00, 0x86, 0xB8, 0x1A, 0x01, 0xF6, 0x02, 0x01, 0x00, 0x00, 0x00, 0x01, 0x01]⟩ =
    .ok (.dpRegister { address := 0x0086B81A, subdeviceIndex := 1, profileId := 0xF60201, manufacturerId := 0,
                       rule := .rocker, channel := 1, sink := 1 }) ∧
  decodeLine ⟨.operation, [0x60, 0x00, 0x04, 0x00, 0x55, 0x00, 0x07, 0x07]⟩ =
    .ok (.chRx [0x55, 0x00, 0x07, 0x07] none) ∧
  decodeLine ⟨.header, [0x55, 0x00, 0x07, 0x07, 0x01, 0x7A]⟩ = .ok (.esp3Header 0x00 0x07 0x07 0x01 0x7A) ∧
  decodeLine ⟨.packetType, [0x03]⟩ = .ok .ptypeRadioSubtelegram ∧
  decodeLine ⟨.rorg, [0xD2]⟩ = .ok .rorgVld ∧
  decodeLine ⟨.statusNu, [0x30]⟩ = .ok (.statusNu 0x30) ∧
  decodeLine ⟨.rockerN, [0x37]⟩ = .ok (.rpsRockerN 1 1 3 1) ∧
  decodeLine ⟨.profileId, [0xF6, 0x04, 0x01]⟩ = .ok (.eepCardkeyErp1 0x01) ∧
  decodeLine ⟨.optData, [0x03, 0xFF, 0xFF, 0xFF, 0xFF, 0x2D, 0x00]⟩ = .ok (.optdataRadio 3 0xFFFFFFFF 0x2D 0)

/-- A step runs the decoded instruction: the oldest request, a line that decodes or a well-formed call, is gone from the
queue and executed; a write of `D.dbm_min` is made; what is no instruction is refused, an `opsel` outside the operation
list among it; with nothing issued the core does nothing (log 1, log 7; 60_exceptions.md section 2). -/
def Obligations.StepRunsDecodedInstruction : Prop :=
  (∀ (s : State) (l : Line) (i : Instr) (rest : List Request),
    s.issue = .line l :: rest → decodeLine l = .ok i → i.wf = true ∧ step s = exec i { s with issue := rest }) ∧
  (∀ (s : State) (i : Instr) (rest : List Request),
    s.issue = .call i :: rest → i.wf = true → step s = exec i { s with issue := rest }) ∧
  (∀ (s : State) (v : Dbm) (rest : List Request), s.issue = .setDbmMin v :: rest →
    step s = .next { s with issue := rest, dbmMin := v }) ∧
  (∀ (s : State) (i : Instr) (rest : List Request), s.issue = .call i :: rest → i.wf = false →
    step s = .refused .illFormed) ∧
  (∀ (s : State) (l : Line) (e : DecodeError) (rest : List Request), s.issue = .line l :: rest →
    decodeLine l = .error e → step s = .refused (.undecodable e)) ∧
  (∀ (op : Byte) (operands : List Byte),
    op.toNat ∉ [0x00, 0x10, 0x11, 0x20, 0x21, 0x22, 0x23, 0x30, 0x31, 0x32, 0x33, 0x34, 0x35, 0x36, 0x37, 0x38, 0x39,
      0x3A, 0x3B, 0x3C, 0x3D, 0x40, 0x41, 0x42, 0x43, 0x44, 0x45, 0x50, 0x51, 0x52, 0x53, 0x54, 0x55, 0x56, 0x57,
      0x58, 0x60] → decodeLine ⟨.operation, op :: operands⟩ = .error (.noSuchOperation op)) ∧
  (∀ s : State, s.issue = [] → step s = .next s)

/-! Invariants. -/

/-- The invariant holds right after reset. -/
def Obligations.ResetMeetsInvariant : Prop := State.reset.Inv

/-- Every step from a state that meets the invariant gives a state that meets it: the storage keeps its canonical form,
`F.idx` its range, header and payload their values, the registry its order, its families and its non-empty lists. -/
def Obligations.StepKeepsInvariant : Prop := ∀ s t : State, s.Inv → step s = .next t → t.Inv

/-- No step from a state that meets the invariant faults: no byte without value is read, no index outside HDR or PAY is used,
the framing loop ends (93_implementation_defined.md U1, 45_comm_channel.md). -/
def Obligations.StepNeverFaults : Prop := ∀ s : State, s.Inv → Safe s

/-- Every operation a host may issue completes from every state that meets the invariant, whatever bytes arrive, and never
leaves a complete framer behind where there was none ([derived] in 45_comm_channel.md; "No condition in this core is
fatal"). The registered record must be of its profile's family (log 14). That `DP.REGISTER`, and a learn-in within `CH.RX`,
completes in every state rests on the unbounded registry, the default of decision D20 (log 9); that `CH.RX` completes from a
framer that is complete already is log 21. -/
def Obligations.HostOperationsComplete : Prop :=
  ∀ (i : Instr) (s : State), hostOperation i → (∀ h, i = .dpRegister h → recordOk h = true) → s.Inv →
    ∃ t, exec i s = .next t ∧ t.Inv ∧ (s.fr.state ≠ .complete → t.fr.state ≠ .complete)

/-! The CRC8 unit. -/

/-- `CRC8.UPDATE` answers the entry of the printed table at `crc ^ byte`; `CRC8.COMPUTE` is its left fold, the first byte
first: the empty sequence answers the seed, a sequence cut in two chains, a message followed by its own checksum answers
0. Neither changes anything else. 40_crc8.md marks the algorithm [from general knowledge], table and fold [derived]. -/
def Obligations.CrcComputeFoldsOverBytes : Prop :=
  (∀ (b c : Byte) (s : State), ∃ r, crc8Table[(c ^^^ b).toNat]? = some r ∧
    exec (.crc8Update b c) s = .next { s with result := .byte r }) ∧
  (∀ (seed : Byte) (s : State), exec (.crc8Compute [] seed) s = .next { s with result := .byte seed }) ∧
  (∀ (b : Byte) (A : List Byte) (seed : Byte) (s : State), ∃ c,
    exec (.crc8Update b seed) s = .next { s with result := .byte c } ∧
    exec (.crc8Compute (b :: A) seed) s = exec (.crc8Compute A c) s) ∧
  (∀ (A B : List Byte) (seed : Byte) (s : State), ∃ c,
    exec (.crc8Compute A seed) s = .next { s with result := .byte c } ∧
    exec (.crc8Compute (A ++ B) seed) s = exec (.crc8Compute B c) s ∧
    exec (.crc8Compute (A ++ [c]) seed) s = .next { s with result := .byte 0 })

/-- The algebraic laws of the checksum ([derived] in 40_crc8.md): it is linear over GF(2); a change of one message byte always
changes it; and a message followed by its checksum has an even number of set bits, so that every odd number of bit errors
is detected. -/
def Obligations.CrcDetectsErrors : Prop :=
  (∀ (A B : List Byte) (x y : Byte), A.length = B.length →
    crc8Compute (List.zipWith (· ^^^ ·) A B) (x ^^^ y) = crc8Compute A x ^^^ crc8Compute B y) ∧
  (∀ (A C : List Byte) (b b' seed : Byte),
    crc8Compute (A ++ b :: C) seed = crc8Compute (A ++ b' :: C) seed → b = b') ∧
  (∀ bytes : List Byte, setBits (bytes ++ [crc8Compute bytes 0x00]) % 2 = 0)

/-! The framer. -/

/-- `FR.NEW` makes the framer a fresh instance and leaves everything else alone; that the old bytes become valueless is
decision D19 of the spec. -/
def Obligations.FrNewMakesFramerFresh : Prop :=
  ∀ s : State, ∃ F : Framer, exec .frNew s = .next { s with fr := F, result := .none } ∧
    F.state = .syncWait ∧ F.idx = 0 ∧ ∀ i, F.hdrAt i = none ∧ F.payAt i = none

/-- R102: in SyncWait a byte other than 0x55 is skipped and the framer is unchanged; 0x55 becomes header byte 0, every other
byte of the storage staying as it was. -/
def Obligations.ScanningTakesOnlySyncByte : Prop :=
  ∀ (b : Byte) (s : State), s.fr.state = .syncWait → ∃ F : Framer,
    exec (.frByte b) s = .next { s with fr := F, result := .none } ∧
    (b ≠ 0x55 → F = s.fr) ∧
    (b = 0x55 → F.state = .headerRead ∧ F.idx = 1 ∧ (∀ i, F.payAt i = s.fr.payAt i) ∧
      ∀ i, F.hdrAt i = if i = 0 then some 0x55 else s.fr.hdrAt i)

/-- A header byte before the sixth, and a payload byte before the last, is stored at `F.idx`, the index advances, and nothing
else happens (41_framer.md section 2). -/
def Obligations.BytesAreStoredInOrder : Prop :=
  (∀ (b : Byte) (s : State), s.fr.state = .headerRead → s.fr.idx < 5 → ∃ F : Framer,
    exec (.frByte b) s = .next { s with fr := F, result := .none } ∧
    F.state = .headerRead ∧ F.idx = s.fr.idx + 1 ∧ (∀ i, F.payAt i = s.fr.payAt i) ∧
    ∀ i, F.hdrAt i = if i = s.fr.idx then some b else s.fr.hdrAt i) ∧
  (∀ (b : Byte) (H : Header) (s : State), s.fr.state = .dataRead → s.fr.holds H → H.paySize ≤ 300 →
    s.fr.idx + 1 < H.paySize → ∃ F : Framer,
    exec (.frByte b) s = .next { s with fr := F, result := .none } ∧
    F.state = .dataRead ∧ F.idx = s.fr.idx + 1 ∧ (∀ i, F.hdrAt i = s.fr.hdrAt i) ∧
    ∀ i, F.payAt i = if i = s.fr.idx then some b else s.fr.payAt i)

/-- The sixth header byte where the CRC matches: up to 300 declared bytes the payload buffer is allocated, every byte of it
valueless (decision D6); above, `Oversize` is raised and scanning resumes without a replay ([derived] in 41_framer.md).
The size is the sum without wrap. -/
def Obligations.MatchingHeaderIsSizedThenAllocated : Prop :=
  ∀ (H : Header) (s : State), s.fr.awaitsCrc H → crc8Compute [H.lenHi, H.lenLo, H.optLen, H.ptype] 0x00 = H.crc →
    ∃ size, size = 256 * H.lenHi.toNat + H.lenLo.toNat + H.optLen.toNat + 1 ∧
    (size ≤ 300 → ∃ F : Framer, exec (.frByte H.crc) s = .next { s with fr := F, result := .none } ∧
      F.state = .dataRead ∧ F.idx = 0 ∧ F.holds H ∧ ∀ i, F.payAt i = none) ∧
    (300 < size → ∃ F : Framer, exec (.frByte H.crc) s =
        .next { s with fr := F, outputs := s.outputs ++ [.diag (.oversize size)], result := .none } ∧
      F.state = .syncWait ∧ F.idx = 0 ∧ F.holds H ∧ ∀ i, F.payAt i = s.fr.payAt i)

/-- The sixth header byte where the CRC differs: `HeaderCrcMismatch` is raised, the framer returns to SyncWait, and header bytes
1..5 are received again, exactly as bytes from the input. In closed form ([derived] in 41_framer.md): with the first 0x55
among the five bytes at position `j + 1`, the framer holds the bytes from there on and awaits the next header byte; with
none it scans. The bytes beyond keep what they held. -/
def Obligations.HeaderMismatchReplaysFiveBytes : Prop :=
  ∀ (H : Header) (s : State), s.fr.awaitsCrc H → crc8Compute [H.lenHi, H.lenLo, H.optLen, H.ptype] 0x00 ≠ H.crc →
    ∃ (t u : State) (F : Framer) (r : List Byte), r = [H.lenHi, H.lenLo, H.optLen, H.ptype, H.crc] ∧
      exec (.frByte H.crc) s = .next t ∧
      F.holds H ∧ F.state = .syncWait ∧ F.idx = 0 ∧ (∀ i, F.payAt i = s.fr.payAt i) ∧
      exec (.frAccept r) { s with fr := F, outputs := s.outputs ++ [.diag (.headerCrcMismatch H)] } = .next u ∧
      u.result = .count 5 ∧ t = { u with result := .none } ∧
      t = { s with fr := t.fr, outputs := s.outputs ++ [.diag (.headerCrcMismatch H)], result := .none } ∧
      (∀ i, t.fr.payAt i = s.fr.payAt i) ∧
      ((∀ x ∈ r, x ≠ 0x55) → t.fr.state = .syncWait ∧ t.fr.idx = 0 ∧ t.fr.holds H) ∧
      (∀ j, j < 5 → r[j]? = some 0x55 → (∀ k, k < j → r[k]? ≠ some 0x55) →
        t.fr.state = .headerRead ∧ t.fr.idx = 5 - j ∧
        ∀ i, t.fr.hdrAt i = if i < 5 - j then r[j + i]? else if i = 5 then some H.crc else s.fr.hdrAt i)

/-- R108 and R109: the last payload byte completes the packet where it is the CRC of the bytes before it, `F.idx` staying at
the payload size, and `FR.ACCEPT` stops there with the count of bytes consumed, what follows being left; else
`PayloadCrcMismatch` is raised and scanning resumes, no byte being reconsidered. -/
def Obligations.LastPayloadByteDecides : Prop :=
  ∀ (b : Byte) (H : Header) (bytes : List Byte) (s : State), s.fr.state = .dataRead → s.fr.holds H →
    H.paySize ≤ 300 → s.fr.idx + 1 = H.paySize → bytes.length = s.fr.idx →
    (∀ i, i < s.fr.idx → s.fr.payAt i = bytes[i]?) → ∃ F : Framer,
    (∀ i, F.hdrAt i = s.fr.hdrAt i) ∧
    (∀ i, F.payAt i = if i = s.fr.idx then some b else s.fr.payAt i) ∧
    (crc8Compute bytes 0x00 = b → F.state = .complete ∧ F.idx = H.paySize ∧
      exec (.frByte b) s = .next { s with fr := F, result := .none } ∧
      ∀ more, exec (.frAccept (b :: more)) s = .next { s with fr := F, result := .count 1 }) ∧
    (crc8Compute bytes 0x00 ≠ b → F.state = .syncWait ∧ F.idx = 0 ∧
      exec (.frByte b) s = .next { s with
        fr := F, outputs := s.outputs ++ [.diag (.payloadCrcMismatch H (bytes ++ [b]))], result := .none })

/-- A complete framer refuses bytes: `FR.BYTE` changes nothing, `FR.ACCEPT` consumes 0 (decision D7 of the spec). -/
def Obligations.CompleteFramerTakesNothing : Prop :=
  ∀ s : State, s.fr.state = .complete →
    (∀ b, exec (.frByte b) s = .next { s with result := .none }) ∧
    ∀ buffer, exec (.frAccept buffer) s = .next { s with result := .count 0 }

/-- `FR.BYTE` goes on from every framer that meets the invariant, touches nothing but the framer and `diag`, raises at most
one diagnostic, and makes only the transitions of the table in 41_framer.md section 3. -/
def Obligations.FrByteMakesOnlyListedTransitions : Prop :=
  ∀ (b : Byte) (s : State), s.fr.Inv → ∃ (F : Framer) (ds : List Diag),
    exec (.frByte b) s =
      .next { s with fr := F, outputs := s.outputs ++ ds.map Output.diag, result := .none } ∧
    F.Inv ∧ ds.length ≤ 1 ∧
    (s.fr.state = .syncWait →
      (F.state = .syncWait ∧ F.idx = 0 ∨ F.state = .headerRead ∧ F.idx = 1) ∧ ds = []) ∧
    (s.fr.state = .headerRead → s.fr.idx < 5 → F.state = .headerRead ∧ F.idx = s.fr.idx + 1 ∧ ds = []) ∧
    (s.fr.state = .headerRead → s.fr.idx = 5 →
      F.state = .dataRead ∧ F.idx = 0 ∧ ds = [] ∨ F.state = .syncWait ∧ F.idx = 0 ∧ ds ≠ [] ∨
      F.state = .headerRead ∧ 1 ≤ F.idx ∧ F.idx ≤ 5 ∧ ds ≠ []) ∧
    (s.fr.state = .dataRead →
      F.state = .dataRead ∧ F.idx = s.fr.idx + 1 ∧ ds = [] ∨ F.state = .complete ∧ F.idx = s.fr.idx + 1 ∧ ds = [] ∨
      F.state = .syncWait ∧ F.idx = 0 ∧ ds ≠ []) ∧
    (s.fr.state = .complete → F = s.fr ∧ ds = [])

/-- `FR.ACCEPT` is `FR.BYTE` over the buffer until the framer completes, and answers how many bytes it has taken. From every
framer that meets the invariant it goes on, consumes no more than it is given, something where it is given something, all
where it does not complete (decision D8 of the spec), and touches nothing but the framer and `diag`. -/
def Obligations.FrAcceptIteratesFrByte : Prop :=
  (∀ s : State, exec (.frAccept []) s = .next { s with result := .count 0 }) ∧
  (∀ (b : Byte) (bs : List Byte) (s t : State), s.fr.state ≠ .complete → exec (.frByte b) s = .next t →
    (t.fr.state = .complete → exec (.frAccept (b :: bs)) s = .next { t with result := .count 1 }) ∧
    (t.fr.state ≠ .complete → ∀ u n, exec (.frAccept bs) t = .next u → u.result = .count n →
      exec (.frAccept (b :: bs)) s = .next { u with result := .count (n + 1) })) ∧
  (∀ (buffer : List Byte) (s : State), s.fr.Inv → s.fr.state ≠ .complete → ∃ (n : Nat) (F : Framer) (ds : List Diag),
    exec (.frAccept buffer) s =
      .next { s with fr := F, outputs := s.outputs ++ ds.map Output.diag, result := .count n } ∧
    F.Inv ∧ n ≤ buffer.length ∧ (buffer ≠ [] → 1 ≤ n) ∧ (F.state ≠ .complete → n = buffer.length))

/-- Streaming determinism of the framer: a buffer fed in two parts leaves the framer, and raises the diagnostics, of the
buffer fed at once, and the counts add up ([derived] in 41_framer.md). -/
def Obligations.FrAcceptStreams : Prop :=
  ∀ (A B : List Byte) (s t : State) (n : Nat), s.fr.state ≠ .complete → exec (.frAccept A) s = .next t →
    t.result = .count n →
    (t.fr.state = .complete → exec (.frAccept (A ++ B)) s = .next t) ∧
    (t.fr.state ≠ .complete → ∀ u m, exec (.frAccept B) t = .next u → u.result = .count m →
      exec (.frAccept (A ++ B)) s = .next { u with result := .count (n + m) })

/-- R115: `FR.TAKE` answers the packet the complete framer holds, a completed packet, and changes nothing; on a framer that is
not complete it is refused. -/
def Obligations.FrTakeHandsOverPacket : Prop :=
  (∀ s : State, s.fr.Inv → s.fr.state = .complete → ∃ P,
    exec .frTake s = .next { s with result := .packet P } ∧
    P.completed = true ∧ s.fr.holds P.hdr ∧ ∀ i, s.fr.payAt i = P.pay[i]?) ∧
  (∀ s : State, s.fr.state ≠ .complete → exec .frTake s = .refused .framerNotComplete) ∧
  (encode .frTake).bytes = [0x23]

/-! The telegram view. -/

/-- R130: the header accessors, on a packet of any type: header byte 4, the 16-bit big-endian data length, header byte 3. -/
def Obligations.HeaderAccessorsReadHeader : Prop :=
  ∀ (P : Packet) (s : State),
    exec (.tvPtype P) s = .next { s with result := .byte P.hdr.ptype } ∧
    (∃ d : Half, d.toNat = 256 * P.hdr.lenHi.toNat + P.hdr.lenLo.toNat ∧
      exec (.tvDlen P) s = .next { s with result := .half d }) ∧
    exec (.tvOlen P) s = .next { s with result := .byte P.hdr.optLen } ∧
    (encode (.tvPtype P)).bytes.head? = some 0x30 ∧ (encode (.tvDlen P)).bytes.head? = some 0x31 ∧
    (encode (.tvOlen P)).bytes.head? = some 0x32

/-- R131: on a packet of a type other than radio every accessor of the data part and of the optional data is refused. -/
def Obligations.RadioAccessorsRefuseOtherTypes : Prop :=
  ∀ (P : Packet) (s : State), P.hdr.ptype ≠ 0x01 →
    ∀ i ∈ [Instr.tvRorg P, .tvStoff P, .tvStatus P, .tvUdlen P, .tvUdata P, .tvSender P, .tvSubtel P, .tvDest P,
           .tvDbm P, .tvSeclvl P],
      exec i s = .refused .notRadio

/-- R133 and R135: the status offset in integers, without wrap, and the user-data length, clamped to 0, on every radio
packet, with one less each for VLD. -/
def Obligations.OffsetsOfRadioPackets : Prop :=
  ∀ (P : Packet) (s : State), P.completed = true → P.hdr.ptype = 0x01 → ∃ v : Nat,
    v = (if P.pay[0]? = some 0xD2 then 1 else 0) ∧
    exec (.tvStoff P) s = .next { s with result := .offset ((P.dl : Int) - 1 - v) } ∧
    (∃ u : Half, (u.toNat : Int) = max 0 ((P.dl : Int) - 6 - v) ∧
      exec (.tvUdlen P) s = .next { s with result := .half u }) ∧
    (encode (.tvStoff P)).bytes.head? = some 0x34 ∧ (encode (.tvUdlen P)).bytes.head? = some 0x36

/-- Where `view_ok` holds the data part is tiled, without gap or overlap, by RORG, user data, sender, status and, for VLD, one
extra byte, and each accessor answers its tile, the sender big-endian ([derived] in 42_telegram_view.md; the gate is
decision D11). -/
def Obligations.AccessorsTileDataPart : Prop :=
  ∀ (P : Packet) (s : State), P.completed = true → exec (.tvOk P) s = .next { s with result := .bit true } →
    ∃ (r : Byte) (ud : List Byte) (s0 s1 s2 s3 st : Byte) (extra : List Byte) (sender : Addr) (udl : Half),
      P.pay.take P.dl = r :: ud ++ [s0, s1, s2, s3, st] ++ extra ∧
      extra.length = (if r = 0xD2 then 1 else 0) ∧
      udl.toNat = ud.length ∧
      sender.toNat = 16777216 * s0.toNat + 65536 * s1.toNat + 256 * s2.toNat + s3.toNat ∧
      exec (.tvRorg P) s = .next { s with result := .byte r } ∧
      exec (.tvUdlen P) s = .next { s with result := .half udl } ∧
      exec (.tvUdata P) s = .next { s with result := .bytes ud } ∧
      exec (.tvSender P) s = .next { s with result := .word sender } ∧
      exec (.tvStoff P) s = .next { s with result := .offset (5 + ud.length : Nat) } ∧
      exec (.tvStatus P) s = .next { s with result := .byte st }

/-- Where a radio packet fails `view_ok`, its user data is empty, a status or sender byte inside the payload is a free value,
the same from every state, an index outside is refused, and RORG is payload byte 0 where there is a data part, else free
(93_implementation_defined.md U4, 42_telegram_view.md section 5; log 10, log 11). No clause says which value a free value
is. -/
def Obligations.ShortTelegramAccessorsAreFree : Prop :=
  ∀ P : Packet, P.completed = true → P.hdr.ptype = 0x01 → P.viewOk = false →
    (∀ s, exec (.tvUdata P) s = .next { s with result := .bytes [] }) ∧
    (1 ≤ P.dl → ∃ r, P.pay[0]? = some r ∧ ∀ s, exec (.tvRorg P) s = .next { s with result := .byte r }) ∧
    (P.dl = 0 → ∃ r, ∀ s, exec (.tvRorg P) s = .next { s with result := .byte r }) ∧
    (0 ≤ P.statusOffset → ∃ b, ∀ s, exec (.tvStatus P) s = .next { s with result := .byte b }) ∧
    (P.statusOffset < 0 → ∀ s, exec (.tvStatus P) s = .refused (.indexOutsidePayload P.statusOffset)) ∧
    (5 ≤ P.pay.length → ∃ a, ∀ s, exec (.tvSender P) s = .next { s with result := .word a }) ∧
    (P.pay.length < 5 → ∃ i, ∀ s, exec (.tvSender P) s = .refused (.indexOutsidePayload i))

/-- The optional-data accessors of a radio packet with at least 7 optional bytes read the first seven of them: count,
big-endian destination, the negative of the magnitude byte as a signed number (decision D10), security level; bytes beyond
the seventh are ignored (decision D13). -/
def Obligations.OptionalDataAccessorsReadSevenBytes : Prop :=
  ∀ (P : Packet) (s : State), P.completed = true → P.hdr.ptype = 0x01 → 7 ≤ P.ol →
    ∃ (c d0 d1 d2 d3 g v : Byte) (more : List Byte) (dest : Addr) (dbm : Dbm),
      (P.pay.drop P.dl).take P.ol = [c, d0, d1, d2, d3, g, v] ++ more ∧
      dest.toNat = 16777216 * d0.toNat + 65536 * d1.toNat + 256 * d2.toNat + d3.toNat ∧
      dbm.toInt = -(g.toNat : Int) ∧
      exec (.tvSubtel P) s = .next { s with result := .byte c } ∧
      exec (.tvDest P) s = .next { s with result := .word dest } ∧
      exec (.tvDbm P) s = .next { s with result := .dbm dbm } ∧
      exec (.tvSeclvl P) s = .next { s with result := .byte v }

/-- The optional-data accessors of a radio packet with fewer than 7 optional bytes are refused (93_implementation_defined.md
U3), and so are the decoders and the teach-in test on a packet that is not radio (U2). -/
def Obligations.PreconditionsAreRefused : Prop :=
  (∀ (P : Packet) (s : State), P.hdr.ptype = 0x01 → P.ol < 7 →
    ∀ i ∈ [Instr.tvSubtel P, .tvDest P, .tvDbm P, .tvSeclvl P], exec i s = .refused .optDataTooShort) ∧
  (∀ (P : Packet) (s : State), P.hdr.ptype ≠ 0x01 →
    (∀ i ∈ Instr.dpTeachq P :: decodersOn P, exec i s = .refused .notRadio) ∧
    ∀ h, exec (.pdInvoke h P) s = .refused .notRadio)

/-- `TV.OK` answers whether the packet is radio and its data part holds RORG, sender, status and, for VLD, the extra byte;
it answers on every packet (decision D11 of the spec). -/
def Obligations.ViewOkIsTheLengthGate : Prop :=
  ∀ (P : Packet) (s : State), ∃ b, exec (.tvOk P) s = .next { s with result := .bit b } ∧
    (b = true ↔ P.hdr.ptype = 0x01 ∧ 6 ≤ P.dl ∧ (P.pay[0]? = some 0xD2 → 7 ≤ P.dl))

/-! The profile decoders. -/

/-- `PD.MATCH` by the bytes of the profile id: RORG 0xF6 with FUNC 0x02 or 0x03 and any TYPE, FUNC 0x10 with TYPE 0x00, FUNC
0x04 with TYPE 0x02, FUNC 0x04 with any other TYPE, FUNC 0x05 with TYPE 0xC0; none for every other id. It raises nothing by
itself (log 25). -/
def Obligations.ProfileMatchByBytes : Prop :=
  ∀ (r f t : Byte) (s : State),
    exec (.pdMatch (profileOf r f t)) s = .next { s with result := .family (if r ≠ 0xF6 then none
       else if f = 0x02 ∨ f = 0x03 then some .rocker
       else if f = 0x10 ∧ t = 0x00 then some .window
       else if f = 0x04 ∧ t = 0x02 then some .cardKeyErp2
       else if f = 0x04 then some .cardKeyErp1
       else if f = 0x05 ∧ t = 0xC0 then some .smoke
       else none) }

/-- Every decoder answers on every completed radio packet, always the same events whatever the state, and changes nothing else
([derived] in 43_profile_decoders.md; that it answers where `view_ok` fails too is log 12). None yields an event for a
telegram whose RORG is not 0xF6 or that has no user data (decisions D22 and D23 of the spec). -/
def Obligations.DecodersArePureBehindGate : Prop :=
  ∀ P : Packet, P.completed = true → P.hdr.ptype = 0x01 → ∀ i ∈ decodersOn P, ∃ es,
    (∀ s : State, exec i s = .next { s with result := .events es }) ∧
    (P.viewOk = true → (P.pay[0]? ≠ some 0xF6 ∨ P.dl = 6) → es = [])

/-- The rocker. N-message: the first action from bits 7..5, the second from bits 3..1 where bit 0 is set, each for the channel
it addresses, with one shared pressed bit, and in that order ([derived] corner cases in 43_profile_decoders.md).
U-message: a release of all buttons, on whatever channel, exactly where the count is 0 and the bow bit is clear (the bow
bit's polarity is decision D25 of the spec). -/
def Obligations.RockerMessageEvents : Prop :=
  ∀ (P : Packet) (status data : Byte) (ch : Channel) (s : State), P.rps status data →
    (status.getLsbD 4 = true → ∃ first second,
      first = (if data.toNat / 64 % 4 = ch.toNat then
          [Event.button (if data.getLsbD 5 then .upOff else .downOn) (data.getLsbD 4)] else []) ∧
      second = (if data.getLsbD 0 = true ∧ data.toNat / 4 % 4 = ch.toNat then
          [Event.button (if data.getLsbD 1 then .upOff else .downOn) (data.getLsbD 4)] else []) ∧
      exec (.pdRocker P ch) s = .next { s with result := .events (first ++ second) }) ∧
    (status.getLsbD 4 = false →
      exec (.pdRocker P ch) s = .next { s with result := .events (if data.toNat / 32 = 0 ∧ data.getLsbD 4 = false then [.releaseAll] else []) })

/-- R165: the window handle's two channels: nothing unless NU is clear and T21 set; then open unless the high nibble is 0xF,
and tilted where it is 0xD. -/
def Obligations.WindowHandleChannels : Prop :=
  ∀ (P : Packet) (status data : Byte) (s : State), P.rps status data → ∃ valid : Bool,
    (valid = true ↔ status.getLsbD 4 = false ∧ status.getLsbD 5 = true) ∧
    exec (.pdWinopen P) s = .next { s with result := .events (if valid then [.value (decide (data.toNat / 16 ≠ 0xF))] else []) } ∧
    exec (.pdWintilt P) s = .next { s with result := .events (if valid then [.value (decide (data.toNat / 16 = 0xD))] else []) } ∧
    (encode (.pdWinopen P)).bytes.head? = some 0x52 ∧ (encode (.pdWintilt P)).bytes.head? = some 0x53

/-- R166, R167 and R168: the card key's two variants, ERP2 inserted exactly where data bit 2 is set, whatever the status, ERP1
exactly where NU is set and the whole data byte is 0x70; the smoke detector's two channels from data bits 5 and 4, alarm
where they are 01, battery low where they are 11, whatever the status. -/
def Obligations.CardKeyAndSmokeChannels : Prop :=
  ∀ (P : Packet) (status data : Byte) (s : State), P.rps status data →
    exec (.pdCardkey2 P) s = .next { s with result := .events [.value (data.getLsbD 2)] } ∧
    exec (.pdCardkey1 P) s =
      .next { s with result := .events [.value (status.getLsbD 4 && decide (data = 0x70))] } ∧
    exec (.pdSmokealm P) s = .next { s with result := .events [.value (!data.getLsbD 5 && data.getLsbD 4)] } ∧
    exec (.pdSmokebat P) s = .next { s with result := .events [.value (data.getLsbD 5 && data.getLsbD 4)] } ∧
    (encode (.pdCardkey2 P)).bytes.head? = some 0x54 ∧ (encode (.pdCardkey1 P)).bytes.head? = some 0x55 ∧
    (encode (.pdSmokealm P)).bytes.head? = some 0x56 ∧ (encode (.pdSmokebat P)).bytes.head? = some 0x57

/-- R201: a handler is invoked with the decoder its rule tag names, and the events go to its sink in order. -/
def Obligations.InvokeForwardsDecodedEvents : Prop :=
  ∀ (h : Handler) (P : Packet) (s : State), P.completed = true → P.viewOk = true → ∃ es,
    exec (h.decoder P) s = .next { s with result := .events es } ∧
    exec (.pdInvoke h P) s =
      .next { s with outputs := s.outputs ++ es.map (.sinkEvt h), result := .none } ∧
    (h.fits = true → (encode (.pdInvoke h P)).bytes.head? = some 0x58)

/-! The dispatcher. -/

/-- What no completed packet changes when it is handled: the framer, the threshold and the queue; the outputs only grow, by
at most one diagnostic, by no sink event in learn mode; with learn mode off registry and mode stay; learn mode is never
switched on (60_exceptions.md section 3 and section 4, 44_dispatcher.md section 2). That a learn-in completes rests on the
unbounded registry, the default of decision D20 (log 9). -/
def Obligations.HandleEffectsByMode : Prop :=
  ∀ (P : Packet) (s : State), P.completed = true → ∃ t os, exec (.dpHandle P) s = .next t ∧
    t = { s with learn := t.learn, reg := t.reg, outputs := s.outputs ++ os, result := .none } ∧
    (os.filter Output.isDiag).length ≤ 1 ∧
    (s.learn = .enabled → os.filter Output.isSink = []) ∧
    (s.learn = .disabled → t.learn = .disabled ∧ t.reg = s.reg ∧ ∀ o ∈ os, o.isDiag = true ∨ o.isSink = true) ∧
    (Registry.Inv s.reg → Registry.Inv t.reg)

/-- A packet that is not radio is ignored, a listed type silently (decision D12), a reserved one with `UnknownPacketType`; a
radio packet that fails `view_ok` is ignored with `ShortTelegram` (decision D11). In every case mode and registry stay. -/
def Obligations.IgnoredPacketsChangeNothing : Prop :=
  ∀ (P : Packet) (s : State), P.completed = true →
    (P.hdr.ptype ≠ 0x01 → (1 ≤ P.hdr.ptype.toNat ∧ P.hdr.ptype.toNat ≤ 7 ∨ 0x80 ≤ P.hdr.ptype.toNat) →
      exec (.dpHandle P) s = .next { s with result := .none }) ∧
    ((P.hdr.ptype = 0x00 ∨ 8 ≤ P.hdr.ptype.toNat ∧ P.hdr.ptype.toNat ≤ 0x7F) →
      exec (.dpHandle P) s =
        .next { s with outputs := s.outputs ++ [.diag (.unknownPacketType P.hdr.ptype)], result := .none }) ∧
    (P.hdr.ptype = 0x01 → P.viewOk = false → ∃ r,
      (1 ≤ P.dl → r = P.pay[0]?) ∧
      exec (.dpHandle P) s =
        .next { s with outputs := s.outputs ++ [.diag (.shortTelegram P.dl r)], result := .none })

/-- With learn mode off a telegram goes to every handler registered for its sender, in list order and, per handler, in event
order; with none registered `UnregisteredAddress` is raised and nothing happens (44_dispatcher.md section 2). -/
def Obligations.NormalDispatchReachesEveryHandler : Prop :=
  ∀ (P : Packet) (s : State) (a : Addr) (evs : Handler → List Event), P.completed = true → P.viewOk = true →
    s.learn = .disabled → exec (.tvSender P) s = .next { s with result := .word a } →
    (∀ h ∈ Registry.lookup s.reg a, exec (h.decoder P) s = .next { s with result := .events (evs h) }) →
    exec (.dpHandle P) s = .next { s with
      outputs := s.outputs ++
        (if Registry.lookup s.reg a = [] then [.diag (.unregisteredAddress a)]
         else (Registry.lookup s.reg a).flatMap fun h => (evs h).map (.sinkEvt h)),
      result := .none }

/-- With learn mode off two telegrams with the same data part have the same effect: destination, subtelegram count, signal
strength and security level play no part ([derived] in 44_dispatcher.md). -/
def Obligations.NormalDispatchIgnoresOptionalData : Prop :=
  ∀ (P Q : Packet) (s : State), P.completed = true → Q.completed = true → P.viewOk = true →
    Q.hdr.ptype = 0x01 → P.dl = Q.dl → P.pay.take P.dl = Q.pay.take Q.dl → s.learn = .disabled →
    exec (.dpHandle P) s = exec (.dpHandle Q) s

/-- The teach-in test: an RPS telegram qualifies exactly where it has valid optional data and its signal strength, a signed
number, is at least the threshold; any other by the open explicit teach flag (decisions D13, D14 and D16 of the spec). In learn mode a telegram that does not
qualify is dropped and the mode kept (decision D17). -/
def Obligations.TeachInQualification : Prop :=
  ∀ (P : Packet) (s : State), P.completed = true → P.viewOk = true → ∃ q,
    exec (.dpTeachq P) s = .next { s with result := .bit q } ∧
    (P.pay[0]? = some 0xF6 →
      (q = true ↔ 7 ≤ P.ol ∧ ∃ g, P.pay[P.dl + 5]? = some g ∧ s.dbmMin.toInt ≤ -(g.toNat : Int))) ∧
    (P.pay[0]? ≠ some 0xF6 → q = Config.params.explicitTeach P) ∧
    (s.learn = .enabled → q = false → exec (.dpHandle P) s = .next { s with result := .none })

/-- Learn-in: a qualifying telegram of an unregistered sender registers a non-empty list of records of its address, its
learned profile and that profile's family, of distinct sub-device indexes, and nothing else, and reports it; with a
profile of no family nothing is registered and `UnsupportedProfile` is raised. Learn mode ends either way (decisions D15
and D18 of the spec; the records' free part is log 8). That the records are always registered rests on the unbounded
registry, the default of decision D20 (log 9). -/
def Obligations.LearnInRegistersHandlers : Prop :=
  ∀ (P : Packet) (s : State) (a : Addr), P.completed = true → P.viewOk = true → s.learn = .enabled →
    Registry.Inv s.reg → exec (.tvSender P) s = .next { s with result := .word a } →
    exec (.dpTeachq P) s = .next { s with result := .bit true } → Registry.lookup s.reg a = [] →
    (profileMatch (Config.params.learnProfile P) = none →
      exec (.dpHandle P) s = .next { s with
        learn := .disabled, outputs := s.outputs ++ [.diag (.unsupportedProfile (Config.params.learnProfile P))],
        result := .none }) ∧
    (∀ f, profileMatch (Config.params.learnProfile P) = some f → ∃ r hs,
      exec (.dpHandle P) s = .next { s with
        learn := .disabled, reg := r, outputs := s.outputs ++ [.learnEvt .learnIn a], result := .none } ∧
      Registry.lookup r a = hs ∧ hs ≠ [] ∧ (∀ b, b ≠ a → Registry.lookup r b = Registry.lookup s.reg b) ∧
      (∀ h ∈ hs, h.address = a ∧ h.profileId = Config.params.learnProfile P ∧ h.rule ∈ f.tags) ∧
      (hs.map Handler.subdeviceIndex).Nodup)

/-- R195: a qualifying telegram of a registered sender removes all handlers of that address and of no other, and emits
`unpair` and then the learn-out event; learn mode ends. -/
def Obligations.LearnOutRemovesAllHandlers : Prop :=
  ∀ (P : Packet) (s : State) (a : Addr), P.completed = true → P.viewOk = true → s.learn = .enabled →
    Registry.Inv s.reg → exec (.tvSender P) s = .next { s with result := .word a } →
    exec (.dpTeachq P) s = .next { s with result := .bit true } → Registry.lookup s.reg a ≠ [] →
    ∃ r, exec (.dpHandle P) s = .next { s with
        learn := .disabled, reg := r, outputs := s.outputs ++ [.unpair a, .learnEvt .learnOut a],
        result := .none } ∧
      ∀ b, Registry.lookup r b = if b = a then [] else Registry.lookup s.reg b

/-- Learn mode is single shot: a packet ends it exactly where it is a telegram that qualifies, on every branch; after that,
with the mode off, no packet changes mode or registry (44_dispatcher.md section 2). That a learn-in completes rests on the
unbounded registry, the default of decision D20 (log 9). -/
def Obligations.LearnModeIsSingleShot : Prop :=
  (∀ (P : Packet) (s : State), P.completed = true → s.learn = .enabled → ∃ t, exec (.dpHandle P) s = .next t ∧
    (t.learn = .disabled ↔ P.viewOk = true ∧ exec (.dpTeachq P) s = .next { s with result := .bit true })) ∧
  (∀ (P Q : Packet) (s t : State), P.completed = true → Q.completed = true → s.learn = .enabled →
    exec (.dpHandle P) s = .next t → t.learn = .disabled →
    ∃ u, exec (.dpHandle Q) t = .next u ∧ u.learn = .disabled ∧ u.reg = t.reg)

/-- R197: `DP.SETLEARN` sets the learn state, whatever it was, and touches nothing else. -/
def Obligations.SetLearnSetsMode : Prop :=
  ∀ s : State,
    exec (.dpSetlearn true) s = .next { s with learn := .enabled, result := .none } ∧
    exec (.dpSetlearn false) s = .next { s with learn := .disabled, result := .none } ∧
    ∀ e, (encode (.dpSetlearn e)).bytes.head? = some 0x41

/-- `DP.REGISTER` of a record of its profile's family: it replaces a record of its address and sub-device index and goes to
the end of the list (decision D21); other addresses stay. That it completes in every state rests on the unbounded registry,
the default of decision D20 (log 9). A record of another family is refused (log 14). -/
def Obligations.RegisterReplacesAndAppends : Prop :=
  ∀ (h : Handler) (s : State),
    (recordOk h = true → ∃ r, exec (.dpRegister h) s = .next { s with reg := r, result := .none } ∧
      ∀ b, Registry.lookup r b =
        if b = h.address then
          (Registry.lookup s.reg h.address).filter (fun x => x.subdeviceIndex != h.subdeviceIndex) ++ [h]
        else Registry.lookup s.reg b) ∧
    (recordOk h = false → exec (.dpRegister h) s = .refused .recordNotOfFamily)

/-- R199: `DP.UNREGISTER` removes all handlers of one address and of no other, emits nothing, and has no effect on the registry
where the address is absent. R200: `DP.LOOKUP` answers the ordered list stored under exactly that address, or the empty
list where the address is absent, and writes nothing. -/
def Obligations.UnregisterAndLookupOneAddress : Prop :=
  (∀ (a : Addr) (s : State), ∃ r, exec (.dpUnregister a) s = .next { s with reg := r, result := .none } ∧
    (∀ b, Registry.lookup r b = if b = a then [] else Registry.lookup s.reg b) ∧
    ((∀ x ∈ s.reg, x.1 ≠ a) → r = s.reg) ∧
    (encode (.dpUnregister a)).bytes.head? = some 0x43) ∧
  (∀ (a : Addr) (s : State), Registry.Inv s.reg →
    (∀ hs, (a, hs) ∈ s.reg → exec (.dpLookup a) s = .next { s with result := .handlers hs }) ∧
    ((∀ x ∈ s.reg, x.1 ≠ a) → exec (.dpLookup a) s = .next { s with result := .handlers [] }) ∧
    (encode (.dpLookup a)).bytes.head? = some 0x44)

/-! The channel. -/

/-- R238: a chunk delivered with an error raises `TransportError` and changes no state: its bytes are not framed, the framer
is not reset. -/
def Obligations.TransportErrorDropsChunk : Prop :=
  ∀ (bytes : List Byte) (e : Nat) (s : State),
    exec (.chRx bytes (some e)) s =
      .next { s with outputs := s.outputs ++ [.diag (.transportError e)], result := .none }

/-- One byte of an error-free chunk is framed; where it completes a packet, the packet is taken, the framer replaced by a
fresh one, and the packet handled, before anything else (45_comm_channel.md; the order is decision D27 of the spec). -/
def Obligations.RxFramesThenDispatches : Prop :=
  ∀ (b : Byte) (s t : State), s.fr.state ≠ .complete → exec (.frByte b) s = .next t →
    (t.fr.state ≠ .complete → exec (.chRx [b] none) s = .next t) ∧
    (t.fr.state = .complete → ∀ P, exec .frTake t = .next { t with result := .packet P } →
      exec (.chRx [b] none) s = exec (.dpHandle P) { t with fr := Framer.fresh })

/-- Chunking invariance of the whole core: however a stream is cut into error-free chunks, the outcome is the same, framer,
mode, registry and outputs ([derived] in 45_comm_channel.md). What the first byte does from a start state whose framer is
complete already is log 21. -/
def Obligations.ChunkingInvariance : Prop :=
  ∀ (cs ds : List (List Byte)) (s : State), cs ≠ [] → ds ≠ [] → cs.flatten = ds.flatten → rxAll cs s = rxAll ds s

/-- A completed packet that arrives while the framer scans, after any bytes without a sync byte, is handled exactly as
`DP.HANDLE` of it with a fresh framer (41_framer.md, 45_comm_channel.md). -/
def Obligations.WholePacketIsDelivered : Prop :=
  ∀ (noise : List Byte) (P : Packet) (s : State), (∀ b ∈ noise, b ≠ 0x55) → P.completed = true →
    s.fr.state = .syncWait →
    exec (.chRx (noise ++ P.hdr.bytes ++ P.pay) none) s = exec (.dpHandle P) { s with fr := Framer.fresh }

/-- Recovery: the packet that follows a header with a wrong CRC and no sync byte in it, an oversize header, or a packet with a
corrupted payload is delivered, with one diagnostic for what was dropped (41_framer.md, 95_test_vectors.md section 1). -/
def Obligations.NextPacketSurvivesDrop : Prop :=
  ∀ (H : Header) (P : Packet) (s : State), H.sync = 0x55 → P.completed = true → s.fr.state = .syncWait →
    (H.crcOk = false → (∀ b ∈ H.replayed, b ≠ 0x55) →
      exec (.chRx (H.bytes ++ P.hdr.bytes ++ P.pay) none) s = exec (.dpHandle P) { s with
        fr := Framer.fresh, outputs := s.outputs ++ [.diag (.headerCrcMismatch H)] }) ∧
    (H.crcOk = true → 300 < H.paySize →
      exec (.chRx (H.bytes ++ P.hdr.bytes ++ P.pay) none) s = exec (.dpHandle P) { s with
        fr := Framer.fresh, outputs := s.outputs ++ [.diag (.oversize H.paySize)] }) ∧
    (H.crcOk = true → H.paySize ≤ 300 → ∀ bad : List Byte, bad.length = H.paySize → payCrcOk bad = false →
      exec (.chRx (H.bytes ++ bad ++ P.hdr.bytes ++ P.pay) none) s = exec (.dpHandle P) { s with
        fr := Framer.fresh, outputs := s.outputs ++ [.diag (.payloadCrcMismatch H bad)] })

/-- A valid packet that starts inside a failed header, with no other sync byte between that header's own and the packet's, is
not lost: a sync byte, up to four bytes without one, then the packet (41_framer.md, the purpose of the resync). -/
def Obligations.PacketInsideFailedHeaderSurvives : Prop :=
  ∀ (H : Header) (noise rest : List Byte) (P : Packet) (s : State), s.fr.state = .syncWait → P.completed = true →
    noise.length ≤ 4 → (∀ b ∈ noise, b ≠ 0x55) → 0x55 :: noise ++ P.hdr.bytes = H.bytes ++ rest → H.crcOk = false →
    exec (.chRx (0x55 :: noise ++ P.hdr.bytes ++ P.pay) none) s = exec (.dpHandle P) { s with
      fr := Framer.fresh, outputs := s.outputs ++ [.diag (.headerCrcMismatch H)] }

/-! Reset. -/

/-- `CORE.RESET` puts framer, learn state, registry and threshold at the values `State.reset` has, and emits nothing; from
every state, so it is idempotent. The values are decision D19 of the spec; what stays is log 20. -/
def Obligations.CoreResetRestoresStart : Prop :=
  (∀ s : State, exec .coreReset s = .next { State.reset with outputs := s.outputs, issue := s.issue }) ∧
  State.reset.fr.state = .syncWait ∧ State.reset.fr.idx = 0 ∧
  (∀ i, State.reset.fr.hdrAt i = none ∧ State.reset.fr.payAt i = none) ∧
  State.reset.learn = .disabled ∧ State.reset.reg = [] ∧ State.reset.dbmMin.toInt = -50

/-! The rows of the wire formats (log 15). -/

/-- A header that arrives while the framer scans: the answer is whether it is valid (30_encoding.md section 1); a valid one
is held and its payload awaited, any other raises one diagnostic. -/
def Obligations.HeaderRowArrives : Prop :=
  ∀ (h l o t c : Byte) (s : State), s.fr.state = .syncWait → ∃ (F : Framer) (ds : List Diag) (valid : Bool),
    (valid = true ↔ crc8Compute [h, l, o, t] 0x00 = c ∧ 256 * h.toNat + l.toNat + o.toNat + 1 ≤ 300) ∧
    exec (.esp3Header h l o t c) s =
      .next { s with fr := F, outputs := s.outputs ++ ds.map Output.diag, result := .bit valid } ∧
    (valid = true → F.state = .dataRead ∧ F.idx = 0 ∧
      F.holds { sync := 0x55, lenHi := h, lenLo := l, optLen := o, ptype := t, crc := c } ∧
      (∀ i, F.payAt i = none) ∧ ds = []) ∧
    (valid = false → (F.state = .syncWait ∨ F.state = .headerRead) ∧ ds.length = 1)

/-- A payload that arrives after its accepted header: with the right CRC byte the packet is handled as by `DP.HANDLE` with a
fresh framer and the answer is true; with another, `PayloadCrcMismatch`, scanning, and the answer is false
(30_encoding.md section 1). That a learn-in completes rests on the unbounded registry, the default of decision D20
(log 9). -/
def Obligations.PayloadRowArrives : Prop :=
  ∀ (data opt : List Byte) (c : Byte) (H : Header) (s : State), s.fr.state = .dataRead → s.fr.idx = 0 →
    s.fr.accepted H → H.dataLength = data.length → H.optDataLength = opt.length →
    (crc8Compute (data ++ opt) 0x00 = c → ∃ t,
      exec (.dpHandle { hdr := H, pay := data ++ opt ++ [c] }) { s with fr := Framer.fresh } = .next t ∧
      exec (.esp3Payload data opt c) s = .next { t with result := .bit true }) ∧
    (crc8Compute (data ++ opt) 0x00 ≠ c → ∃ F : Framer, F.state = .syncWait ∧ F.idx = 0 ∧
      exec (.esp3Payload data opt c) s = .next { s with
        fr := F, outputs := s.outputs ++ [.diag (.payloadCrcMismatch H (data ++ opt ++ [c]))],
        result := .bit false })

/-- The packet type rows: only radio is dispatched; a listed type is ignored silently, a reserved one with
`UnknownPacketType`. The RORG rows: only VLD shifts the trailer, by one, and only RPS teaches in implicitly
(30_encoding.md section 3). -/
def Obligations.PacketTypeAndRorgRows : Prop :=
  ∀ s : State,
    exec .ptypeRadio s = .next { s with result := .bit true } ∧
    (∀ i ∈ [Instr.ptypeResponse, .ptypeRadioSubtelegram, .ptypeEvent, .ptypeCommonCmd, .ptypeSmartAckCmd,
        .ptypeRemoteMgmtCmd], exec i s = .next { s with result := .bit false }) ∧
    (∀ low, exec (.ptypeManufacturerSpecific low) s = .next { s with result := .bit false }) ∧
    (∀ t : Byte, (t = 0x00 ∨ 8 ≤ t.toNat ∧ t.toNat ≤ 0x7F) →
      exec (.ptypeReserved t) s =
        .next { s with outputs := s.outputs ++ [.diag (.unknownPacketType t)], result := .bit false }) ∧
    exec .rorgRps s = .next { s with result := .rorg 0 true } ∧
    exec .rorgVld s = .next { s with result := .rorg 1 false } ∧
    ∀ i ∈ [Instr.rorg1bs, .rorg4bs, .rorgMsc, .rorgAdt, .rorgSmLrnReq, .rorgSmLrnAns, .rorgSmRec, .rorgSysEx,
        .rorgSec, .rorgSecEncaps], exec i s = .next { s with result := .rorg 0 false }

/-- The status and RPS data rows, field by field: rocker count and N-message from the status byte; actions, button count, bow,
window position, card key and smoke detector bits from the data byte (30_encoding.md section 3). -/
def Obligations.StatusAndDataRows : Prop :=
  ∀ s : State,
    (∀ b, exec (.statusT21 b) s = .next { s with result := .count (if b.getLsbD 5 then 2 else 4) }) ∧
    (∀ b, exec (.statusNu b) s = .next { s with result := .bit (b.getLsbD 4) }) ∧
    (∀ a p b sec, ∃ act : BitVec 3 → Action,
      (∀ x, (act x).rocker.toNat = x.toNat / 2 ∧ (act x).side = (if x.getLsbD 0 then .upOff else .downOn) ∧
        (act x).pressed = decide (p = 1)) ∧
      exec (.rpsRockerN a p b sec) s =
        .next { s with result := .actions (act a :: if sec = 1 then [act b] else []) }) ∧
    (∀ b p low, exec (.rpsRockerU b p low) s = .next { s with result := .buttons b (decide (p = 1)) }) ∧
    (∀ p low, exec (.rpsWindow p low) s =
      .next { s with result := .position (if p = 0xD then .tilted else if p = 0xF then .closed else .fullyOpen) }) ∧
    (∀ hi i low, exec (.rpsCardkeyErp2 hi i low) s = .next { s with result := .bit (decide (i = 1)) }) ∧
    exec .rpsCardkeyErp1 s = .next { s with result := .bit true } ∧
    ∀ hi st low, exec (.rpsSmoke hi st low) s = .next { s with result := .smoke (decide (st = 1)) (decide (st = 3)) }

/-- The rows of the profile match table with their families and handler tags, and the radio optional data
(30_encoding.md section 3). -/
def Obligations.ProfileAndOptionalDataRows : Prop :=
  ∀ s : State,
    (∀ ty, exec (.eepRockerFunc02 ty) s = .next { s with result := .eepRow (some .rocker) [.rocker] }) ∧
    (∀ ty, exec (.eepRockerFunc03 ty) s = .next { s with result := .eepRow (some .rocker) [.rocker] }) ∧
    exec .eepWindowHandle s = .next { s with result := .eepRow (some .window) [.windowOpen, .windowTilted] } ∧
    exec .eepCardkeyErp2 s = .next { s with result := .eepRow (some .cardKeyErp2) [.cardKeyErp2] } ∧
    (∀ ty, ty ≠ 0x02 →
      exec (.eepCardkeyErp1 ty) s = .next { s with result := .eepRow (some .cardKeyErp1) [.cardKeyErp1] }) ∧
    exec .eepSmoke s = .next { s with result := .eepRow (some .smoke) [.smokeAlarm, .smokeBattery] } ∧
    ∀ c d g v, ∃ dbm : Dbm, dbm.toInt = -(g.toNat : Int) ∧
      exec (.optdataRadio c d g v) s = .next { s with result := .optData c d dbm v }

/-! The machine as a whole. -/

/-- An instruction outside the operations with effects changes nothing but its answer: every register, the registry, every
byte of the framer's storage and every output stay (20_memory.md section 3; the rows of the wire formats are log 15). What
an accessor of the telegram view answers, a value or a refusal, is the same from every state, also where the value is free
(42_telegram_view.md section 5; log 10). -/
def Obligations.ReadersChangeNothing : Prop :=
  (∀ (i : Instr) (s t : State), ¬ hasEffect i → exec i s = .next t → t = { s with result := t.result }) ∧
  ∀ (P : Packet), ∀ i ∈ accessorsOn P,
    (∃ v, ∀ s : State, exec i s = .next { s with result := v }) ∨ ∃ r, ∀ s : State, exec i s = .refused r

/-- The framer is written only by its own operations, the channel and reset; the threshold only by reset, and only to -50; the
learn mode is entered only by `DP.SETLEARN(1)`; no instruction touches the queue; what was emitted stays emitted
(10_state.md, 20_memory.md section 3, 60_exceptions.md section 4). -/
def Obligations.FramesOfEveryInstruction : Prop :=
  ∀ (i : Instr) (s t : State), exec i s = .next t →
    (¬ touchesFramer i → t.fr = s.fr) ∧
    (t.dbmMin = s.dbmMin ∨ i = .coreReset ∧ t.dbmMin.toInt = -50) ∧
    (s.learn = .disabled → t.learn = .enabled → i = .dpSetlearn true) ∧
    t.issue = s.issue ∧ s.outputs <+: t.outputs
end

