-- ==== Sys2Proof/Laws/State.lean ====
section
/-! SUPPORT. One lemma per field and per update of `State`, so that no later proof unfolds a record update, and the
lemmas by which a computation of type `Run` is taken apart. -/

namespace Sys2Proof.Machine

open Sys2Proof

@[simp] theorem State.emit_fr (o : Output) (s : State) : (s.emit o).fr = s.fr := rfl
@[simp] theorem State.emit_learn (o : Output) (s : State) : (s.emit o).learn = s.learn := rfl
@[simp] theorem State.emit_reg (o : Output) (s : State) : (s.emit o).reg = s.reg := rfl
@[simp] theorem State.emit_dbmMin (o : Output) (s : State) : (s.emit o).dbmMin = s.dbmMin := rfl
@[simp] theorem State.emit_outputs (o : Output) (s : State) : (s.emit o).outputs = s.outputs ++ [o] := rfl
@[simp] theorem State.emit_result (o : Output) (s : State) : (s.emit o).result = s.result := rfl
@[simp] theorem State.emit_issue (o : Output) (s : State) : (s.emit o).issue = s.issue := rfl

@[simp] theorem State.emitAll_fr (os : List Output) (s : State) : (s.emitAll os).fr = s.fr := rfl
@[simp] theorem State.emitAll_learn (os : List Output) (s : State) : (s.emitAll os).learn = s.learn := rfl
@[simp] theorem State.emitAll_reg (os : List Output) (s : State) : (s.emitAll os).reg = s.reg := rfl
@[simp] theorem State.emitAll_dbmMin (os : List Output) (s : State) : (s.emitAll os).dbmMin = s.dbmMin := rfl
@[simp] theorem State.emitAll_outputs (os : List Output) (s : State) : (s.emitAll os).outputs = s.outputs ++ os := rfl
@[simp] theorem State.emitAll_result (os : List Output) (s : State) : (s.emitAll os).result = s.result := rfl
@[simp] theorem State.emitAll_issue (os : List Output) (s : State) : (s.emitAll os).issue = s.issue := rfl

@[simp] theorem State.raise_fr (d : Diag) (s : State) : (s.raise d).fr = s.fr := rfl
@[simp] theorem State.raise_learn (d : Diag) (s : State) : (s.raise d).learn = s.learn := rfl
@[simp] theorem State.raise_reg (d : Diag) (s : State) : (s.raise d).reg = s.reg := rfl
@[simp] theorem State.raise_dbmMin (d : Diag) (s : State) : (s.raise d).dbmMin = s.dbmMin := rfl
@[simp] theorem State.raise_outputs (d : Diag) (s : State) : (s.raise d).outputs = s.outputs ++ [.diag d] := rfl
@[simp] theorem State.raise_result (d : Diag) (s : State) : (s.raise d).result = s.result := rfl
@[simp] theorem State.raise_issue (d : Diag) (s : State) : (s.raise d).issue = s.issue := rfl

@[simp] theorem State.raiseAll_fr (ds : List Diag) (s : State) : (s.raiseAll ds).fr = s.fr := rfl
@[simp] theorem State.raiseAll_learn (ds : List Diag) (s : State) : (s.raiseAll ds).learn = s.learn := rfl
@[simp] theorem State.raiseAll_reg (ds : List Diag) (s : State) : (s.raiseAll ds).reg = s.reg := rfl
@[simp] theorem State.raiseAll_dbmMin (ds : List Diag) (s : State) : (s.raiseAll ds).dbmMin = s.dbmMin := rfl
@[simp] theorem State.raiseAll_outputs (ds : List Diag) (s : State) : (s.raiseAll ds).outputs = s.outputs ++ ds.map .diag := rfl
@[simp] theorem State.raiseAll_result (ds : List Diag) (s : State) : (s.raiseAll ds).result = s.result := rfl
@[simp] theorem State.raiseAll_issue (ds : List Diag) (s : State) : (s.raiseAll ds).issue = s.issue := rfl

@[simp] theorem State.answer_fr (r : Result) (s : State) : (s.answer r).fr = s.fr := rfl
@[simp] theorem State.answer_learn (r : Result) (s : State) : (s.answer r).learn = s.learn := rfl
@[simp] theorem State.answer_reg (r : Result) (s : State) : (s.answer r).reg = s.reg := rfl
@[simp] theorem State.answer_dbmMin (r : Result) (s : State) : (s.answer r).dbmMin = s.dbmMin := rfl
@[simp] theorem State.answer_outputs (r : Result) (s : State) : (s.answer r).outputs = s.outputs := rfl
@[simp] theorem State.answer_result (r : Result) (s : State) : (s.answer r).result = r := rfl
@[simp] theorem State.answer_issue (r : Result) (s : State) : (s.answer r).issue = s.issue := rfl

@[simp] theorem State.withFramer_fr (F : Framer) (s : State) : (s.withFramer F).fr = F := rfl
@[simp] theorem State.withFramer_learn (F : Framer) (s : State) : (s.withFramer F).learn = s.learn := rfl
@[simp] theorem State.withFramer_reg (F : Framer) (s : State) : (s.withFramer F).reg = s.reg := rfl
@[simp] theorem State.withFramer_dbmMin (F : Framer) (s : State) : (s.withFramer F).dbmMin = s.dbmMin := rfl
@[simp] theorem State.withFramer_outputs (F : Framer) (s : State) : (s.withFramer F).outputs = s.outputs := rfl
@[simp] theorem State.withFramer_result (F : Framer) (s : State) : (s.withFramer F).result = s.result := rfl
@[simp] theorem State.withFramer_issue (F : Framer) (s : State) : (s.withFramer F).issue = s.issue := rfl

@[simp] theorem State.withReg_fr (r : Registry) (s : State) : (s.withReg r).fr = s.fr := rfl
@[simp] theorem State.withReg_learn (r : Registry) (s : State) : (s.withReg r).learn = s.learn := rfl
@[simp] theorem State.withReg_reg (r : Registry) (s : State) : (s.withReg r).reg = r := rfl
@[simp] theorem State.withReg_dbmMin (r : Registry) (s : State) : (s.withReg r).dbmMin = s.dbmMin := rfl
@[simp] theorem State.withReg_outputs (r : Registry) (s : State) : (s.withReg r).outputs = s.outputs := rfl
@[simp] theorem State.withReg_result (r : Registry) (s : State) : (s.withReg r).result = s.result := rfl
@[simp] theorem State.withReg_issue (r : Registry) (s : State) : (s.withReg r).issue = s.issue := rfl

@[simp] theorem State.withLearn_fr (l : LearnState) (s : State) : (s.withLearn l).fr = s.fr := rfl
@[simp] theorem State.withLearn_learn (l : LearnState) (s : State) : (s.withLearn l).learn = l := rfl
@[simp] theorem State.withLearn_reg (l : LearnState) (s : State) : (s.withLearn l).reg = s.reg := rfl
@[simp] theorem State.withLearn_dbmMin (l : LearnState) (s : State) : (s.withLearn l).dbmMin = s.dbmMin := rfl
@[simp] theorem State.withLearn_outputs (l : LearnState) (s : State) : (s.withLearn l).outputs = s.outputs := rfl
@[simp] theorem State.withLearn_result (l : LearnState) (s : State) : (s.withLearn l).result = s.result := rfl
@[simp] theorem State.withLearn_issue (l : LearnState) (s : State) : (s.withLearn l).issue = s.issue := rfl

/-! Taking a `Run` apart. -/

@[simp] theorem Run.bind_ok {α β : Type} (a : α) (f : α → Run β) : ((Except.ok a : Run α) >>= f) = f a := rfl

@[simp] theorem Run.bind_error {α β : Type} (e : Stop) (f : α → Run β) :
    ((Except.error e : Run α) >>= f) = Except.error e := rfl

theorem Run.bind_eq_ok {α β : Type} {x : Run α} {f : α → Run β} {b : β} :
    x >>= f = .ok b ↔ ∃ a, x = .ok a ∧ f a = .ok b := by
  cases x <;> simp

@[simp] theorem Run.outcome_ok {α : Type} (a : α) : Run.outcome (.ok a) = .next a := rfl

@[simp] theorem Run.outcome_fault {α : Type} (f : Fault) :
    Run.outcome (.error (.fault f) : Except Stop α) = .fault f := rfl

@[simp] theorem Run.outcome_refuse {α : Type} (f : Refusal) :
    Run.outcome (.error (.refuse f) : Except Stop α) = .refused f := rfl

/-- A run's outcome is a next state exactly where it answers one. -/
@[simp] theorem Run.outcome_eq_next {α : Type} (x : Except Stop α) (a : α) :
    Run.outcome x = .next a ↔ x = .ok a := by
  rcases x with (f | r) | b <;> simp [Run.outcome]

/-- A run's outcome is a fault exactly where it stops with one. -/
@[simp] theorem Run.outcome_eq_fault {α : Type} (x : Except Stop α) (f : Fault) :
    Run.outcome x = .fault f ↔ x = .error (.fault f) := by
  rcases x with (f | r) | b <;> simp [Run.outcome]

/-- A run's outcome is a refusal exactly where it stops with one. -/
@[simp] theorem Run.outcome_eq_refused {α : Type} (x : Except Stop α) (r : Refusal) :
    Run.outcome x = .refused r ↔ x = .error (.refuse r) := by
  rcases x with (f | r) | b <;> simp [Run.outcome]

/-- No diagnostic carries the kind "sync-lost" (R249). -/
theorem Diag.errorKind_ne_syncLost (d : Diag) : d.errorKind ≠ some .syncLost := by
  cases d <;> simp [Diag.errorKind]

/-- A computation that does not stop with a fault (it answers, or refuses). -/
def Run.Faultless {α : Type} (x : Run α) : Prop := ∀ f, x ≠ .error (.fault f)

@[simp] theorem Run.faultless_ok {α : Type} (a : α) : Run.Faultless (.ok a) := by
  intro f h
  cases h

@[simp] theorem Run.faultless_refuse {α : Type} (r : Refusal) :
    Run.Faultless (.error (.refuse r) : Run α) := by
  intro f h
  cases h

/-- A sequence of computations does not fault where neither part does. -/
theorem Run.Faultless.bind {α β : Type} {x : Run α} {g : α → Run β} (hx : Run.Faultless x)
    (hg : ∀ a, x = .ok a → Run.Faultless (g a)) : Run.Faultless (x >>= g) := by
  rcases x with (f | r) | a
  · exact absurd rfl (hx f)
  · exact Run.faultless_refuse r
  · exact hg a rfl

/-- The outcome of a computation that does not fault is no fault. -/
theorem Run.Faultless.outcome {α : Type} {x : Run α} (hx : Run.Faultless x) (f : Fault) :
    Run.outcome x ≠ .fault f := fun h => hx f ((Run.outcome_eq_fault x f).1 h)

/-- An operation that answers what a computation without the state gives: one answer, or one refusal, for every state. -/
theorem Run.Faultless.answers_or_refuses {α : Type} {x : Run α} (hx : Run.Faultless x) (f : α → Result) :
    (∃ v, ∀ s : State, Run.outcome (x >>= fun a => .ok (s.answer (f a))) = .next { s with result := v }) ∨
      ∃ r, ∀ s : State, Run.outcome (x >>= fun a => .ok (s.answer (f a))) = .refused r := by
  rcases x with (g | r) | a
  · exact absurd rfl (hx g)
  · exact .inr ⟨r, fun _ => rfl⟩
  · exact .inl ⟨f a, fun _ => rfl⟩

end Sys2Proof.Machine
end

