-- ==== Sys2Proof/Laws/Registry.lean ====
section
/-! SUPPORT. The laws of the registry: what a lookup reads after each operation, and that each keeps
`Registry.Inv`. -/

namespace Sys2Proof.Machine

open Sys2Proof

@[simp] theorem Registry.lookup_nil (a : Addr) : Registry.lookup [] a = [] := rfl

theorem Registry.lookup_cons (x : Addr × List Handler) (r : Registry) (a : Addr) :
    Registry.lookup (x :: r) a = if x.1 = a then x.2 else Registry.lookup r a := rfl

/-- A lookup after a write reads the list written at its key and what was there before at every other. -/
@[simp] theorem Registry.lookup_set (r : Registry) (a b : Addr) (hs : List Handler) :
    Registry.lookup (Registry.set r a hs) b = if a = b then hs else Registry.lookup r b := by
  induction r with
  | nil => rfl
  | cons x r ih =>
    unfold Registry.set
    split
    · rfl
    · split
      · rename_i _ h
        subst h
        by_cases hb : x.1 = b <;> simp [Registry.lookup_cons, hb]
      · rename_i _ h
        simp only [Registry.lookup_cons, ih]
        by_cases hb : x.1 = b
        · subst hb
          rw [if_pos rfl, if_neg (fun e => h e.symm), if_pos rfl]
        · simp [hb]

/-- A lookup after a removal reads nothing at the key removed and what was there before at every other. -/
@[simp] theorem Registry.lookup_remove (r : Registry) (a b : Addr) :
    Registry.lookup (Registry.remove r a) b = if a = b then [] else Registry.lookup r b := by
  induction r with
  | nil => simp [Registry.remove]
  | cons x r ih =>
    simp only [Registry.remove, List.filter_cons] at ih ⊢
    by_cases hx : x.1 = a
    · subst hx
      simp only [bne_self_eq_false, Bool.false_eq_true, if_false, Registry.lookup_cons, ih]
      by_cases hb : x.1 = b <;> simp [hb]
    · simp only [bne_iff_ne, ne_eq, hx, not_false_eq_true, if_true, Registry.lookup_cons, ih]
      by_cases hb : x.1 = b
      · subst hb
        rw [if_pos rfl, if_neg (fun e => hx e.symm), if_pos rfl]
      · simp [hb]

/-- A lookup after a registration: at its own address the list the record joined, elsewhere as before. -/
theorem Registry.lookup_register (r : Registry) (h : Handler) (b : Addr) :
    Registry.lookup (Registry.register r h) b =
      if h.address = b then joinHandlers (Registry.lookup r h.address) h else Registry.lookup r b :=
  Registry.lookup_set ..

theorem Registry.has_cons (x : Addr × List Handler) (r : Registry) (a : Addr) :
    Registry.has (x :: r) a = (x.1 == a || Registry.has r a) := rfl

@[simp] theorem Registry.has_set (r : Registry) (a b : Addr) (hs : List Handler) :
    Registry.has (Registry.set r a hs) b = (a == b || Registry.has r b) := by
  induction r with
  | nil => rfl
  | cons x r ih =>
    unfold Registry.set
    split
    · rfl
    · split
      · rename_i _ h
        subst h
        simp [Registry.has_cons]
      · simp only [Registry.has_cons, ih, Bool.or_left_comm]

@[simp] theorem Registry.has_remove (r : Registry) (a b : Addr) :
    Registry.has (Registry.remove r a) b = (b != a && Registry.has r b) := by
  rw [Bool.eq_iff_iff]
  simp only [Registry.has, Registry.remove, List.any_filter, List.any_eq_true, Bool.and_eq_true, bne_iff_ne,
    ne_eq, beq_iff_eq]
  constructor
  · rintro ⟨x, hx, hne, he⟩
    exact ⟨fun h => hne (he.trans h), x, hx, he⟩
  · rintro ⟨hne, x, hx, he⟩
    exact ⟨x, hx, fun h => hne (he.symm.trans h), he⟩

/-- In a registry without empty lists an address is present exactly where its lookup finds a handler (R22). -/
theorem Registry.has_eq {r : Registry} (hr : Registry.Inv r) (a : Addr) :
    Registry.has r a = true ↔ Registry.lookup r a ≠ [] := by
  obtain ⟨-, hr⟩ := hr
  induction r with
  | nil => simp [Registry.has]
  | cons x r ih =>
    have hx := (hr x List.mem_cons_self).1
    have ih := ih fun y hy => hr y (List.mem_cons_of_mem _ hy)
    rw [Registry.has_cons, Registry.lookup_cons]
    by_cases ha : x.1 = a
    · simp [ha, hx]
    · simpa [ha] using ih

/-- What a lookup finds is a list of the registry. -/
theorem Registry.lookup_mem {r : Registry} {a : Addr} (h : Registry.lookup r a ≠ []) :
    (a, Registry.lookup r a) ∈ r := by
  induction r with
  | nil => simp at h
  | cons x r ih =>
    rw [Registry.lookup_cons] at h ⊢
    by_cases ha : x.1 = a
    · subst ha
      simp
    · rw [if_neg ha] at h ⊢
      exact List.mem_cons_of_mem _ (ih h)

/-- The handlers found under an address are records of that address, of their profile's family, with distinct
sub-device indexes. -/
theorem Registry.lookup_inv {r : Registry} (hr : Registry.Inv r) (a : Addr) :
    (∀ h ∈ Registry.lookup r a, h.address = a ∧ recordOk h = true) ∧
      ((Registry.lookup r a).map Handler.subdeviceIndex).Nodup := by
  by_cases h : Registry.lookup r a = []
  · simp [h]
  · exact (hr.2 _ (Registry.lookup_mem h)).2

theorem Registry.mem_set {r : Registry} {a : Addr} {hs : List Handler} {x : Addr × List Handler}
    (h : x ∈ Registry.set r a hs) : x = (a, hs) ∨ x ∈ r := by
  induction r with
  | nil => exact .inl (by simpa [Registry.set] using h)
  | cons y r ih =>
    unfold Registry.set at h
    split at h
    · simpa using h
    · split at h
      · rcases List.mem_cons.1 h with h | h
        · exact .inl h
        · exact .inr (List.mem_cons_of_mem _ h)
      · rcases List.mem_cons.1 h with h | h
        · exact .inr (h ▸ List.mem_cons_self)
        · exact (ih h).imp id (List.mem_cons_of_mem _)

@[simp] theorem Registry.inv_nil : Registry.Inv [] := ⟨List.Pairwise.nil, by simp⟩

/-- A write of a good list keeps the invariant. -/
theorem Registry.set_inv {r : Registry} {a : Addr} {hs : List Handler} (hr : Registry.Inv r) (hne : hs ≠ [])
    (hok : ∀ h ∈ hs, h.address = a ∧ recordOk h = true) (hnd : (hs.map Handler.subdeviceIndex).Nodup) :
    Registry.Inv (Registry.set r a hs) := by
  obtain ⟨hp, hx⟩ := hr
  constructor
  · clear hx
    induction r with
    | nil => simp [Registry.set]
    | cons y r ih =>
      rw [List.pairwise_cons] at hp
      unfold Registry.set
      split
      · rename_i hlt
        refine List.pairwise_cons.2 ⟨fun z hz => ?_, List.pairwise_cons.2 hp⟩
        rcases List.mem_cons.1 hz with rfl | hz
        · exact hlt
        · exact BitVec.lt_trans hlt (hp.1 z hz)
      · split
        · rename_i _ he
          exact List.pairwise_cons.2 ⟨fun z hz => he ▸ hp.1 z hz, hp.2⟩
        · rename_i hn he
          refine List.pairwise_cons.2 ⟨fun z hz => ?_, ih hp.2⟩
          rcases Registry.mem_set hz with rfl | hz
          · bv_omega
          · exact hp.1 z hz
  · intro x h
    rcases Registry.mem_set h with rfl | h
    · exact ⟨hne, hok, hnd⟩
    · exact hx x h

theorem Registry.remove_inv {r : Registry} (hr : Registry.Inv r) (a : Addr) :
    Registry.Inv (Registry.remove r a) :=
  ⟨hr.1.filter _, fun x hx => hr.2 x (List.mem_of_mem_filter hx)⟩

/-- The members of the joined list are the record and old members of another sub-device index. -/
theorem mem_joinHandlers {hs : List Handler} {h x : Handler} :
    x ∈ joinHandlers hs h ↔ (x ∈ hs ∧ x.subdeviceIndex ≠ h.subdeviceIndex) ∨ x = h := by
  simp [joinHandlers]

theorem joinHandlers_nodup {hs : List Handler} (hnd : (hs.map Handler.subdeviceIndex).Nodup) (h : Handler) :
    ((joinHandlers hs h).map Handler.subdeviceIndex).Nodup := by
  simp only [joinHandlers, List.map_append, List.map_cons, List.map_nil]
  refine List.Nodup.append (hnd.sublist (List.filter_sublist.map _)) (by simp) ?_
  intro n hn hm
  obtain ⟨x, hx, rfl⟩ := List.mem_map.1 hn
  have := (List.mem_filter.1 hx).2
  simp_all

/-- A registration of a well-formed record keeps the invariant. -/
theorem Registry.register_inv {r : Registry} {h : Handler} (hr : Registry.Inv r) (hok : recordOk h = true) :
    Registry.Inv (Registry.register r h) := by
  obtain ⟨ho, hnd⟩ := Registry.lookup_inv hr h.address
  refine Registry.set_inv hr (by simp [joinHandlers]) (fun x hx => ?_) (joinHandlers_nodup hnd h)
  rcases mem_joinHandlers.1 hx with ⟨hx, -⟩ | rfl
  · exact ho x hx
  · exact ⟨rfl, hok⟩

theorem registerAll_inv {r : Registry} {hs : List Handler} (hr : Registry.Inv r)
    (hok : ∀ h ∈ hs, recordOk h = true) : Registry.Inv (registerAll r hs) := by
  induction hs generalizing r with
  | nil => exact hr
  | cons h hs ih =>
    exact ih (Registry.register_inv hr (hok h List.mem_cons_self)) fun x hx => hok x (List.mem_cons_of_mem _ hx)

/-! The capacity (R9, D20). -/

/-- An unbounded registry holds whatever is registered. -/
@[simp] theorem Registry.enter_none (r : Registry) : Registry.enter none r = .ok r := rfl

/-- This core's registry is unbounded (log 9). -/
@[simp] theorem params_regCapacity : Config.params.regCapacity = none := rfl

/-- A registration that is admitted is the registration. -/
theorem Registry.enter_eq_ok {c : Option Config.RegCapacity} {r r' : Registry} :
    Registry.enter c r = .ok r' ↔ Registry.within c r = true ∧ r = r' := by
  unfold Registry.enter
  split <;> simp_all

theorem Registry.enter_faultless (c : Option Config.RegCapacity) (r : Registry) :
    Run.Faultless (Registry.enter c r) := by
  unfold Registry.enter
  split
  · exact Run.faultless_ok _
  · exact Run.faultless_refuse _

/-- Registering records of other addresses leaves a lookup alone. -/
theorem lookup_registerAll_of_ne {r : Registry} {hs : List Handler} {b : Addr} (hb : ∀ h ∈ hs, h.address ≠ b) :
    Registry.lookup (registerAll r hs) b = Registry.lookup r b := by
  induction hs generalizing r with
  | nil => rfl
  | cons h hs ih =>
    refine (ih fun x hx => hb x (List.mem_cons_of_mem _ hx)).trans ?_
    rw [Registry.lookup_register, if_neg (hb h List.mem_cons_self)]

/-- Registering records of one address, of distinct sub-device indexes none of which is taken there, appends them. -/
theorem lookup_registerAll {r : Registry} {hs : List Handler} {a : Addr} (ha : ∀ h ∈ hs, h.address = a)
    (hnd : ((Registry.lookup r a ++ hs).map Handler.subdeviceIndex).Nodup) :
    Registry.lookup (registerAll r hs) a = Registry.lookup r a ++ hs := by
  induction hs generalizing r with
  | nil => simp [registerAll]
  | cons h hs ih =>
    have hh : h.address = a := ha h List.mem_cons_self
    have hj : Registry.lookup (Registry.register r h) a = Registry.lookup r a ++ [h] := by
      rw [Registry.lookup_register, if_pos hh, hh, joinHandlers, List.filter_eq_self.2]
      intro x hx
      rw [List.map_append, List.nodup_append] at hnd
      simpa using hnd.2.2 _ (List.mem_map_of_mem hx) _ (List.mem_map_of_mem List.mem_cons_self)
    have := ih (r := Registry.register r h) (fun x hx => ha x (List.mem_cons_of_mem _ hx))
      (by rw [hj]; simpa using hnd)
    rw [hj] at this
    simpa [registerAll] using this

/-! What `MAKE_HANDLERS` builds (R194). -/

theorem distinctSubs_sublist (seen : List Nat) (hs : List Handler) : (distinctSubs seen hs).Sublist hs := by
  induction hs generalizing seen with
  | nil => exact List.Sublist.slnil
  | cons h hs ih =>
    unfold distinctSubs
    split
    · exact (ih _).cons _
    · exact (ih _).cons_cons _

theorem distinctSubs_nodup (seen : List Nat) (hs : List Handler) :
    ((distinctSubs seen hs).map Handler.subdeviceIndex).Nodup ∧
      ∀ h ∈ distinctSubs seen hs, h.subdeviceIndex ∉ seen := by
  induction hs generalizing seen with
  | nil => simp [distinctSubs]
  | cons h hs ih =>
    unfold distinctSubs
    split
    · exact ih seen
    · rename_i hn
      obtain ⟨hd, hs'⟩ := ih (h.subdeviceIndex :: seen)
      refine ⟨?_, ?_⟩
      · refine List.nodup_cons.2 ⟨fun hm => ?_, hd⟩
        obtain ⟨x, hx, he⟩ := List.mem_map.1 hm
        exact hs' x hx (he ▸ List.mem_cons_self)
      · intro x hx
        rcases List.mem_cons.1 hx with rfl | hx
        · simpa using hn
        · exact fun hm => hs' x hx (List.mem_cons_of_mem _ hm)

/-- A planned record is what R194 asks of it. -/
theorem planned_ok {f : Family} {p : ProfileId} (hf : profileMatch p = some f) (a : Addr)
    (pl : Config.HandlerPlan) :
    (planned f p a pl).address = a ∧ (planned f p a pl).profileId = p ∧ recordOk (planned f p a pl) = true := by
  refine ⟨rfl, rfl, ?_⟩
  have : familyOf (planned f p a pl).rule = f := by
    cases f <;> simp only [planned] <;> first | rfl | (split <;> rfl)
  simp [recordOk, this, show (planned f p a pl).profileId = p from rfl, hf]

/-- `MAKE_HANDLERS` answers a non-empty list of records of the address, the profile and its family, of distinct
sub-device indexes: the constraints R194 puts on it. -/
theorem makeHandlers_spec {π : Config.Params} {f : Family} {p : ProfileId} (hf : profileMatch p = some f)
    (a : Addr) (P : Packet) :
    makeHandlers π f p a P ≠ [] ∧
      (∀ h ∈ makeHandlers π f p a P, h.address = a ∧ h.profileId = p ∧ recordOk h = true) ∧
      ((makeHandlers π f p a P).map Handler.subdeviceIndex).Nodup := by
  refine ⟨?_, fun h hh => ?_, (distinctSubs_nodup _ _).1⟩
  · simp [makeHandlers, distinctSubs]
  · have hm := (distinctSubs_sublist _ _).subset hh
    obtain ⟨pl, -, rfl⟩ := List.mem_map.1 hm
    exact planned_ok hf a pl

end Sys2Proof.Machine
end

