-- ==== Sys2Proof/Laws/View.lean ====
section
/-! SUPPORT. The laws of the telegram view: what `completed` and `view_ok` say about a packet's indexes (R18, R143),
and what each accessor answers. -/

namespace Sys2Proof

open Sys2Proof.Machine

theorem Packet.completed_iff {P : Packet} :
    P.completed = true ↔ P.hdr.sync = Config.sync ∧ P.hdr.crcOk = true ∧ P.hdr.paySize ≤ 300 ∧
      P.pay.length = P.hdr.paySize ∧ payCrcOk P.pay = true := by
  simp only [Packet.completed, Header.valid, Header.oversize, Packet.sized, Bool.and_eq_true, beq_iff_eq,
    Bool.not_eq_true', decide_eq_false_iff_not, Nat.not_lt, and_assoc]
  exact Iff.rfl

/-- A completed packet has exactly `dl + ol + 1` payload bytes, at most 300. -/
theorem Packet.pay_length {P : Packet} (h : P.completed = true) :
    P.pay.length = P.dl + P.ol + 1 ∧ P.dl + P.ol + 1 ≤ 300 := by
  obtain ⟨-, -, hs, hl, -⟩ := Packet.completed_iff.1 h
  simp only [Header.paySize, Packet.dl, Packet.ol] at *
  omega

theorem Packet.viewOk_iff {P : Packet} : P.viewOk = true ↔ P.isRadio = true ∧ 6 + P.v ≤ P.dl := by
  simp only [Packet.viewOk, Bool.and_eq_true, decide_eq_true_eq, and_assoc]
  exact and_congr_right fun _ => by omega

theorem vldShift_le (r : Byte) : vldShift r ≤ 1 := by
  unfold vldShift
  split <;> omega

theorem Packet.v_le (P : Packet) : P.v ≤ 1 := by
  unfold Packet.v
  cases P.pay.head? with
  | none => simp
  | some b => simpa using vldShift_le b

/-- Under `view_ok` the user-data length is not clamped. -/
theorem Packet.userDataLength_of_viewOk {P : Packet} (h : P.viewOk = true) :
    P.userDataLength + 6 + P.v = P.dl := by
  have := (Packet.viewOk_iff.1 h).2
  simp only [Packet.userDataLength]
  omega

/-- Under `view_ok` the status byte follows the sender. -/
theorem Packet.statusOffset_of_viewOk {P : Packet} (h : P.viewOk = true) :
    P.statusOffset = (5 + P.userDataLength : Nat) := by
  have := Packet.userDataLength_of_viewOk h
  simp only [Packet.statusOffset]
  omega

theorem Packet.byteAt_natCast (P : Packet) (i : Nat) :
    P.byteAt (i : Int) = match P.pay[i]? with
      | some b => .ok b
      | none => .error (.refuse (.indexOutsidePayload i)) := by
  rw [Packet.byteAt, if_neg (by omega), Int.toNat_natCast]
  all_goals cases P.pay[i]? <;> rfl

/-- A byte inside the payload is read. -/
theorem Packet.byteAt_of_lt {P : Packet} {i : Nat} (h : i < P.pay.length) : P.byteAt (i : Int) = .ok P.pay[i] := by
  simp [Packet.byteAt_natCast, h]

/-- An index outside the payload is refused (93 U4). -/
theorem Packet.byteAt_of_not {P : Packet} {i : Int} (h : i < 0 ∨ P.pay.length ≤ i) :
    P.byteAt i = .error (.refuse (.indexOutsidePayload i)) := by
  unfold Packet.byteAt
  by_cases hn : i < 0
  · simp [hn]
  · rw [if_neg hn, List.getElem?_eq_none (by omega)]

/-- Reading a payload byte never faults. -/
theorem Packet.byteAt_faultless (P : Packet) (i : Int) : Run.Faultless (P.byteAt i) := by
  unfold Packet.byteAt
  split
  · exact Run.faultless_refuse _
  · split
    · exact Run.faultless_ok _
    · exact Run.faultless_refuse _

theorem Packet.addrAt_of_lt {P : Packet} {i : Nat} (h : i + 3 < P.pay.length) :
    P.addrAt i = .ok (be32 P.pay[i] P.pay[i + 1] P.pay[i + 2] P.pay[i + 3]) := by
  simp only [Packet.addrAt, Packet.byteAt_of_lt (P := P) (i := i) (by omega),
    Packet.byteAt_of_lt (P := P) (i := i + 1) (by omega), Packet.byteAt_of_lt (P := P) (i := i + 2) (by omega),
    Packet.byteAt_of_lt (P := P) (i := i + 3) h, Run.bind_ok]

theorem Packet.addrAt_faultless (P : Packet) (i : Nat) : Run.Faultless (P.addrAt i) :=
  .bind (P.byteAt_faultless _) fun _ _ => .bind (P.byteAt_faultless _) fun _ _ =>
    .bind (P.byteAt_faultless _) fun _ _ => .bind (P.byteAt_faultless _) fun _ _ => Run.faultless_ok _

/-! The accessors on a completed packet. -/

theorem Packet.radio_of {P : Packet} (h : P.isRadio = true) : P.radio = .ok () := by
  simp [Packet.radio, h]

theorem Packet.withOptData_of {P : Packet} (h : P.isRadio = true) (ho : P.optValid = true) :
    P.withOptData = .ok () := by
  simp [Packet.withOptData, Packet.radio_of h, ho]

theorem Packet.optValid_iff {P : Packet} : P.optValid = true ↔ 7 ≤ P.ol := by
  simp only [Packet.optValid, decide_eq_true_eq]
  exact Iff.rfl

/-- The indexes an accessor of a packet with `view_ok` uses lie inside the data part. -/
theorem Packet.viewOk_bounds {P : Packet} (hc : P.completed = true) (h : P.viewOk = true) :
    5 + P.userDataLength < P.dl ∧ P.dl < P.pay.length := by
  have := Packet.userDataLength_of_viewOk h
  have := (Packet.pay_length hc).1
  omega

theorem Packet.rorg_of_viewOk {P : Packet} (hc : P.completed = true) (h : P.viewOk = true) :
    P.rorg = .ok (P.pay[0]'(by have := Packet.viewOk_bounds hc h; omega)) := by
  have hb := Packet.viewOk_bounds hc h
  have h0 := Packet.byteAt_of_lt (P := P) (i := 0) (by omega)
  rw [Packet.rorg, Packet.radio_of (Packet.viewOk_iff.1 h).1, Run.bind_ok, show (0 : Int) = ((0 : Nat) : Int) from rfl,
    h0, Run.bind_ok, if_pos (by omega)]

theorem Packet.status_of_viewOk {P : Packet} (hc : P.completed = true) (h : P.viewOk = true) :
    P.status = .ok (P.pay[5 + P.userDataLength]'(by have := Packet.viewOk_bounds hc h; omega)) := by
  have hb := Packet.viewOk_bounds hc h
  rw [Packet.status, Packet.radio_of (Packet.viewOk_iff.1 h).1, Run.bind_ok, Packet.statusOffset_of_viewOk h,
    Packet.byteAt_of_lt (P := P) (i := 5 + P.userDataLength) (by omega), Run.bind_ok, if_pos h]

theorem Packet.userData_of_viewOk {P : Packet} (hc : P.completed = true) (h : P.viewOk = true) :
    P.userData = .ok ((P.pay.drop 1).take P.userDataLength) := by
  have hb := Packet.viewOk_bounds hc h
  simp [Packet.userData, Packet.radio_of (Packet.viewOk_iff.1 h).1, show 1 + P.userDataLength ≤ P.pay.length by omega]

theorem Packet.senderAt_of_viewOk {P : Packet} (hc : P.completed = true) (h : P.viewOk = true) :
    ∃ a, P.addrAt (1 + P.userDataLength) = .ok a := by
  have hb := Packet.viewOk_bounds hc h
  exact ⟨_, Packet.addrAt_of_lt (by omega)⟩

theorem Packet.sender_of_viewOk {P : Packet} {a : Addr} (h : P.viewOk = true)
    (ha : P.addrAt (1 + P.userDataLength) = .ok a) : P.sender = .ok a := by
  simp [Packet.sender, Packet.radio_of (Packet.viewOk_iff.1 h).1, ha, h]

theorem Packet.subtelegramCount_of {P : Packet} (hc : P.completed = true) (h : P.isRadio = true) (ho : 7 ≤ P.ol) :
    P.subtelegramCount = .ok (P.pay[P.dl]'(by have := Packet.pay_length hc; omega)) := by
  have hl := Packet.pay_length hc
  simp [Packet.subtelegramCount, Packet.withOptData_of h (Packet.optValid_iff.2 ho),
    Packet.byteAt_of_lt (P := P) (i := P.dl) (by omega)]

theorem Packet.destination_of {P : Packet} (hc : P.completed = true) (h : P.isRadio = true) (ho : 7 ≤ P.ol) :
    P.destination = .ok (be32 (P.pay[P.dl + 1]'(by have := Packet.pay_length hc; omega))
      (P.pay[P.dl + 2]'(by have := Packet.pay_length hc; omega))
      (P.pay[P.dl + 3]'(by have := Packet.pay_length hc; omega))
      (P.pay[P.dl + 4]'(by have := Packet.pay_length hc; omega))) := by
  have hl := Packet.pay_length hc
  simp [Packet.destination, Packet.withOptData_of h (Packet.optValid_iff.2 ho),
    Packet.addrAt_of_lt (P := P) (i := P.dl + 1) (by omega)]

theorem Packet.signalDbm_of {P : Packet} (hc : P.completed = true) (h : P.isRadio = true) (ho : 7 ≤ P.ol) :
    P.signalDbm = .ok (dbmOf (P.pay[P.dl + 5]'(by have := Packet.pay_length hc; omega))) := by
  have hl := Packet.pay_length hc
  simp only [Packet.signalDbm, Packet.withOptData_of h (Packet.optValid_iff.2 ho), Run.bind_ok,
    Packet.byteAt_of_lt (P := P) (i := P.dl + 5) (by omega)]

theorem Packet.securityLevel_of {P : Packet} (hc : P.completed = true) (h : P.isRadio = true) (ho : 7 ≤ P.ol) :
    P.securityLevel = .ok (P.pay[P.dl + 6]'(by have := Packet.pay_length hc; omega)) := by
  have hl := Packet.pay_length hc
  simp only [Packet.securityLevel, Packet.withOptData_of h (Packet.optValid_iff.2 ho), Run.bind_ok,
    Packet.byteAt_of_lt (P := P) (i := P.dl + 6) (by omega)]

/-! The accessors on any packet: none faults, so each answers or refuses, the same from every state (R144). -/

theorem Packet.radio_faultless (P : Packet) : Run.Faultless P.radio := by
  unfold Packet.radio
  split
  · exact Run.faultless_ok _
  · exact Run.faultless_refuse _

theorem Packet.withOptData_faultless (P : Packet) : Run.Faultless P.withOptData := by
  refine .bind P.radio_faultless fun _ _ => ?_
  split
  · exact Run.faultless_ok _
  · exact Run.faultless_refuse _

theorem Packet.rorg_faultless (P : Packet) : Run.Faultless P.rorg :=
  .bind P.radio_faultless fun _ _ => .bind (P.byteAt_faultless _) fun _ _ => Run.faultless_ok _

theorem Packet.status_faultless (P : Packet) : Run.Faultless P.status :=
  .bind P.radio_faultless fun _ _ => .bind (P.byteAt_faultless _) fun _ _ => Run.faultless_ok _

theorem Packet.userData_faultless (P : Packet) : Run.Faultless P.userData := by
  refine .bind P.radio_faultless fun _ _ => ?_
  split
  · exact Run.faultless_ok _
  · exact Run.faultless_refuse _

theorem Packet.sender_faultless (P : Packet) : Run.Faultless P.sender :=
  .bind P.radio_faultless fun _ _ => .bind (P.addrAt_faultless _) fun _ _ => Run.faultless_ok _

theorem Packet.subtelegramCount_faultless (P : Packet) : Run.Faultless P.subtelegramCount :=
  .bind P.withOptData_faultless fun _ _ => P.byteAt_faultless _

theorem Packet.destination_faultless (P : Packet) : Run.Faultless P.destination :=
  .bind P.withOptData_faultless fun _ _ => P.addrAt_faultless _

theorem Packet.signalDbm_faultless (P : Packet) : Run.Faultless P.signalDbm :=
  .bind P.withOptData_faultless fun _ _ => .bind (P.byteAt_faultless _) fun _ _ => Run.faultless_ok _

theorem Packet.securityLevel_faultless (P : Packet) : Run.Faultless P.securityLevel :=
  .bind P.withOptData_faultless fun _ _ => P.byteAt_faultless _

end Sys2Proof
end

