-- ==== Sys2Proof/Laws/Dispatcher.lean ====
section
/-! SUPPORT. What the decoders and the dispatcher can do: on a completed packet `handle` goes on, reads nothing of the
framer and writes nothing of it, only adds to the outputs, and keeps the registry's invariant. -/

namespace Sys2Proof.Machine

open Sys2Proof

/-! The decoders. -/

theorem rpsInputs_faultless (P : Packet) : Run.Faultless (rpsInputs P) := by
  unfold rpsInputs
  refine .bind P.radio_faultless fun _ _ => .bind (P.byteAt_faultless _) fun _ _ => ?_
  split
  · exact Run.faultless_ok _
  · exact .bind (P.byteAt_faultless _) fun _ _ => .bind (P.byteAt_faultless _) fun _ _ => Run.faultless_ok _

theorem behindGate_faultless (f : RpsInputs → List Event) (P : Packet) : Run.Faultless (behindGate f P) :=
  .bind (rpsInputs_faultless P) fun _ _ => Run.faultless_ok _

theorem decodeFor_faultless (h : Handler) (P : Packet) : Run.Faultless (decodeFor h P) := by
  unfold decodeFor
  split <;> exact behindGate_faultless _ _

/-- On a completed radio packet the decoders' gate reads its inputs, whatever the packet's length (log 12). -/
theorem rpsInputs_of_completed {P : Packet} (hc : P.completed = true) (hr : P.isRadio = true) :
    ∃ i, rpsInputs P = .ok i := by
  have hl := (Packet.pay_length hc).1
  have h0 := Packet.byteAt_of_lt (P := P) (i := 0) (by omega)
  rw [rpsInputs, Packet.radio_of hr, Run.bind_ok, show (0 : Int) = ((0 : Nat) : Int) from rfl, h0, Run.bind_ok]
  by_cases hg : P.pay[0] ≠ rorgCodeRps ∨ P.userDataLength = 0
  · exact ⟨none, by rw [if_pos hg]⟩
  · rw [if_neg hg]
    have hu : P.userDataLength ≠ 0 := fun h => hg (.inr h)
    have hst : P.statusOffset = ((P.dl - 1 - P.v : Nat) : Int) := by
      simp only [Packet.userDataLength] at hu
      simp only [Packet.statusOffset]
      omega
    simp only [Packet.userDataLength] at hu
    rw [hst, Packet.byteAt_of_lt (P := P) (i := P.dl - 1 - P.v) (by omega), Run.bind_ok,
      show (1 : Int) = ((1 : Nat) : Int) from rfl, Packet.byteAt_of_lt (P := P) (i := 1) (by omega), Run.bind_ok]
    exact ⟨_, rfl⟩

theorem behindGate_of_completed (f : RpsInputs → List Event) {P : Packet} (hc : P.completed = true)
    (hr : P.isRadio = true) : ∃ es, behindGate f P = .ok es := by
  obtain ⟨i, hi⟩ := rpsInputs_of_completed hc hr
  exact ⟨(i.map f).getD [], by simp [behindGate, hi]⟩

theorem decodeFor_of_completed (h : Handler) {P : Packet} (hc : P.completed = true) (hr : P.isRadio = true) :
    ∃ es, decodeFor h P = .ok es := by
  unfold decodeFor
  split <;> exact behindGate_of_completed _ hc hr

/-! The dispatcher. -/

@[simp] theorem State.emitAll_nil (s : State) : s.emitAll [] = s := by
  simp [State.emitAll]

theorem State.emitAll_emitAll (os os' : List Output) (s : State) :
    (s.emitAll os).emitAll os' = s.emitAll (os ++ os') := by
  simp [State.emitAll, List.append_assoc]

theorem invoke_faultless (h : Handler) (P : Packet) (s : State) : Run.Faultless (invoke h P s) :=
  .bind (decodeFor_faultless h P) fun _ _ => Run.faultless_ok _

theorem invokeAll_faultless (hs : List Handler) (P : Packet) (s : State) : Run.Faultless (invokeAll hs P s) := by
  induction hs generalizing s with
  | nil => exact Run.faultless_ok _
  | cons h hs ih => exact .bind (invoke_faultless h P s) fun s' _ => ih s'

/-- Handlers invoked in order: their events in handler order and, per handler, in event order. -/
theorem invokeAll_eq {P : Packet} {evs : Handler → List Event} {hs : List Handler} {s : State}
    (he : ∀ h ∈ hs, decodeFor h P = .ok (evs h)) :
    invokeAll hs P s = .ok (s.emitAll (hs.flatMap fun h => (evs h).map (.sinkEvt h))) := by
  induction hs generalizing s with
  | nil => simp [invokeAll]
  | cons h hs ih =>
    rw [invokeAll, invoke, he h List.mem_cons_self, Run.bind_ok, Run.bind_ok,
      ih fun x hx => he x (List.mem_cons_of_mem _ hx), State.emitAll_emitAll]
    rfl

/-- What an operation of the dispatcher keeps: the framer and the model's own fields, and the outputs so far. -/
structure Kept (s s' : State) : Prop where
  fr      : s'.fr = s.fr
  dbmMin  : s'.dbmMin = s.dbmMin
  result  : s'.result = s.result
  issue   : s'.issue = s.issue
  outputs : ∃ os, s'.outputs = s.outputs ++ os

theorem Kept.refl (s : State) : Kept s s := ⟨rfl, rfl, rfl, rfl, [], by simp⟩

theorem Kept.trans {s s' s'' : State} (h : Kept s s') (h' : Kept s' s'') : Kept s s'' := by
  obtain ⟨os, ho⟩ := h.outputs
  obtain ⟨os', ho'⟩ := h'.outputs
  exact ⟨h'.fr.trans h.fr, h'.dbmMin.trans h.dbmMin, h'.result.trans h.result, h'.issue.trans h.issue, os ++ os', by rw [ho', ho, List.append_assoc]⟩

theorem Kept.emitAll (s : State) (os : List Output) : Kept s (s.emitAll os) := ⟨rfl, rfl, rfl, rfl, os, rfl⟩

theorem Kept.raise (s : State) (d : Diag) : Kept s (s.raise d) := Kept.emitAll s [.diag d]

theorem dispatch_faultless (a : Addr) (P : Packet) (s : State) : Run.Faultless (dispatch a P s) := by
  unfold dispatch
  split
  · exact Run.faultless_ok _
  · exact invokeAll_faultless _ _ _

/-- Normal dispatch on a completed radio packet goes on; registry and learn state stay (R191). -/
theorem dispatch_spec {P : Packet} (hc : P.completed = true) (hr : P.isRadio = true) (a : Addr) (s : State) :
    ∃ s', dispatch a P s = .ok s' ∧ Kept s s' ∧ s'.reg = s.reg ∧ s'.learn = s.learn := by
  unfold dispatch
  split
  · exact ⟨_, rfl, Kept.raise s _, rfl, rfl⟩
  · rename_i h hs _
    choose evs he using fun x : Handler => decodeFor_of_completed x hc hr
    exact ⟨_, invokeAll_eq fun x _ => he x, Kept.emitAll s _, rfl, rfl⟩

theorem qualifies_faultless (π : Config.Params) (d : Dbm) (r : Byte) (P : Packet) :
    Run.Faultless (qualifies π d r P) := by
  unfold qualifies
  split
  · split
    · exact .bind P.signalDbm_faultless fun _ _ => Run.faultless_ok _
    · exact Run.faultless_ok _
  · exact Run.faultless_ok _

/-- The teach-in test answers on every completed radio packet (R193). -/
theorem qualifies_spec (π : Config.Params) (d : Dbm) (r : Byte) {P : Packet} (hc : P.completed = true)
    (hr : P.isRadio = true) : ∃ q, qualifies π d r P = .ok q := by
  unfold qualifies
  split
  · by_cases ho : P.optValid = true
    · rw [if_pos ho, Packet.signalDbm_of hc hr (Packet.optValid_iff.1 ho)]
      exact ⟨_, rfl⟩
    · exact ⟨false, by rw [if_neg ho]⟩
  · exact ⟨_, rfl⟩

/-- A learn action that goes on keeps what it must and the registry's invariant, and ends learn mode (R194 to R196). -/
theorem learnAction_kept {π : Config.Params} {a : Addr} {P : Packet} {s s' : State}
    (he : learnAction π a P s = .ok s') :
    Kept s s' ∧ s'.learn = .disabled ∧ (Registry.Inv s.reg → Registry.Inv s'.reg) := by
  rw [learnAction] at he
  obtain ⟨s₁, h₁, he⟩ := Run.bind_eq_ok.1 he
  cases he
  split at h₁
  · cases h₁
    exact ⟨⟨rfl, rfl, rfl, rfl, [.unpair a, .learnEvt .learnOut a], by simp [learnOut]⟩, rfl,
      fun hr => Registry.remove_inv hr a⟩
  · unfold learnIn at h₁
    split at h₁
    · cases h₁
      exact ⟨⟨rfl, rfl, rfl, rfl, [_], rfl⟩, rfl, id⟩
    · rename_i f hf
      obtain ⟨r, hr, h₁⟩ := Run.bind_eq_ok.1 h₁
      cases h₁
      obtain ⟨-, rfl⟩ := Registry.enter_eq_ok.1 hr
      exact ⟨⟨rfl, rfl, rfl, rfl, [_], rfl⟩, rfl,
        fun hr => registerAll_inv hr fun h hh => ((makeHandlers_spec hf a P).2.1 h hh).2.2⟩

theorem learnAction_faultless (π : Config.Params) (a : Addr) (P : Packet) (s : State) :
    Run.Faultless (learnAction π a P s) := by
  rw [learnAction]
  refine .bind ?_ fun _ _ => Run.faultless_ok _
  split
  · exact Run.faultless_ok _
  · unfold learnIn
    split
    · exact Run.faultless_ok _
    · exact .bind (Registry.enter_faultless _ _) fun _ _ => Run.faultless_ok _

/-- With an unbounded registry the learn action goes on (D20). -/
theorem learnAction_of_unbounded {π : Config.Params} (hu : π.regCapacity = none) (a : Addr) (P : Packet) (s : State) :
    ∃ s', learnAction π a P s = .ok s' := by
  unfold learnAction
  split
  · exact ⟨_, rfl⟩
  · unfold learnIn
    split
    · exact ⟨_, rfl⟩
    · rw [hu]
      exact ⟨_, rfl⟩

theorem handleTelegram_faultless (π : Config.Params) (P : Packet) (s : State) :
    Run.Faultless (handleTelegram π P s) := by
  unfold handleTelegram
  refine .bind (P.byteAt_faultless _) fun _ _ => .bind (P.addrAt_faultless _) fun _ _ => ?_
  split
  · exact dispatch_faultless _ _ _
  · refine .bind (qualifies_faultless _ _ _ _) fun _ _ => ?_
    split
    · exact learnAction_faultless _ _ _ _
    · exact Run.faultless_ok _

/-- `DP.HANDLE` never faults, whatever the packet. -/
theorem handle_faultless (π : Config.Params) (P : Packet) (s : State) : Run.Faultless (handle π P s) := by
  unfold handle
  split
  · exact Run.faultless_ok _
  · split
    · exact Run.faultless_ok _
    · exact handleTelegram_faultless _ _ _

/-- A telegram that passes `view_ok`, by the learn state in force (R190). -/
theorem handleTelegram_eq (π : Config.Params) {P : Packet} (hc : P.completed = true) (hv : P.viewOk = true)
    (s : State) :
    ∃ r a, P.pay[0]? = some r ∧ P.addrAt (1 + P.userDataLength) = .ok a ∧
      handleTelegram π P s = match s.learn with
        | .disabled => dispatch a P s
        | .enabled => learnMode π r a P s := by
  have hb := Packet.viewOk_bounds hc hv
  obtain ⟨a, ha⟩ := Packet.senderAt_of_viewOk hc hv
  have h0 := Packet.byteAt_of_lt (P := P) (i := 0) (by omega)
  refine ⟨P.pay[0], a, by simp, ha, ?_⟩
  rw [handleTelegram, show (0 : Int) = ((0 : Nat) : Int) from rfl, h0, Run.bind_ok, ha, Run.bind_ok]
  all_goals cases s.learn <;> rfl

/-! What the dispatcher keeps, whatever the packet. -/

theorem invoke_kept {h : Handler} {P : Packet} {s s' : State} (he : invoke h P s = .ok s') : Kept s s' := by
  obtain ⟨es, -, he⟩ := Run.bind_eq_ok.1 he
  cases he
  exact Kept.emitAll s _

theorem invokeAll_kept {hs : List Handler} {P : Packet} {s s' : State} (he : invokeAll hs P s = .ok s') :
    Kept s s' := by
  induction hs generalizing s with
  | nil =>
    cases he
    exact Kept.refl _
  | cons h hs ih =>
    obtain ⟨s₁, h₁, he⟩ := Run.bind_eq_ok.1 he
    exact (invoke_kept h₁).trans (ih he)

theorem dispatch_kept {a : Addr} {P : Packet} {s s' : State} (he : dispatch a P s = .ok s') : Kept s s' := by
  unfold dispatch at he
  split at he
  · cases he
    exact Kept.raise s _
  · exact invokeAll_kept he

theorem learnMode_kept {π : Config.Params} {r : Byte} {a : Addr} {P : Packet} {s s' : State}
    (he : learnMode π r a P s = .ok s') : Kept s s' := by
  obtain ⟨q, -, he⟩ := Run.bind_eq_ok.1 he
  cases q with
  | false =>
    cases he
    exact Kept.refl _
  | true => exact (learnAction_kept he).1

/-- A `DP.HANDLE` that goes on has not touched the framer and has only added outputs. -/
theorem handle_kept {π : Config.Params} {P : Packet} {s s' : State} (he : handle π P s = .ok s') : Kept s s' := by
  unfold handle at he
  split at he
  · cases he
    unfold ignoreType
    split
    · exact Kept.refl _
    · exact Kept.raise s _
  · split at he
    · cases he
      exact Kept.raise s _
    · obtain ⟨r, -, he⟩ := Run.bind_eq_ok.1 he
      obtain ⟨a, -, he⟩ := Run.bind_eq_ok.1 he
      split at he
      · exact dispatch_kept he
      · exact learnMode_kept he

/-- `DP.HANDLE` on a completed packet goes on, keeps the framer and the registry's invariant and only adds outputs; the
registry is unbounded, as this core's is. -/
theorem handle_spec {π : Config.Params} (hu : π.regCapacity = none) {P : Packet} (hc : P.completed = true) (s : State) :
    ∃ s', handle π P s = .ok s' ∧ Kept s s' ∧ (Registry.Inv s.reg → Registry.Inv s'.reg) := by
  unfold handle
  by_cases hr : P.isRadio = true
  · by_cases hv : P.viewOk = true
    · obtain ⟨r, a, -, -, he⟩ := handleTelegram_eq π hc hv s
      simp only [hr, hv, Bool.not_true, Bool.false_eq_true, if_false, he]
      cases s.learn with
      | disabled =>
        obtain ⟨s', h, hk, hg, -⟩ := dispatch_spec hc hr a s
        exact ⟨s', h, hk, fun hi => hg ▸ hi⟩
      | enabled =>
        obtain ⟨q, hq⟩ := qualifies_spec π s.dbmMin r hc hr
        simp only [learnMode, hq, Run.bind_ok]
        cases q with
        | false => exact ⟨s, rfl, Kept.refl s, id⟩
        | true =>
          obtain ⟨s', h⟩ := learnAction_of_unbounded hu a P s
          obtain ⟨hk, -, hg⟩ := learnAction_kept h
          exact ⟨s', h, hk, hg⟩
    · simp only [hr, hv, Bool.not_true, Bool.false_eq_true, if_false, Bool.not_false, if_true]
      exact ⟨_, rfl, Kept.raise s _, id⟩
  · simp only [hr, Bool.not_false, if_true, ignoreType]
    split
    · exact ⟨s, rfl, Kept.refl s, id⟩
    · exact ⟨_, rfl, Kept.raise s _, id⟩

end Sys2Proof.Machine
end

