-- ==== Sys2Proof/Laws/Memory.lean ====
section
/-! SUPPORT. The laws of byte storage: read after write, and that every operation keeps the canonical form. -/

namespace Sys2Proof.Machine

open Sys2Proof

@[simp] theorem Memory.read_nil (a : Nat) : Memory.read [] a = none := rfl

theorem Memory.read_cons (c : Host.Cell) (m : Memory) (a : Nat) :
    Memory.read (c :: m) a = if c.1 = a then some c.2 else Memory.read m a := rfl

/-- A read after a write gives the byte written at its index and what was there before at every other. -/
@[simp] theorem Memory.read_write (m : Memory) (a i : Nat) (b : Byte) :
    Memory.read (Memory.write m a b) i = if a = i then some b else Memory.read m i := by
  induction m with
  | nil => simp [Memory.write, Memory.read]
  | cons c m ih =>
    unfold Memory.write
    split
    · simp [Memory.read]
    · split
      · rename_i _ h
        simp only [Memory.read_cons, ← h]
        by_cases hc : c.1 = i <;> simp [hc]
      · rename_i _ h
        simp only [Memory.read_cons, ih]
        by_cases hc : c.1 = i
        · subst hc
          simp [show ¬ a = c.1 from fun e => h e.symm]
        · simp [hc]

/-- Every cell of a write is the written one or an old one. -/
theorem Memory.mem_write {m : Memory} {a : Nat} {b : Byte} {c : Host.Cell} (h : c ∈ Memory.write m a b) :
    c = (a, b) ∨ c ∈ m := by
  induction m with
  | nil => simp [Memory.write] at h; exact .inl h
  | cons d m ih =>
    unfold Memory.write at h
    split at h
    · simpa using h
    · split at h
      · simp only [List.mem_cons] at h ⊢
        tauto
      · simp only [List.mem_cons] at h ⊢
        rcases h with h | h
        · exact .inr (.inl h)
        · rcases ih h with h | h
          · exact .inl h
          · exact .inr (.inr h)

@[simp] theorem Memory.wf_nil (size : Nat) : Memory.wf size [] := by simp [Memory.wf]

/-- A write inside the space keeps the canonical form. -/
theorem Memory.write_wf {size : Nat} {m : Memory} {a : Nat} {b : Byte} (hm : Memory.wf size m) (ha : a < size) :
    Memory.wf size (Memory.write m a b) := by
  constructor
  · have hp := hm.1
    clear hm
    induction m with
    | nil => simp [Memory.write]
    | cons d m ih =>
      rw [List.pairwise_cons] at hp
      unfold Memory.write
      split
      · rename_i hlt
        refine List.pairwise_cons.2 ⟨?_, List.pairwise_cons.2 hp⟩
        intro c hc
        rcases List.mem_cons.1 hc with rfl | hc
        · exact hlt
        · exact Nat.lt_trans hlt (hp.1 c hc)
      · split
        · rename_i _ he
          exact List.pairwise_cons.2 ⟨fun c hc => he ▸ hp.1 c hc, hp.2⟩
        · rename_i hn he
          refine List.pairwise_cons.2 ⟨?_, ih hp.2⟩
          intro c hc
          rcases Memory.mem_write hc with rfl | hc
          · simp only
            omega
          · exact hp.1 c hc
  · intro c hc
    rcases Memory.mem_write hc with rfl | hc
    · exact ha
    · exact hm.2 c hc

/-- A listed index lies inside the space. -/
theorem Memory.lt_of_read {size : Nat} {m : Memory} {a : Nat} (hm : ∀ c ∈ m, c.1 < size)
    (h : (Memory.read m a).isSome) : a < size := by
  induction m with
  | nil => simp at h
  | cons d m ih =>
    rw [Memory.read_cons] at h
    split at h
    · rename_i he
      exact he ▸ hm d List.mem_cons_self
    · exact ih (fun c hc => hm c (List.mem_cons_of_mem _ hc)) h

/-- Two memories in canonical form that read alike are the same list. -/
theorem Memory.ext_of_read {size : Nat} {m m' : Memory} (hm : Memory.wf size m) (hm' : Memory.wf size m')
    (h : ∀ i, Memory.read m i = Memory.read m' i) : m = m' := by
  have above : ∀ (c : Host.Cell) (l : Memory), (∀ d ∈ l, c.1 < d.1) → ∀ i, i ≤ c.1 → Memory.read l i = none := by
    intro c l hl i hi
    induction l with
    | nil => rfl
    | cons d l ih =>
      rw [Memory.read_cons, if_neg]
      · exact ih fun e he => hl e (List.mem_cons_of_mem _ he)
      · have := hl d List.mem_cons_self
        omega
  have hp := hm.1
  have hp' := hm'.1
  clear hm hm'
  induction m generalizing m' with
  | nil =>
    cases m' with
    | nil => rfl
    | cons d l => simpa [Memory.read_cons] using h d.1
  | cons c m ih =>
    cases m' with
    | nil => simpa [Memory.read_cons] using h c.1
    | cons d l =>
      rw [List.pairwise_cons] at hp hp'
      have hcd : c.1 = d.1 := by
        rcases Nat.lt_trichotomy c.1 d.1 with hlt | heq | hgt
        · have := h c.1
          rw [Memory.read_cons, if_pos rfl, Memory.read_cons, if_neg (by omega),
            above d l hp'.1 c.1 (by omega)] at this
          simp at this
        · exact heq
        · have := h d.1
          rw [Memory.read_cons, if_neg (by omega), Memory.read_cons, if_pos rfl,
            above c m hp.1 d.1 (by omega)] at this
          simp at this
      have hb : c = d := by
        have := h c.1
        rw [Memory.read_cons, if_pos rfl, Memory.read_cons, if_pos hcd.symm] at this
        exact Prod.ext hcd (by simpa using this)
      subst hb
      congr 1
      refine ih ?_ hp.2 hp'.2
      intro i
      have := h i
      rw [Memory.read_cons, Memory.read_cons] at this
      by_cases hi : c.1 = i
      · rw [above c m hp.1 i (by omega), above c l hp'.1 i (by omega)]
      · simpa [hi] using this

/-! The checked accesses. -/

theorem readByte_eq_ok {sp : Space} {size : Nat} {m : Memory} {i : Nat} {b : Byte} :
    readByte sp size m i = .ok b ↔ i < size ∧ Memory.read m i = some b := by
  unfold readByte
  by_cases hi : i < size
  · cases hr : Memory.read m i <;> simp [hi]
  · simp [hi]

theorem writeByte_of_lt {sp : Space} {size : Nat} {m : Memory} {i : Nat} {b : Byte} (h : i < size) :
    writeByte sp size m i b = .ok (Memory.write m i b) := by
  simp [writeByte, h]

theorem writeByte_eq_ok {sp : Space} {size : Nat} {m m' : Memory} {i : Nat} {b : Byte} :
    writeByte sp size m i b = .ok m' ↔ i < size ∧ m' = Memory.write m i b := by
  unfold writeByte
  by_cases hi : i < size <;> simp [hi, eq_comm]

/-- `n` reads from index `i` answer exactly the `n` bytes stored there. -/
theorem readBytes_eq_ok {sp : Space} {size : Nat} {m : Memory} {i n : Nat} {bs : List Byte} :
    readBytes sp size m i n = .ok bs ↔
      bs.length = n ∧ (∀ k, k < n → i + k < size ∧ Memory.read m (i + k) = bs[k]?) := by
  induction n generalizing i bs with
  | zero =>
    simp only [readBytes, Except.ok.injEq, Nat.not_lt_zero, false_implies, implies_true, and_true]
    exact ⟨fun h => by simp [← h], fun h => (List.length_eq_zero_iff.1 h).symm⟩
  | succ n ih =>
    simp only [readBytes, Run.bind_eq_ok, readByte_eq_ok, ih]
    constructor
    · rintro ⟨b, ⟨hi, hb⟩, cs, ⟨hl, hk⟩, he⟩
      cases he
      refine ⟨by simp [hl], ?_⟩
      intro k hkn
      cases k with
      | zero => exact ⟨hi, by simpa using hb⟩
      | succ k =>
        have := hk k (by omega)
        rw [show i + (k + 1) = i + 1 + k by omega]
        simpa using this
    · rintro ⟨hl, hk⟩
      cases bs with
      | nil => simp at hl
      | cons b cs =>
        refine ⟨b, by simpa using hk 0 (by omega), cs, ⟨by simpa using hl, ?_⟩, rfl⟩
        intro k hkn
        have := hk (k + 1) (by omega)
        rw [show i + 1 + k = i + (k + 1) by omega]
        simpa using this

end Sys2Proof.Machine
end

