-- ==== Sys2Proof/Laws/Framer.lean ====
section
/-! SUPPORT. What the framer's operations can do: each shared operation's one specification lemma, and that the byte
step, the buffer loop and the hand-over go on and keep `Framer.Inv` from every framer that meets it. -/

namespace Sys2Proof.Machine

open Sys2Proof

theorem Framer.fresh_inv : Framer.fresh.Inv := ⟨Memory.wf_nil _, Memory.wf_nil _, rfl⟩

/-- Reading the header answers `H` exactly where the six bytes hold it. -/
theorem Framer.header_eq_ok {F : Framer} {H : Header} : F.header = .ok H ↔ F.holds H := by
  simp only [Framer.header, Run.bind_eq_ok, readByte_eq_ok, Except.ok.injEq, Framer.holds, Framer.hdrAt]
  constructor
  · rintro ⟨_, ⟨-, h0⟩, _, ⟨-, h1⟩, _, ⟨-, h2⟩, _, ⟨-, h3⟩, _, ⟨-, h4⟩, _, ⟨-, h5⟩, rfl⟩
    exact ⟨h0, h1, h2, h3, h4, h5⟩
  · rintro ⟨h0, h1, h2, h3, h4, h5⟩
    exact ⟨_, ⟨by decide, h0⟩, _, ⟨by decide, h1⟩, _, ⟨by decide, h2⟩, _, ⟨by decide, h3⟩, _, ⟨by decide, h4⟩,
      _, ⟨by decide, h5⟩, rfl⟩

/-- A framer whose six header bytes hold values holds a header. -/
theorem Framer.holds_of_isSome {F : Framer} (h : ∀ i, i < 6 → (F.hdrAt i).isSome) : ∃ H, F.holds H := by
  obtain ⟨b0, h0⟩ := Option.isSome_iff_exists.1 (h 0 (by decide))
  obtain ⟨b1, h1⟩ := Option.isSome_iff_exists.1 (h 1 (by decide))
  obtain ⟨b2, h2⟩ := Option.isSome_iff_exists.1 (h 2 (by decide))
  obtain ⟨b3, h3⟩ := Option.isSome_iff_exists.1 (h 3 (by decide))
  obtain ⟨b4, h4⟩ := Option.isSome_iff_exists.1 (h 4 (by decide))
  obtain ⟨b5, h5⟩ := Option.isSome_iff_exists.1 (h 5 (by decide))
  exact ⟨⟨b0, b1, b2, b3, b4, b5⟩, h0, h1, h2, h3, h4, h5⟩

/-- A framer holds at most one header. -/
theorem Framer.holds_unique {F : Framer} {H H' : Header} (h : F.holds H) (h' : F.holds H') : H = H' := by
  have := Framer.header_eq_ok.2 h
  rw [Framer.header_eq_ok.2 h'] at this
  cases this
  rfl

theorem Framer.storeHeader_of_lt {F : Framer} {b : Byte} (h : F.idx < 6) :
    F.storeHeader b = .ok { F with hdr := Memory.write F.hdr F.idx b, idx := F.idx + 1 } := by
  simp [Framer.storeHeader, writeByte_of_lt (show F.idx < Config.headerBytes from h)]

theorem Framer.storePayload_of_lt {F : Framer} {n : Nat} {b : Byte} (h : F.idx < n) (hn : n ≤ 300) :
    F.storePayload n b = .ok { F with pay := Memory.write F.pay F.idx b, idx := F.idx + 1 } := by
  have : F.idx < min n Config.maxPayload := by
    simp only [Config.maxPayload, Nat.lt_min]
    omega
  simp [Framer.storePayload, writeByte_of_lt this]

/-- A framer that is scanning or gathering a header: where a replay may go. -/
def Framer.hunting (F : Framer) : Prop := F.state = .syncWait ∨ F.state = .headerRead

/-- One replayed byte goes on, keeps the invariant, fills at most one more header byte and leaves the payload. -/
theorem Framer.gather_spec {F : Framer} (b : Byte) (hF : F.Inv) (hh : F.hunting) (hi : F.idx + 1 ≤ 5) :
    ∃ F', F.gather b = .ok F' ∧ F'.Inv ∧ F'.hunting ∧ F'.idx ≤ F.idx + 1 ∧ F'.pay = F.pay := by
  obtain ⟨hw, hp, hs⟩ := hF
  rcases hh with hst | hst
  · rw [hst] at hs
    simp only at hs
    by_cases hb : b = Config.sync
    · refine ⟨{ F with state := .headerRead, idx := 1, hdr := Memory.write F.hdr 0 Config.sync }, ?_, ?_, .inr rfl,
        by simp, rfl⟩
      · simp [Framer.gather, hst, Framer.syncByte, hb]
      · refine ⟨Memory.write_wf hw (by decide), hp, ?_⟩
        simp only [Framer.hdrAt, Memory.read_write]
        refine ⟨by omega, by omega, by simp, fun i hi => ?_⟩
        simp [show i = 0 by omega]
    · exact ⟨F, by simp [Framer.gather, hst, Framer.syncByte, hb], ⟨hw, hp, by rw [hst]; exact hs⟩, .inl hst,
        by omega, rfl⟩
  · rw [hst] at hs
    obtain ⟨h1, h5, h0, hk⟩ := hs
    refine ⟨{ F with hdr := Memory.write F.hdr F.idx b, idx := F.idx + 1 }, ?_, ?_, .inr hst, Nat.le_refl _, rfl⟩
    · simp only [Framer.gather, hst]
      rw [Framer.storeHeader_of_lt (F := F) (show F.idx < 6 by omega), hst]
    · refine ⟨Memory.write_wf hw (show F.idx < 6 by omega), hp, ?_⟩
      simp only [hst, Framer.hdrAt, Memory.read_write]
      refine ⟨by omega, by omega, by rw [if_neg (by omega)]; exact h0, fun i hi' => ?_⟩
      by_cases he : F.idx = i
      · simp [he]
      · rw [if_neg he]
        exact hk i (by omega)

/-- A replay of bytes that cannot fill the header goes on and keeps the invariant. -/
theorem Framer.replay_spec {bs : List Byte} {F : Framer} (hF : F.Inv) (hh : F.hunting)
    (hl : F.idx + bs.length ≤ 5) :
    ∃ F', Framer.replay bs F = .ok F' ∧ F'.Inv ∧ F'.hunting ∧ F'.pay = F.pay := by
  induction bs generalizing F with
  | nil => exact ⟨F, rfl, hF, hh, rfl⟩
  | cons b bs ih =>
    simp only [List.length_cons] at hl
    obtain ⟨F₁, h₁, hi₁, hh₁, hx₁, hp₁⟩ := Framer.gather_spec b hF hh (by omega)
    obtain ⟨F₂, h₂, hi₂, hh₂, hp₂⟩ := ih hi₁ hh₁ (by omega)
    exact ⟨F₂, by simp [Framer.replay, h₁, h₂], hi₂, hh₂, hp₂.trans hp₁⟩

/-- Dropping to scanning keeps the storage's form and gives the invariant. -/
theorem Framer.toSync_inv {F : Framer} (hw : Memory.wf Config.headerBytes F.hdr)
    (hp : Memory.wf Config.maxPayload F.pay) : F.toSync.Inv := ⟨hw, hp, rfl⟩

/-- The end of a header goes on and gives the invariant, raising at most one diagnostic. -/
theorem Framer.headerDone_spec {F : Framer} {H : Header} (hw : Memory.wf Config.headerBytes F.hdr)
    (hp : Memory.wf Config.maxPayload F.pay) (hH : F.holds H) (hs : H.sync = Config.sync) :
    ∃ F' ds, F.headerDone = .ok (F', ds) ∧ F'.Inv ∧ ds.length ≤ 1 ∧ F'.state ≠ .complete := by
  unfold Framer.headerDone
  rw [Framer.header_eq_ok.2 hH, Run.bind_ok]
  by_cases hc : H.crcOk = true
  · by_cases ho : H.oversize = true
    · refine ⟨F.toSync, [.oversize H.paySize], by simp [hc, ho], Framer.toSync_inv hw hp, by simp, ?_⟩
      simp [Framer.toSync]
    · refine ⟨F.allocate, [], by simp [hc, ho], ?_, by simp, by simp [Framer.allocate]⟩
      refine ⟨hw, Memory.wf_nil _, ?_⟩
      have hle : H.paySize ≤ Config.maxPayload := by
        simpa [Header.oversize] using ho
      refine ⟨H, ⟨hH, hs, hc, hle⟩, ?_, fun i => ?_⟩
      · simp [Framer.allocate, Header.paySize]
      · simp [Framer.payAt, Framer.allocate]
  · obtain ⟨F', h', hi', hh', -⟩ := Framer.replay_spec (bs := H.replayed) (Framer.toSync_inv hw hp)
      (.inl rfl) (by simp [Framer.toSync, Header.replayed])
    refine ⟨F', [.headerCrcMismatch H], by simp [hc, h'], hi', by simp, ?_⟩
    rcases hh' with h | h <;> simp [h]

/-- Payload bytes that all hold values can be read. -/
theorem Framer.payload_of_isSome {F : Framer} {n : Nat} (hn : n ≤ 300) (h : ∀ i, i < n → (F.payAt i).isSome) :
    ∃ bs, F.payload n = .ok bs ∧ bs.length = n ∧ ∀ i, i < n → F.payAt i = bs[i]? := by
  refine ⟨(List.range n).map (fun i => (F.payAt i).getD 0), ?_, by simp, ?_⟩
  · refine readBytes_eq_ok.2 ⟨by simp, fun k hk => ⟨?_, ?_⟩⟩
    · simp only [Config.maxPayload]
      omega
    · obtain ⟨b, hb⟩ := Option.isSome_iff_exists.1 (h k hk)
      rw [Nat.zero_add, show Memory.read F.pay k = some b from hb]
      simp [hk, hb]
  · intro i hi
    obtain ⟨b, hb⟩ := Option.isSome_iff_exists.1 (h i hi)
    simp [hi, hb]

/-- The end of a payload goes on and gives the invariant. -/
theorem Framer.payloadDone_spec {F : Framer} {H : Header} (hw : Memory.wf Config.headerBytes F.hdr)
    (hp : Memory.wf Config.maxPayload F.pay) (ha : F.accepted H) (hi : F.idx = H.paySize)
    (hk : ∀ i, (F.payAt i).isSome ↔ i < H.paySize) :
    ∃ F' ds, F.payloadDone H = .ok (F', ds) ∧ F'.Inv ∧ ds.length ≤ 1 := by
  obtain ⟨bs, hbs, hl, hb⟩ := Framer.payload_of_isSome (F := F) ha.2.2.2 fun i h => (hk i).2 h
  unfold Framer.payloadDone
  rw [hbs, Run.bind_ok]
  by_cases hc : payCrcOk bs = true
  · refine ⟨{ F with state := .complete }, [], by simp [hc], ⟨hw, hp, H, ha, hi, bs, hl, hc, fun i => ?_⟩, by simp⟩
    by_cases h : i < H.paySize
    · exact hb i h
    · rw [List.getElem?_eq_none (by omega)]
      show F.payAt i = none
      simpa using (hk i).not.2 h
  · exact ⟨F.toSync, [.payloadCrcMismatch H bs], by simp [hc], Framer.toSync_inv hw hp, by simp⟩

/-- `FR.BYTE` goes on from every framer that meets the invariant, keeps it, and raises at most one diagnostic. -/
theorem Framer.byte_spec {F : Framer} (b : Byte) (hF : F.Inv) :
    ∃ F' ds, F.byte b = .ok (F', ds) ∧ F'.Inv ∧ ds.length ≤ 1 := by
  obtain ⟨hw, hp, hs⟩ := id hF
  cases hst : F.state with
  | syncWait =>
    rw [hst] at hs
    obtain ⟨F', h', hi', -⟩ := Framer.gather_spec b hF (.inl hst) (by simp only at hs; omega)
    simp only [Framer.gather, hst, Except.ok.injEq] at h'
    exact ⟨F', [], by simp [Framer.byte, hst, h'], hi', by simp⟩
  | headerRead =>
    rw [hst] at hs
    obtain ⟨h1, h5, h0, hk⟩ := hs
    simp only [Framer.byte, hst, Framer.headerByte, Framer.storeHeader_of_lt (show F.idx < 6 by omega), Run.bind_ok]
    by_cases h6 : F.idx + 1 = Config.headerBytes
    · rw [if_pos h6]
      have hw' : Memory.wf Config.headerBytes (Memory.write F.hdr F.idx b) :=
        Memory.write_wf hw (show F.idx < 6 by omega)
      obtain ⟨H, hH⟩ := Framer.holds_of_isSome
        (F := { F with hdr := Memory.write F.hdr F.idx b, idx := F.idx + 1 }) (fun i hi => by
          simp only [Framer.hdrAt, Memory.read_write]
          by_cases he : F.idx = i
          · simp [he]
          · rw [if_neg he]
            simp only [Config.headerBytes] at h6
            exact hk i (by omega))
      have hsync : H.sync = Config.sync := by
        have := hH.1
        simp only [Framer.hdrAt, Memory.read_write] at this
        rw [if_neg (by omega), show Memory.read F.hdr 0 = some Config.sync from h0] at this
        exact (Option.some.inj this).symm
      obtain ⟨F', ds, h, hi, hd, -⟩ := Framer.headerDone_spec
        (F := { F with hdr := Memory.write F.hdr F.idx b, idx := F.idx + 1 }) hw' hp hH hsync
      exact ⟨F', ds, by rw [← h, hst], hi, hd⟩
    · rw [if_neg h6]
      simp only [Config.headerBytes] at h6
      obtain ⟨F', h', hi', -⟩ := Framer.gather_spec b hF (.inr hst) (by omega)
      simp only [Framer.gather, hst, Framer.storeHeader_of_lt (show F.idx < 6 by omega), Except.ok.injEq] at h'
      exact ⟨F', [], by rw [h'], hi', by simp⟩
  | dataRead =>
    rw [hst] at hs
    obtain ⟨H, ha, hlt, hk⟩ := hs
    have hle : H.paySize ≤ 300 := ha.2.2.2
    simp only [Framer.byte, hst, Framer.dataByte, Framer.header_eq_ok.2 ha.1, Run.bind_ok,
      Framer.storePayload_of_lt hlt hle]
    have hp' : Memory.wf Config.maxPayload (Memory.write F.pay F.idx b) :=
      Memory.write_wf hp (show F.idx < 300 by omega)
    have hk' : ∀ i, (Memory.read (Memory.write F.pay F.idx b) i).isSome ↔ i < F.idx + 1 := by
      intro i
      rw [Memory.read_write]
      by_cases he : F.idx = i
      · simp [he]
      · rw [if_neg he]
        rw [show (Memory.read F.pay i).isSome = true ↔ i < F.idx from hk i]
        omega
    by_cases hn : F.idx + 1 = H.paySize
    · rw [if_pos hn]
      exact Framer.payloadDone_spec (F := { F with pay := Memory.write F.pay F.idx b, idx := F.idx + 1 })
        hw hp' ha hn (fun i => by rw [← hn]; exact hk' i)
    · rw [if_neg hn]
      exact ⟨{ state := .dataRead, idx := F.idx + 1, hdr := F.hdr, pay := Memory.write F.pay F.idx b }, [], rfl,
        ⟨hw, hp', H, ha, show F.idx + 1 < H.paySize by omega, hk'⟩, by simp⟩
  | complete => exact ⟨F, [], by simp [Framer.byte, hst], hF, by simp⟩

/-- The loop of `FR.ACCEPT` goes on, keeps the invariant, consumes no more than it is given, consumes something
where it is given something, and consumes all where it does not complete. -/
theorem Framer.acceptLoop_spec {bs : List Byte} {F : Framer} (hF : F.Inv) :
    ∃ n F' ds, Framer.acceptLoop bs F = .ok (n, F', ds) ∧ F'.Inv ∧ n ≤ bs.length ∧ (bs ≠ [] → 1 ≤ n) ∧
      (F'.isComplete = false → n = bs.length) := by
  induction bs generalizing F with
  | nil => exact ⟨0, F, [], rfl, hF, by simp, by simp, by simp⟩
  | cons b bs ih =>
    obtain ⟨F₁, ds₁, h₁, hi₁, -⟩ := Framer.byte_spec b hF
    by_cases hc : F₁.isComplete = true
    · exact ⟨1, F₁, ds₁, by simp [Framer.acceptLoop, h₁, hc], hi₁, by simp, by simp, by simp [hc]⟩
    · obtain ⟨n, F₂, ds₂, h₂, hi₂, hn, -, hx⟩ := ih hi₁
      exact ⟨n + 1, F₂, ds₁ ++ ds₂, by simp [Framer.acceptLoop, h₁, hc, h₂], hi₂, by simpa using hn, by simp,
        fun h => by simp [hx h]⟩

/-- A complete framer that meets the invariant hands over a completed packet, the bytes it holds. -/
theorem Framer.take_spec {F : Framer} (hF : F.Inv) (hc : F.isComplete = true) :
    ∃ P, F.take = .ok P ∧ P.completed = true ∧ F.holds P.hdr ∧ ∀ i, F.payAt i = P.pay[i]? := by
  obtain ⟨-, -, hs⟩ := hF
  have hst : F.state = .complete := by simpa [Framer.isComplete] using hc
  rw [hst] at hs
  obtain ⟨H, ha, -, bs, hl, hcrc, hb⟩ := hs
  have hle : H.paySize ≤ 300 := ha.2.2.2
  refine ⟨⟨H, bs⟩, ?_, ?_, ha.1, hb⟩
  · have : F.payload H.paySize = .ok bs :=
      readBytes_eq_ok.2 ⟨hl, fun k hk => ⟨by simp only [Config.maxPayload]; omega, by rw [Nat.zero_add]; exact hb k⟩⟩
    simp [Framer.take, hc, Framer.header_eq_ok.2 ha.1, this]
  · have ho : H.oversize = false := by
      exact decide_eq_false (show ¬ Config.maxPayload < H.paySize from Nat.not_lt.2 hle)
    simp [Packet.completed, ha.2.1, Header.valid, ha.2.2.1, Packet.sized, hl, hcrc, ho]

end Sys2Proof.Machine
end

