-- ==== Sys2Proof/Laws/Channel.lean ====
section
/-! SUPPORT. The channel as a fold over bytes: the framing loop of R222 equals the byte-by-byte form `rxFold`, from
which its termination, its independence of the chunking and the invariant follow. -/

namespace Sys2Proof.Machine

open Sys2Proof

/-- One byte framed and, where it completes a packet, the packet handed over. -/
def rxByte (π : Config.Params) (b : Byte) (s : State) : Run State := do
  let (F, ds) ← s.fr.byte b
  deliver π ((s.withFramer F).raiseAll ds)

/-- The bytes one after the other. -/
def rxFold (π : Config.Params) : List Byte → State → Run State
  | [], s => .ok s
  | b :: bs, s => do
      let s' ← rxByte π b s
      rxFold π bs s'

theorem rxFold_append (π : Config.Params) (A B : List Byte) (s : State) :
    rxFold π (A ++ B) s = rxFold π A s >>= rxFold π B := by
  induction A generalizing s with
  | nil => rfl
  | cons b A ih =>
    simp only [List.cons_append, rxFold]
    rcases rxByte π b s with e | s'
    · rfl
    · exact ih s'

/-- The hand-over does nothing where the framer is not complete. -/
theorem deliver_of_not {π : Config.Params} {s : State} (h : s.fr.isComplete = false) : deliver π s = .ok s := by
  simp [deliver, h]

/-- After the hand-over the framer is not complete, and everything the dispatcher keeps is kept. -/
theorem deliver_spec {π : Config.Params} {s s' : State} (h : deliver π s = .ok s') :
    s'.fr.isComplete = false ∧ s'.dbmMin = s.dbmMin ∧ s'.result = s.result ∧ s'.issue = s.issue ∧
      ∃ os, s'.outputs = s.outputs ++ os := by
  unfold deliver at h
  split at h
  · obtain ⟨P, -, h⟩ := Run.bind_eq_ok.1 h
    have hk := handle_kept h
    refine ⟨?_, hk.dbmMin, hk.result, hk.issue, hk.outputs⟩
    rw [hk.fr]
    rfl
  · rename_i hc
    cases h
    exact ⟨by simpa using hc, rfl, rfl, rfl, [], by simp⟩

/-- The loop of `FR.ACCEPT` followed by the hand-over and the rest of the chunk is the fold. -/
theorem rxFold_eq_acceptLoop (π : Config.Params) (bs : List Byte) {s : State} (h : s.fr.isComplete = false) :
    rxFold π bs s = (do
      let (n, F, ds) ← Framer.acceptLoop bs s.fr
      let s' ← deliver π ((s.withFramer F).raiseAll ds)
      rxFold π (bs.drop n) s') := by
  induction bs generalizing s with
  | nil =>
    have : (s.withFramer s.fr).raiseAll [] = s := by simp [State.raiseAll, State.withFramer]
    simp [Framer.acceptLoop, rxFold, this, deliver_of_not h]
  | cons b bs ih =>
    rw [rxFold, rxByte, Framer.acceptLoop]
    rcases s.fr.byte b with e | ⟨F, ds⟩
    · rfl
    · simp only [Run.bind_ok]
      by_cases hc : F.isComplete = true
      · simp [hc]
      · have hc' : ((s.withFramer F).raiseAll ds).fr.isComplete = false := by simpa using hc
        rw [deliver_of_not hc', Run.bind_ok, ih hc', if_neg hc]
        simp only [State.raiseAll_fr, State.withFramer_fr]
        rcases Framer.acceptLoop bs F with e | ⟨n, F', ds'⟩
        · rfl
        · simp only [Run.bind_ok, List.drop_succ_cons]
          congr 2
          simp [State.raiseAll, State.emitAll, State.withFramer, List.append_assoc]

/-- A round of the loop on a framer that is not complete consumes a byte (R222). -/
theorem Framer.acceptLoop_pos {b : Byte} {bs : List Byte} {F F' : Framer} {n : Nat} {ds : List Diag}
    (h : Framer.acceptLoop (b :: bs) F = .ok (n, F', ds)) : 1 ≤ n := by
  rw [Framer.acceptLoop] at h
  obtain ⟨⟨F₁, ds₁⟩, -, h⟩ := Run.bind_eq_ok.1 h
  simp only at h
  split at h
  · cases h
    exact Nat.le_refl 1
  · obtain ⟨⟨m, F₂, ds₂⟩, -, h⟩ := Run.bind_eq_ok.1 h
    cases h
    omega

/-- With as much fuel as bytes, the framing loop is the fold. -/
theorem rxLoop_eq_rxFold (π : Config.Params) {fuel : Nat} {bs : List Byte} {s : State} (hl : bs.length ≤ fuel)
    (h : s.fr.isComplete = false) : rxLoop π fuel bs s = rxFold π bs s := by
  induction fuel generalizing bs s with
  | zero =>
    rw [List.length_eq_zero_iff.1 (Nat.le_zero.1 hl)]
    rfl
  | succ fuel ih =>
    cases bs with
    | nil => rfl
    | cons b bs =>
      rw [rxLoop, Framer.accept, if_neg (by simp [h]), rxFold_eq_acceptLoop π _ h]
      rcases hA : Framer.acceptLoop (b :: bs) s.fr with e | ⟨n, F, ds⟩
      · rfl
      · simp only [Run.bind_ok]
        rcases hd : deliver π ((s.withFramer F).raiseAll ds) with e | s'
        · rfl
        · have := Framer.acceptLoop_pos hA
          simp only [List.length_cons] at hl
          exact ih (by simp only [List.length_drop, List.length_cons]; omega) (deliver_spec hd).1

/-- An error-free chunk: a complete framer is handed over first, then the bytes are framed one by one. -/
theorem rxChunk_eq (π : Config.Params) (bs : List Byte) (s : State) :
    rxChunk π bs s = if bs = [] then .ok s else deliver π s >>= rxFold π bs := by
  cases bs with
  | nil => rfl
  | cons b bs =>
    rw [if_neg (by simp)]
    by_cases h : s.fr.isComplete = true
    · rw [rxChunk, List.length_cons, rxLoop, Framer.accept, if_pos h]
      have : (s.withFramer s.fr).raiseAll [] = s := by simp [State.raiseAll, State.withFramer]
      simp only [Run.bind_ok, this, List.drop_zero]
      rcases hd : deliver π s with e | s'
      · rfl
      · exact rxLoop_eq_rxFold π (by simp) (deliver_spec hd).1
    · have h : s.fr.isComplete = false := by simpa using h
      rw [deliver_of_not h, Run.bind_ok, rxChunk, rxLoop_eq_rxFold π (by simp) h]

theorem rxChunk_of_not (π : Config.Params) (bs : List Byte) {s : State} (h : s.fr.isComplete = false) :
    rxChunk π bs s = rxFold π bs s := by
  rw [rxChunk_eq, deliver_of_not h]
  split
  · rename_i hb
    rw [hb]
    rfl
  · rfl

/-- After any byte the framer is not complete. -/
theorem rxByte_spec {π : Config.Params} {b : Byte} {s s' : State} (h : rxByte π b s = .ok s') :
    s'.fr.isComplete = false ∧ s'.dbmMin = s.dbmMin ∧ s'.result = s.result ∧ s'.issue = s.issue ∧
      ∃ os, s'.outputs = s.outputs ++ os := by
  obtain ⟨⟨F, ds⟩, -, h⟩ := Run.bind_eq_ok.1 h
  obtain ⟨h0, h1, h2, h3, os, h4⟩ := deliver_spec h
  exact ⟨h0, h1, h2, h3, ds.map .diag ++ os, by simpa [List.append_assoc] using h4⟩

theorem rxFold_spec {π : Config.Params} {bs : List Byte} {s s' : State} (h : rxFold π bs s = .ok s') :
    (s.fr.isComplete = false → s'.fr.isComplete = false) ∧ (bs ≠ [] → s'.fr.isComplete = false) ∧
      s'.dbmMin = s.dbmMin ∧ s'.result = s.result ∧ s'.issue = s.issue ∧
      ∃ os, s'.outputs = s.outputs ++ os := by
  induction bs generalizing s with
  | nil =>
    cases h
    exact ⟨id, fun h => absurd rfl h, rfl, rfl, rfl, [], by simp⟩
  | cons b bs ih =>
    obtain ⟨s₁, h₁, h⟩ := Run.bind_eq_ok.1 h
    obtain ⟨a0, a1, a2, a3, os, a4⟩ := rxByte_spec h₁
    obtain ⟨b0, -, b1, b2, b3, os', b4⟩ := ih h
    exact ⟨fun _ => b0 a0, fun _ => b0 a0, b1.trans a1, b2.trans a2, b3.trans a3, os ++ os',
      by rw [b4, a4, List.append_assoc]⟩

/-- Cutting a chunk in two changes nothing, from any state (R223). -/
theorem rxChunk_append (π : Config.Params) (A B : List Byte) (s : State) :
    rxChunk π (A ++ B) s = rxChunk π A s >>= rxChunk π B := by
  cases A with
  | nil => rfl
  | cons a A =>
    rw [rxChunk_eq, if_neg (by simp), rxChunk_eq, if_neg (by simp)]
    rcases deliver π s with e | s₁
    · rfl
    · simp only [Run.bind_ok, rxFold_append]
      rcases hf : rxFold π (a :: A) s₁ with e | s₂
      · rfl
      · exact (rxChunk_of_not π B ((rxFold_spec hf).2.1 (by simp))).symm

/-! The invariant, with an unbounded registry (D20). -/

/-- The hand-over from a state that meets the invariant goes on and keeps it: the packet taken is completed. -/
theorem deliver_inv {π : Config.Params} (hu : π.regCapacity = none) {s : State} (hF : s.fr.Inv) :
    ∃ s', deliver π s = .ok s' ∧ s'.fr.Inv ∧ (Registry.Inv s.reg → Registry.Inv s'.reg) := by
  by_cases hc : s.fr.isComplete = true
  · obtain ⟨P, hP, hPc, -⟩ := Framer.take_spec hF hc
    obtain ⟨s', h, hk, hr⟩ := handle_spec hu hPc (s.withFramer Framer.fresh)
    refine ⟨s', by simp [deliver, hc, hP, h], ?_, hr⟩
    rw [hk.fr]
    exact Framer.fresh_inv
  · exact ⟨s, deliver_of_not (by simpa using hc), hF, id⟩

theorem rxByte_inv {π : Config.Params} (hu : π.regCapacity = none) (b : Byte) {s : State} (hF : s.fr.Inv) :
    ∃ s', rxByte π b s = .ok s' ∧ s'.fr.Inv ∧ (Registry.Inv s.reg → Registry.Inv s'.reg) := by
  obtain ⟨F, ds, hb, hi, -⟩ := Framer.byte_spec b hF
  obtain ⟨s', h, hi', hr⟩ := deliver_inv hu (s := (s.withFramer F).raiseAll ds) hi
  exact ⟨s', by simp [rxByte, hb, h], hi', hr⟩

theorem rxFold_inv {π : Config.Params} (hu : π.regCapacity = none) (bs : List Byte) {s : State} (hF : s.fr.Inv) :
    ∃ s', rxFold π bs s = .ok s' ∧ s'.fr.Inv ∧ (Registry.Inv s.reg → Registry.Inv s'.reg) := by
  induction bs generalizing s with
  | nil => exact ⟨s, rfl, hF, id⟩
  | cons b bs ih =>
    obtain ⟨s₁, h₁, hi₁, hr₁⟩ := rxByte_inv hu b hF
    obtain ⟨s₂, h₂, hi₂, hr₂⟩ := ih hi₁
    exact ⟨s₂, by simp [rxFold, h₁, h₂], hi₂, hr₂ ∘ hr₁⟩

/-- A chunk from a state that meets the invariant goes on and keeps it. -/
theorem rxChunk_inv {π : Config.Params} (hu : π.regCapacity = none) (bs : List Byte) {s : State} (hF : s.fr.Inv) :
    ∃ s', rxChunk π bs s = .ok s' ∧ s'.fr.Inv ∧ (Registry.Inv s.reg → Registry.Inv s'.reg) := by
  rw [rxChunk_eq]
  split
  · exact ⟨s, rfl, hF, id⟩
  · obtain ⟨s₁, h₁, hi₁, hr₁⟩ := deliver_inv hu hF
    obtain ⟨s₂, h₂, hi₂, hr₂⟩ := rxFold_inv hu bs hi₁
    exact ⟨s₂, by rw [h₁, Run.bind_ok, h₂], hi₂, hr₂ ∘ hr₁⟩

/-- What a chunk keeps, from any state it goes on from. -/
theorem rxChunk_spec {π : Config.Params} {bs : List Byte} {s s' : State} (h : rxChunk π bs s = .ok s') :
    (bs ≠ [] ∨ s.fr.isComplete = false → s'.fr.isComplete = false) ∧ s'.dbmMin = s.dbmMin ∧
      s'.result = s.result ∧ s'.issue = s.issue ∧ ∃ os, s'.outputs = s.outputs ++ os := by
  rw [rxChunk_eq] at h
  split at h
  · rename_i hb
    cases h
    exact ⟨fun h => h.resolve_left fun hn => hn hb, rfl, rfl, rfl, [], by simp⟩
  · rename_i hb
    obtain ⟨s₁, h₁, h⟩ := Run.bind_eq_ok.1 h
    obtain ⟨-, a1, a2, a3, os, a4⟩ := deliver_spec h₁
    obtain ⟨-, b0, b1, b2, b3, os', b4⟩ := rxFold_spec h
    exact ⟨fun _ => b0 hb, b1.trans a1, b2.trans a2, b3.trans a3, os ++ os',
      by rw [b4, a4, List.append_assoc]⟩

end Sys2Proof.Machine
end

