-- ==== Sys2Proof/Laws/Decode.lean ====
section
/-! SUPPORT. The reader of each operand field undoes its writer, whatever bytes follow. -/

namespace Sys2Proof

@[simp] theorem Except.bind_ok_eq {ε α β : Type} (a : α) (f : α → Except ε β) : ((Except.ok a : Except ε α) >>= f) = f a :=
  rfl

@[simp] theorem takeByte_cons (b : Byte) (bs : List Byte) : takeByte (b :: bs) = .ok (b, bs) := rfl

theorem takeBytes_append {n : Nat} (xs r : List Byte) (h : xs.length = n) : takeBytes n (xs ++ r) = .ok (xs, r) := by
  subst h
  simp [takeBytes]

/-- A byte put below a bit vector, as numbers. -/
theorem toNat_append_byte {w : Nat} (x : BitVec w) (y : Byte) : (x ++ y).toNat = 256 * x.toNat + y.toNat := by
  have := y.isLt
  rw [BitVec.toNat_append, Nat.shiftLeft_eq, Nat.mul_comm, ← Nat.two_pow_add_eq_or_of_lt (by omega)]

/-- `be16` as numbers (00_scope.md section 6). -/
theorem be16_toNat (b0 b1 : Byte) : (be16 b0 b1).toNat = 256 * b0.toNat + b1.toNat := toNat_append_byte b0 b1

/-- `be32` as numbers. -/
theorem be32_toNat (b0 b1 b2 b3 : Byte) :
    (be32 b0 b1 b2 b3).toNat = 16777216 * b0.toNat + 65536 * b1.toNat + 256 * b2.toNat + b3.toNat := by
  have h3 : (be32 b0 b1 b2 b3).toNat = _ := toNat_append_byte (b0 ++ b1 ++ b2) b3
  have h2 := toNat_append_byte (b0 ++ b1) b2
  have h1 := toNat_append_byte b0 b1
  omega

/-- `profileOf` as numbers (R63). -/
theorem profileOf_toNat (r f t : Byte) : (profileOf r f t).toNat = 65536 * r.toNat + 256 * f.toNat + t.toNat := by
  have h2 : (profileOf r f t).toNat = _ := toNat_append_byte (r ++ f) t
  have h1 := toNat_append_byte r f
  omega

/-- Byte `k` of a bit vector, as a number. -/
theorem toNat_byte {w : Nat} (x : BitVec w) (k : Nat) : (x.extractLsb' k 8).toNat = x.toNat / 2 ^ k % 256 := by
  rw [BitVec.extractLsb'_toNat, Nat.shiftRight_eq_div_pow]

theorem be16_encHalf {n : Nat} (h : n < 65536) : (be16 (BitVec.ofNat 8 (n / 256)) (BitVec.ofNat 8 n)).toNat = n := by
  rw [be16_toNat, BitVec.toNat_ofNat, BitVec.toNat_ofNat]
  omega

theorem takeSeq_encSeq (bs r : List Byte) (h : bs.length < 65536) : takeSeq (encSeq bs ++ r) = .ok (bs, r) := by
  simp only [takeSeq, encSeq, encHalf, List.cons_append, List.nil_append, takeByte_cons, Except.bind_ok_eq,
    be16_encHalf h]
  exact takeBytes_append bs r rfl

theorem be32_encAddr (a : Addr) :
    be32 (a.extractLsb' 24 8) (a.extractLsb' 16 8) (a.extractLsb' 8 8) (a.extractLsb' 0 8) = a := by
  apply BitVec.eq_of_toNat_eq
  have := a.isLt
  simp only [be32_toNat, toNat_byte]
  omega

@[simp] theorem takeAddr_encAddr (a : Addr) (r : List Byte) : takeAddr (encAddr a ++ r) = .ok (a, r) := by
  simp only [takeAddr, encAddr, List.cons_append, List.nil_append, takeByte_cons, Except.bind_ok_eq, be32_encAddr]

theorem profileOf_encProfile (p : ProfileId) :
    profileOf (p.extractLsb' 16 8) (p.extractLsb' 8 8) (p.extractLsb' 0 8) = p := by
  apply BitVec.eq_of_toNat_eq
  have := p.isLt
  simp only [profileOf_toNat, toNat_byte]
  omega

@[simp] theorem takeProfile_encProfile (p : ProfileId) (r : List Byte) :
    takeProfile (encProfile p ++ r) = .ok (p, r) := by
  simp only [takeProfile, encProfile, List.cons_append, List.nil_append, takeByte_cons, Except.bind_ok_eq,
    profileOf_encProfile]

@[simp] theorem takeChannel_encChannel (ch : Channel) (r : List Byte) :
    takeChannel (encChannel ch :: r) = .ok (ch, r) := by
  revert ch
  have : ∀ ch : Channel, (encChannel ch).toNat < 4 ∧ (encChannel ch).setWidth 2 = ch := by decide
  intro ch
  simp [takeChannel, this ch]

@[simp] theorem ruleTagOf_encRuleTag (t : RuleTag) : ruleTagOf (encRuleTag t) = .ok t := by
  cases t <;> rfl

theorem be16_halves (m : BitVec 16) : be16 (m.extractLsb' 8 8) (m.extractLsb' 0 8) = m := by
  apply BitVec.eq_of_toNat_eq
  have := m.isLt
  simp only [be16_toNat, toNat_byte]
  omega

theorem takeRecord_encRecord (h : Handler) (r : List Byte) (hf : h.fits = true) :
    takeRecord (encRecord h ++ r) = .ok (h, r) := by
  simp only [Handler.fits, Bool.and_eq_true, decide_eq_true_eq] at hf
  have h1 : (BitVec.ofNat 8 h.subdeviceIndex).toNat = h.subdeviceIndex := by
    simp only [BitVec.toNat_ofNat]
    omega
  have h2 : (BitVec.ofNat 8 h.sink).toNat = h.sink := by
    simp only [BitVec.toNat_ofNat]
    omega
  simp only [takeRecord, encRecord, List.append_assoc, List.cons_append, List.nil_append, takeAddr_encAddr,
    takeByte_cons, takeProfile_encProfile, ruleTagOf_encRuleTag, takeChannel_encChannel, Except.bind_ok_eq,
    be16_halves, h1, h2]

/-- A completed packet is the one its free bytes build. -/
theorem Packet.build_of_completed {P : Packet} (hc : P.completed = true) :
    Packet.build P.hdr.lenHi P.hdr.lenLo P.hdr.optLen P.hdr.ptype P.pay.dropLast = P := by
  simp only [Packet.completed, Header.valid, Bool.and_eq_true, beq_iff_eq, Header.crcOk, payCrcOk] at hc
  obtain ⟨⟨⟨hs, hh, -⟩, -⟩, hp⟩ := hc
  obtain ⟨⟨sy, h, l, o, t, c⟩, pay⟩ := P
  simp only at hs hp
  subst hs
  simp only [Header.covered] at hh
  simp only [Packet.build, hh, Packet.mk.injEq, true_and]
  obtain ⟨ys, y, rfl⟩ : ∃ ys y, pay = ys ++ [y] := by
    rcases List.eq_nil_or_concat pay with rfl | ⟨ys, y, rfl⟩
    · simp at hp
    · exact ⟨ys, y, by simp⟩
  simp only [List.getLast?_append, List.getLast?_singleton, Option.some_or, Option.some.injEq,
    List.dropLast_concat] at hp
  simp [hp]

/-- A packet operand reads back as itself, whatever follows it. -/
theorem takePacket_encPacket {P : Packet} (r : List Byte) (hc : P.completed = true) :
    takePacket (encPacket P ++ r) = .ok (P, r) := by
  have hb := Packet.build_of_completed hc
  simp only [Packet.completed, Header.valid, Header.oversize, Packet.sized, Bool.and_eq_true, beq_iff_eq,
    Bool.not_eq_true', decide_eq_false_iff_not] at hc
  obtain ⟨⟨⟨-, -, ho⟩, hl⟩, -⟩ := hc
  simp only [takePacket, encPacket, List.cons_append, List.nil_append, takeByte_cons, Except.bind_ok_eq]
  rw [if_neg (show ¬ Config.maxPayload < (be16 P.hdr.lenHi P.hdr.lenLo).toNat + P.hdr.optLen.toNat + 1 from ho),
    takeBytes_append P.pay.dropLast r (by rw [List.length_dropLast, hl]; rfl), Except.bind_ok_eq, hb]

theorem takeOnPacket_encPacket {P : Packet} (f : Packet → Instr) (hc : P.completed = true) :
    takeOnPacket f (encPacket P) = .ok (f P, []) := by
  have := takePacket_encPacket [] hc
  rw [List.append_nil] at this
  simp only [takeOnPacket, this, Except.bind_ok_eq]

theorem errOf_encErr {err : Option Nat} (h : errFits err = true) : errOf (encErr err) = err := by
  cases err with
  | none => rfl
  | some e =>
    simp only [errFits, Bool.and_eq_true, decide_eq_true_eq] at h
    have ht : (BitVec.ofNat 8 e).toNat = e := by
      simp only [BitVec.toNat_ofNat]
      omega
    have hz : BitVec.ofNat 8 e ≠ 0x00#8 := by
      intro hz
      rw [hz] at ht
      simp only [BitVec.toNat_ofNat] at ht
      omega
    show (if BitVec.ofNat 8 e = 0x00#8 then none else some (BitVec.ofNat 8 e).toNat) = some e
    rw [if_neg hz, ht]

/-- A whole line of an operation: its operands must be consumed to the last byte. -/
theorem decodeLine_opLine {op : Byte} {operands : List Byte} {i : Instr}
    (h : decodeOperation op operands = .ok (i, [])) : decodeLine (opLine op operands) = .ok i := by
  simp only [decodeLine, opLine, decodePrefix, takeByte_cons, Except.bind_ok_eq, h, if_true]

/-- An operation whose only operand is a packet reads back as itself. -/
theorem decodeLine_onPacket {op : Byte} {P : Packet} {f : Packet → Instr} (hc : P.completed = true)
    (h : decodeOperation op (encPacket P) = takeOnPacket f (encPacket P)) :
    decodeLine (opLine op (encPacket P)) = .ok (f P) :=
  decodeLine_opLine (h.trans (takeOnPacket_encPacket f hc))

/-! The other direction: what a reader read is what the writer writes. -/

theorem Except.bind_eq_ok_iff {ε α β : Type} {x : Except ε α} {f : α → Except ε β} {b : β} :
    x >>= f = .ok b ↔ ∃ a, x = .ok a ∧ f a = .ok b := by
  cases x with
  | error e => exact ⟨fun h => (nomatch h), fun ⟨_, h, _⟩ => (nomatch h)⟩
  | ok a => exact ⟨fun h => ⟨a, rfl, h⟩, fun ⟨_, h, h'⟩ => by cases h; exact h'⟩

theorem takeByte_eq_ok {bs r : List Byte} {b : Byte} (h : takeByte bs = .ok (b, r)) : bs = b :: r := by
  cases bs with
  | nil => cases h
  | cons c cs =>
    cases h
    rfl

theorem takeBytes_eq_ok {n : Nat} {bs xs r : List Byte} (h : takeBytes n bs = .ok (xs, r)) :
    bs = xs ++ r ∧ xs.length = n := by
  unfold takeBytes at h
  split at h
  · rename_i hn
    cases h
    exact ⟨(List.take_append_drop n bs).symm, by simpa using hn⟩
  · cases h

theorem encHalf_be16 (hi lo : Byte) : encHalf (be16 hi lo).toNat = [hi, lo] := by
  have h1 := hi.isLt
  have h2 := lo.isLt
  simp only [encHalf, be16_toNat, List.cons.injEq, and_true]
  constructor <;> apply BitVec.eq_of_toNat_eq <;> rw [BitVec.toNat_ofNat] <;> omega

theorem takeSeq_eq_ok {bs xs r : List Byte} (h : takeSeq bs = .ok (xs, r)) :
    xs.length < 65536 ∧ bs = encSeq xs ++ r := by
  obtain ⟨⟨hi, bs₁⟩, h₁, h⟩ := Except.bind_eq_ok_iff.1 h
  obtain ⟨⟨lo, bs₂⟩, h₂, h⟩ := Except.bind_eq_ok_iff.1 h
  obtain ⟨h, hl⟩ := takeBytes_eq_ok h
  refine ⟨by rw [hl]; exact (be16 hi lo).isLt, ?_⟩
  rw [takeByte_eq_ok h₁, takeByte_eq_ok h₂, h, encSeq, hl, encHalf_be16]
  rfl

theorem encAddr_be32 (b0 b1 b2 b3 : Byte) : encAddr (be32 b0 b1 b2 b3) = [b0, b1, b2, b3] := by
  have h0 := b0.isLt
  have h1 := b1.isLt
  have h2 := b2.isLt
  have h3 := b3.isLt
  simp only [encAddr, List.cons.injEq, and_true]
  refine ⟨?_, ?_, ?_, ?_⟩ <;> apply BitVec.eq_of_toNat_eq <;> rw [toNat_byte, be32_toNat] <;> omega

theorem takeAddr_eq_ok {bs r : List Byte} {a : Addr} (h : takeAddr bs = .ok (a, r)) : bs = encAddr a ++ r := by
  obtain ⟨⟨b0, bs₁⟩, h₁, h⟩ := Except.bind_eq_ok_iff.1 h
  obtain ⟨⟨b1, bs₂⟩, h₂, h⟩ := Except.bind_eq_ok_iff.1 h
  obtain ⟨⟨b2, bs₃⟩, h₃, h⟩ := Except.bind_eq_ok_iff.1 h
  obtain ⟨⟨b3, bs₄⟩, h₄, h⟩ := Except.bind_eq_ok_iff.1 h
  cases h
  rw [takeByte_eq_ok h₁, takeByte_eq_ok h₂, takeByte_eq_ok h₃, takeByte_eq_ok h₄, encAddr_be32]
  rfl

theorem encProfile_profileOf (r f t : Byte) : encProfile (profileOf r f t) = [r, f, t] := by
  have h0 := r.isLt
  have h1 := f.isLt
  have h2 := t.isLt
  simp only [encProfile, List.cons.injEq, and_true]
  refine ⟨?_, ?_, ?_⟩ <;> apply BitVec.eq_of_toNat_eq <;> rw [toNat_byte, profileOf_toNat] <;> omega

theorem takeProfile_eq_ok {bs r : List Byte} {p : ProfileId} (h : takeProfile bs = .ok (p, r)) :
    bs = encProfile p ++ r := by
  obtain ⟨⟨b0, bs₁⟩, h₁, h⟩ := Except.bind_eq_ok_iff.1 h
  obtain ⟨⟨b1, bs₂⟩, h₂, h⟩ := Except.bind_eq_ok_iff.1 h
  obtain ⟨⟨b2, bs₃⟩, h₃, h⟩ := Except.bind_eq_ok_iff.1 h
  cases h
  rw [takeByte_eq_ok h₁, takeByte_eq_ok h₂, takeByte_eq_ok h₃, encProfile_profileOf]
  rfl

theorem takeChannel_eq_ok {bs r : List Byte} {ch : Channel} (h : takeChannel bs = .ok (ch, r)) :
    bs = encChannel ch :: r := by
  obtain ⟨⟨b, bs₁⟩, h₁, h⟩ := Except.bind_eq_ok_iff.1 h
  simp only at h
  split at h
  · rename_i hb
    cases h
    rw [takeByte_eq_ok h₁]
    congr 1
    apply BitVec.eq_of_toNat_eq
    simp only [encChannel, BitVec.toNat_setWidth]
    omega
  · cases h

theorem ruleTagOf_eq_ok {b : Byte} {t : RuleTag} (h : ruleTagOf b = .ok t) : encRuleTag t = b := by
  unfold ruleTagOf at h
  split at h <;> rename_i hb <;> cases h <;> exact (BitVec.eq_of_toNat_eq hb).symm

theorem bytes_be16 (m1 m0 : Byte) :
    (be16 m1 m0).extractLsb' 8 8 = m1 ∧ (be16 m1 m0).extractLsb' 0 8 = m0 := by
  have h0 := m0.isLt
  have h1 := m1.isLt
  constructor <;> apply BitVec.eq_of_toNat_eq <;> rw [toNat_byte, be16_toNat] <;> omega

theorem takeRecord_eq_ok {bs r : List Byte} {h : Handler} (e : takeRecord bs = .ok (h, r)) :
    h.fits = true ∧ bs = encRecord h ++ r := by
  obtain ⟨⟨a, bs₁⟩, h₁, e⟩ := Except.bind_eq_ok_iff.1 e
  obtain ⟨⟨sub, bs₂⟩, h₂, e⟩ := Except.bind_eq_ok_iff.1 e
  obtain ⟨⟨p, bs₃⟩, h₃, e⟩ := Except.bind_eq_ok_iff.1 e
  obtain ⟨⟨m1, bs₄⟩, h₄, e⟩ := Except.bind_eq_ok_iff.1 e
  obtain ⟨⟨m0, bs₅⟩, h₅, e⟩ := Except.bind_eq_ok_iff.1 e
  obtain ⟨⟨t, bs₆⟩, h₆, e⟩ := Except.bind_eq_ok_iff.1 e
  obtain ⟨tag, h₇, e⟩ := Except.bind_eq_ok_iff.1 e
  obtain ⟨⟨ch, bs₈⟩, h₈, e⟩ := Except.bind_eq_ok_iff.1 e
  obtain ⟨⟨sink, bs₉⟩, h₉, e⟩ := Except.bind_eq_ok_iff.1 e
  cases e
  have hs := sub.isLt
  have hk := sink.isLt
  refine ⟨by simp [Handler.fits]; omega, ?_⟩
  simp only [takeAddr_eq_ok h₁, takeByte_eq_ok h₂, takeProfile_eq_ok h₃, takeByte_eq_ok h₄, takeByte_eq_ok h₅,
    takeByte_eq_ok h₆, takeChannel_eq_ok h₈, takeByte_eq_ok h₉, encRecord, ruleTagOf_eq_ok h₇, bytes_be16,
    BitVec.ofNat_toNat, BitVec.setWidth_eq, List.append_assoc, List.cons_append, List.nil_append]

theorem Packet.build_completed {hi lo ol ty : Byte} {body : List Byte}
    (hl : body.length = (be16 hi lo).toNat + ol.toNat)
    (hs : (be16 hi lo).toNat + ol.toNat + 1 ≤ Config.maxPayload) :
    (Packet.build hi lo ol ty body).completed = true := by
  have ho : (Packet.build hi lo ol ty body).hdr.oversize = false :=
    decide_eq_false (show ¬ Config.maxPayload < (be16 hi lo).toNat + ol.toNat + 1 from Nat.not_lt.2 hs)
  have hz : (Packet.build hi lo ol ty body).sized = true := by
    refine beq_iff_eq.2 ?_
    simp only [Packet.build, List.length_append, List.length_singleton, hl]
    rfl
  simp only [Packet.completed, Header.valid, ho, hz]
  simp [Packet.build, Header.crcOk, Header.covered, payCrcOk]

theorem takePacket_eq_ok {bs r : List Byte} {P : Packet} (h : takePacket bs = .ok (P, r)) :
    P.completed = true ∧ bs = encPacket P ++ r := by
  obtain ⟨⟨hi, bs₁⟩, h₁, h⟩ := Except.bind_eq_ok_iff.1 h
  obtain ⟨⟨lo, bs₂⟩, h₂, h⟩ := Except.bind_eq_ok_iff.1 h
  obtain ⟨⟨ol, bs₃⟩, h₃, h⟩ := Except.bind_eq_ok_iff.1 h
  obtain ⟨⟨ty, bs₄⟩, h₄, h⟩ := Except.bind_eq_ok_iff.1 h
  simp only at h
  split at h
  · cases h
  · rename_i hs
    obtain ⟨⟨body, bs₅⟩, h₅, h⟩ := Except.bind_eq_ok_iff.1 h
    cases h
    obtain ⟨h₅, hl⟩ := takeBytes_eq_ok h₅
    refine ⟨Packet.build_completed (body := body) (by omega) (Nat.not_lt.1 hs), ?_⟩
    rw [takeByte_eq_ok h₁, takeByte_eq_ok h₂, takeByte_eq_ok h₃, takeByte_eq_ok h₄, h₅]
    simp [encPacket, Packet.build]

theorem encErr_errOf (flag : Byte) : errFits (errOf flag) = true ∧ encErr (errOf flag) = flag := by
  unfold errOf
  split
  · rename_i h
    exact ⟨rfl, h.symm⟩
  · rename_i h
    have hlt := flag.isLt
    have hne : flag.toNat ≠ 0 := fun e => h (BitVec.eq_of_toNat_eq e)
    refine ⟨by simp [errFits]; omega, by simp [encErr]⟩

theorem takeChunk_eq_ok {bs r chunk : List Byte} {err : Option Nat} (h : takeChunk bs = .ok ((chunk, err), r)) :
    chunk.length < 65536 ∧ errFits err = true ∧ bs = encHalf chunk.length ++ [encErr err] ++ chunk ++ r := by
  obtain ⟨⟨hi, bs₁⟩, h₁, h⟩ := Except.bind_eq_ok_iff.1 h
  obtain ⟨⟨lo, bs₂⟩, h₂, h⟩ := Except.bind_eq_ok_iff.1 h
  obtain ⟨⟨flag, bs₃⟩, h₃, h⟩ := Except.bind_eq_ok_iff.1 h
  obtain ⟨⟨chunk, bs₄⟩, h₄, h⟩ := Except.bind_eq_ok_iff.1 h
  cases h
  obtain ⟨h₄, hl⟩ := takeBytes_eq_ok h₄
  refine ⟨by rw [hl]; exact (be16 hi lo).isLt, (encErr_errOf flag).1, ?_⟩
  rw [takeByte_eq_ok h₁, takeByte_eq_ok h₂, takeByte_eq_ok h₃, h₄, hl, encHalf_be16, (encErr_errOf flag).2]
  simp

theorem takeOnPacket_eq_ok {f : Packet → Instr} {bs r : List Byte} {i : Instr}
    (h : takeOnPacket f bs = .ok (i, r)) : ∃ P, i = f P ∧ P.completed = true ∧ bs = encPacket P ++ r := by
  obtain ⟨⟨P, bs₁⟩, h₁, h⟩ := Except.bind_eq_ok_iff.1 h
  cases h
  exact ⟨P, rfl, takePacket_eq_ok h₁⟩

/-- The `opsel` codes of the operation list (R70). -/
def opselCodes : List Nat :=
  [0x00, 0x10, 0x11, 0x20, 0x21, 0x22, 0x23, 0x30, 0x31, 0x32, 0x33, 0x34, 0x35, 0x36, 0x37, 0x38, 0x39, 0x3A, 0x3B,
   0x3C, 0x3D, 0x40, 0x41, 0x42, 0x43, 0x44, 0x45, 0x50, 0x51, 0x52, 0x53, 0x54, 0x55, 0x56, 0x57, 0x58, 0x60]

/-- No other code selects an operation. -/
theorem decodeOperation_unlisted {op : Byte} (h : op.toNat ∉ opselCodes) (bs : List Byte) :
    decodeOperation op bs = .error (.noSuchOperation op) := by
  obtain ⟨⟨n, hn⟩⟩ := op
  have hn : n < 256 := hn
  replace h : n ∉ opselCodes := h
  interval_cases n <;> first | rfl | exact absurd (by decide) h

end Sys2Proof
end

