-- ==== Sys2Proof/Laws/PerInstr.lean ====
section
/-! SUPPORT. The per-instruction family `DecodeEncode`: the line of every well-formed instruction whose operands fit its
fields decodes to that instruction. -/

namespace Sys2Proof.Laws.DecodeEncode

open Sys2Proof

/-- Decoding the line of an instruction gives the instruction back. -/
def Statement (i : Instr) : Prop := i.wf = true → i.fits = true → decodeLine (encode i) = .ok i

theorem coreReset : Statement .coreReset :=
  fun _ _ => rfl

theorem crc8Update (byte crc : Byte) : Statement (.crc8Update byte crc) :=
  fun _ _ => rfl

theorem crc8Compute (bytes : List Byte) (seed : Byte) : Statement (.crc8Compute bytes seed) :=
  fun _ hf => by
    have h := takeSeq_encSeq bytes [] (of_decide_eq_true hf)
    rw [List.append_nil] at h
    refine decodeLine_opLine (show (do
      let (seed, bs) ← takeByte (seed :: encSeq bytes)
      let (bytes, bs) ← takeSeq bs
      .ok (Instr.crc8Compute bytes seed, bs)) = _ from ?_)
    simp only [takeByte_cons, Except.bind_ok_eq, h]

theorem frNew : Statement .frNew :=
  fun _ _ => rfl

theorem frByte (b : Byte) : Statement (.frByte b) :=
  fun _ _ => rfl

theorem frAccept (buffer : List Byte) : Statement (.frAccept buffer) :=
  fun _ hf => by
    have h := takeSeq_encSeq buffer [] (of_decide_eq_true hf)
    rw [List.append_nil] at h
    refine decodeLine_opLine (show (do
      let (buffer, bs) ← takeSeq (encSeq buffer)
      .ok (Instr.frAccept buffer, bs)) = _ from ?_)
    simp only [Except.bind_ok_eq, h]

theorem frTake : Statement .frTake :=
  fun _ _ => rfl

theorem tvPtype (P : Packet) : Statement (.tvPtype P) :=
  fun hw _ => decodeLine_onPacket (f := Instr.tvPtype) hw rfl

theorem tvDlen (P : Packet) : Statement (.tvDlen P) :=
  fun hw _ => decodeLine_onPacket (f := Instr.tvDlen) hw rfl

theorem tvOlen (P : Packet) : Statement (.tvOlen P) :=
  fun hw _ => decodeLine_onPacket (f := Instr.tvOlen) hw rfl

theorem tvRorg (P : Packet) : Statement (.tvRorg P) :=
  fun hw _ => decodeLine_onPacket (f := Instr.tvRorg) hw rfl

theorem tvStoff (P : Packet) : Statement (.tvStoff P) :=
  fun hw _ => decodeLine_onPacket (f := Instr.tvStoff) hw rfl

theorem tvStatus (P : Packet) : Statement (.tvStatus P) :=
  fun hw _ => decodeLine_onPacket (f := Instr.tvStatus) hw rfl

theorem tvUdlen (P : Packet) : Statement (.tvUdlen P) :=
  fun hw _ => decodeLine_onPacket (f := Instr.tvUdlen) hw rfl

theorem tvUdata (P : Packet) : Statement (.tvUdata P) :=
  fun hw _ => decodeLine_onPacket (f := Instr.tvUdata) hw rfl

theorem tvSender (P : Packet) : Statement (.tvSender P) :=
  fun hw _ => decodeLine_onPacket (f := Instr.tvSender) hw rfl

theorem tvSubtel (P : Packet) : Statement (.tvSubtel P) :=
  fun hw _ => decodeLine_onPacket (f := Instr.tvSubtel) hw rfl

theorem tvDest (P : Packet) : Statement (.tvDest P) :=
  fun hw _ => decodeLine_onPacket (f := Instr.tvDest) hw rfl

theorem tvDbm (P : Packet) : Statement (.tvDbm P) :=
  fun hw _ => decodeLine_onPacket (f := Instr.tvDbm) hw rfl

theorem tvSeclvl (P : Packet) : Statement (.tvSeclvl P) :=
  fun hw _ => decodeLine_onPacket (f := Instr.tvSeclvl) hw rfl

theorem tvOk (P : Packet) : Statement (.tvOk P) :=
  fun hw _ => decodeLine_onPacket (f := Instr.tvOk) hw rfl

theorem dpHandle (P : Packet) : Statement (.dpHandle P) :=
  fun hw _ => decodeLine_onPacket (f := Instr.dpHandle) hw rfl

theorem dpSetlearn (enabled : Bool) : Statement (.dpSetlearn enabled) :=
  fun _ _ => by cases enabled <;> rfl

theorem dpRegister (h : Handler) : Statement (.dpRegister h) :=
  fun _ hf => by
    have hr := takeRecord_encRecord h [] hf
    rw [List.append_nil] at hr
    refine decodeLine_opLine (show (do
      let (h, bs) ← takeRecord (encRecord h)
      .ok (Instr.dpRegister h, bs)) = _ from ?_)
    simp only [hr, Except.bind_ok_eq]

theorem dpUnregister (a : Addr) : Statement (.dpUnregister a) :=
  fun _ _ => by
    have h := takeAddr_encAddr a []
    rw [List.append_nil] at h
    refine decodeLine_opLine (show (do
      let (a, bs) ← takeAddr (encAddr a)
      .ok (Instr.dpUnregister a, bs)) = _ from ?_)
    simp only [h, Except.bind_ok_eq]

theorem dpLookup (a : Addr) : Statement (.dpLookup a) :=
  fun _ _ => by
    have h := takeAddr_encAddr a []
    rw [List.append_nil] at h
    refine decodeLine_opLine (show (do
      let (a, bs) ← takeAddr (encAddr a)
      .ok (Instr.dpLookup a, bs)) = _ from ?_)
    simp only [h, Except.bind_ok_eq]

theorem dpTeachq (P : Packet) : Statement (.dpTeachq P) :=
  fun hw _ => decodeLine_onPacket (f := Instr.dpTeachq) hw rfl

theorem pdMatch (p : ProfileId) : Statement (.pdMatch p) :=
  fun _ _ => by
    have h := takeProfile_encProfile p []
    rw [List.append_nil] at h
    refine decodeLine_opLine (show (do
      let (p, bs) ← takeProfile (encProfile p)
      .ok (Instr.pdMatch p, bs)) = _ from ?_)
    simp only [h, Except.bind_ok_eq]

theorem pdRocker (P : Packet) (ch : Channel) : Statement (.pdRocker P ch) :=
  fun hw _ => by
    refine decodeLine_opLine (show (do
      let (P, bs) ← takePacket (encPacket P ++ [encChannel ch])
      let (ch, bs) ← takeChannel bs
      .ok (Instr.pdRocker P ch, bs)) = _ from ?_)
    simp only [takePacket_encPacket _ hw, takeChannel_encChannel, Except.bind_ok_eq]

theorem pdWinopen (P : Packet) : Statement (.pdWinopen P) :=
  fun hw _ => decodeLine_onPacket (f := Instr.pdWinopen) hw rfl

theorem pdWintilt (P : Packet) : Statement (.pdWintilt P) :=
  fun hw _ => decodeLine_onPacket (f := Instr.pdWintilt) hw rfl

theorem pdCardkey2 (P : Packet) : Statement (.pdCardkey2 P) :=
  fun hw _ => decodeLine_onPacket (f := Instr.pdCardkey2) hw rfl

theorem pdCardkey1 (P : Packet) : Statement (.pdCardkey1 P) :=
  fun hw _ => decodeLine_onPacket (f := Instr.pdCardkey1) hw rfl

theorem pdSmokealm (P : Packet) : Statement (.pdSmokealm P) :=
  fun hw _ => decodeLine_onPacket (f := Instr.pdSmokealm) hw rfl

theorem pdSmokebat (P : Packet) : Statement (.pdSmokebat P) :=
  fun hw _ => decodeLine_onPacket (f := Instr.pdSmokebat) hw rfl

theorem pdInvoke (h : Handler) (P : Packet) : Statement (.pdInvoke h P) :=
  fun hw hf => by
    have hp := takePacket_encPacket [] (P := P) hw
    rw [List.append_nil] at hp
    refine decodeLine_opLine (show (do
      let (h, bs) ← takeRecord (encRecord h ++ encPacket P)
      let (P, bs) ← takePacket bs
      .ok (Instr.pdInvoke h P, bs)) = _ from ?_)
    simp only [takeRecord_encRecord h _ hf, hp, Except.bind_ok_eq]

theorem chRx (bytes : List Byte) (err : Option Nat) : Statement (.chRx bytes err) :=
  fun _ hf => by
    simp only [Instr.fits, Bool.and_eq_true, decide_eq_true_eq] at hf
    have hb := takeBytes_append bytes [] rfl
    rw [List.append_nil] at hb
    refine decodeLine_opLine (show (do
      let ((chunk, err), bs) ← takeChunk (encHalf bytes.length ++ [encErr err] ++ bytes)
      .ok (Instr.chRx chunk err, bs)) = _ from ?_)
    simp only [takeChunk, encHalf, List.cons_append, List.nil_append, takeByte_cons, Except.bind_ok_eq,
      be16_encHalf hf.1, hb, errOf_encErr hf.2]

theorem esp3Header (h l o t c : Byte) : Statement (.esp3Header h l o t c) :=
  fun _ _ => rfl

theorem esp3Payload (data opt : List Byte) (c : Byte) : Statement (.esp3Payload data opt c) :=
  fun hw _ => by
    simp only [Instr.wf, Bool.and_eq_true, decide_eq_true_eq] at hw
    obtain ⟨ho, hs⟩ := hw
    have hd : (be16 (BitVec.ofNat 8 (data.length / 256)) (BitVec.ofNat 8 data.length)).toNat = data.length :=
      be16_encHalf (by simp only [Config.maxPayload] at hs; omega)
    have hn : (BitVec.ofNat 8 opt.length).toNat = opt.length := by
      simp only [BitVec.toNat_ofNat]
      omega
    have e1 : takeBytes data.length (data ++ (opt ++ [c])) = .ok (data, opt ++ [c]) := takeBytes_append _ _ rfl
    have e2 : takeBytes opt.length (opt ++ [c]) = .ok (opt, [c]) := takeBytes_append _ _ rfl
    simp only [decodeLine, encode, decodePrefix, decodePayload, encHalf, List.cons_append, List.nil_append,
      List.append_assoc, takeByte_cons, Except.bind_ok_eq, hd, hn]
    rw [if_neg (Nat.not_lt.2 hs)]
    simp only [e1, e2, takeByte_cons, Except.bind_ok_eq, if_true]

theorem ptypeRadio : Statement .ptypeRadio :=
  fun _ _ => rfl

theorem ptypeResponse : Statement .ptypeResponse :=
  fun _ _ => rfl

theorem ptypeRadioSubtelegram : Statement .ptypeRadioSubtelegram :=
  fun _ _ => rfl

theorem ptypeEvent : Statement .ptypeEvent :=
  fun _ _ => rfl

theorem ptypeCommonCmd : Statement .ptypeCommonCmd :=
  fun _ _ => rfl

theorem ptypeSmartAckCmd : Statement .ptypeSmartAckCmd :=
  fun _ _ => rfl

theorem ptypeRemoteMgmtCmd : Statement .ptypeRemoteMgmtCmd :=
  fun _ _ => rfl

theorem ptypeManufacturerSpecific (low : BitVec 7) : Statement (.ptypeManufacturerSpecific low) :=
  fun _ _ => by
    revert low
    decide +kernel

theorem ptypeReserved (t : Byte) : Statement (.ptypeReserved t) :=
  by
    revert t
    unfold Statement
    decide +kernel

theorem rorgRps : Statement .rorgRps :=
  fun _ _ => rfl

theorem rorg1bs : Statement .rorg1bs :=
  fun _ _ => rfl

theorem rorg4bs : Statement .rorg4bs :=
  fun _ _ => rfl

theorem rorgVld : Statement .rorgVld :=
  fun _ _ => rfl

theorem rorgMsc : Statement .rorgMsc :=
  fun _ _ => rfl

theorem rorgAdt : Statement .rorgAdt :=
  fun _ _ => rfl

theorem rorgSmLrnReq : Statement .rorgSmLrnReq :=
  fun _ _ => rfl

theorem rorgSmLrnAns : Statement .rorgSmLrnAns :=
  fun _ _ => rfl

theorem rorgSmRec : Statement .rorgSmRec :=
  fun _ _ => rfl

theorem rorgSysEx : Statement .rorgSysEx :=
  fun _ _ => rfl

theorem rorgSec : Statement .rorgSec :=
  fun _ _ => rfl

theorem rorgSecEncaps : Statement .rorgSecEncaps :=
  fun _ _ => rfl

theorem statusT21 (b : Byte) : Statement (.statusT21 b) :=
  by
    revert b
    unfold Statement
    decide +kernel

theorem statusNu (b : Byte) : Statement (.statusNu b) :=
  by
    revert b
    unfold Statement
    decide +kernel

theorem rpsRockerN (a : BitVec 3) (p : BitVec 1) (b : BitVec 3) (s : BitVec 1) : Statement (.rpsRockerN a p b s) :=
  fun _ _ => by
    revert a p b s
    decide +kernel

theorem rpsRockerU (b : BitVec 3) (p : BitVec 1) (low : BitVec 4) : Statement (.rpsRockerU b p low) :=
  fun _ _ => by
    revert b p low
    decide +kernel

theorem rpsWindow (p : BitVec 4) (low : BitVec 4) : Statement (.rpsWindow p low) :=
  fun _ _ => by
    revert p low
    decide +kernel

theorem rpsCardkeyErp2 (hi : BitVec 5) (i : BitVec 1) (low : BitVec 2) : Statement (.rpsCardkeyErp2 hi i low) :=
  fun _ _ => by
    revert hi i low
    decide +kernel

theorem rpsCardkeyErp1 : Statement .rpsCardkeyErp1 :=
  fun _ _ => rfl

theorem rpsSmoke (hi : BitVec 2) (s : BitVec 2) (low : BitVec 4) : Statement (.rpsSmoke hi s low) :=
  fun _ _ => by
    revert hi s low
    decide +kernel

theorem eepRockerFunc02 (ty : Byte) : Statement (.eepRockerFunc02 ty) :=
  fun _ _ => rfl

theorem eepRockerFunc03 (ty : Byte) : Statement (.eepRockerFunc03 ty) :=
  fun _ _ => rfl

theorem eepWindowHandle : Statement .eepWindowHandle :=
  fun _ _ => rfl

theorem eepCardkeyErp2 : Statement .eepCardkeyErp2 :=
  fun _ _ => rfl

theorem eepCardkeyErp1 (ty : Byte) : Statement (.eepCardkeyErp1 ty) :=
  by
    revert ty
    unfold Statement
    decide +kernel

theorem eepSmoke : Statement .eepSmoke :=
  fun _ _ => rfl

theorem optdataRadio (s : Byte) (d : Addr) (g v : Byte) : Statement (.optdataRadio s d g v) :=
  fun _ _ => by
    simp only [decodeLine, encode, decodePrefix, decodeOptData, List.cons_append, List.nil_append, takeByte_cons,
      takeAddr_encAddr, Except.bind_ok_eq, if_true]

end Sys2Proof.Laws.DecodeEncode
end

