-- ==== Sys2Proof/Tests/Slice0.lean ====
section
/-! SUPPORT. Tests: the refusals of WellFormed, the decoding of hand-written lines, the spec's own vectors
(95_test_vectors.md, cited by their ids), and for every statement with hypotheses a concrete case that meets them. -/

namespace Sys2Proof.Tests

open Sys2Proof Sys2Proof.Machine

-- One theorem after the other: evaluated all at once, the kernel's stacks exceed the memory limit.
set_option Elab.async false

/-! The named byte strings of 95_test_vectors.md. -/

/-- A byte string read as a packet: six header bytes and the payload. -/
def packetOf : List Byte → Packet
  | b0 :: b1 :: b2 :: b3 :: b4 :: b5 :: pay => { hdr := ⟨b0, b1, b2, b3, b4, b5⟩, pay := pay }
  | _ => default

def bytesV : List Byte := [0x55, 0x00, 0x07, 0x07, 0x01, 0x7A, 0xF6, 0x30, 0x00, 0x86, 0xB8, 0x1A, 0x30, 0x03, 0xFF, 0xFF,
  0xFF, 0xFF, 0xFF, 0x00, 0xC0]
def bytesA : List Byte := [0x55, 0x00, 0x07, 0x07, 0x01, 0x7A, 0xF6, 0x30, 0x00, 0x86, 0xB8, 0x1A, 0x30, 0x03, 0xFF, 0xFF,
  0xFF, 0xFF, 0x2D, 0x00, 0x50]
def bytesAr : List Byte := [0x55, 0x00, 0x07, 0x07, 0x01, 0x7A, 0xF6, 0x00, 0x00, 0x86, 0xB8, 0x1A, 0x20, 0x03, 0xFF, 0xFF,
  0xFF, 0xFF, 0x2D, 0x00, 0xE6]
def bytesB : List Byte := [0x55, 0x00, 0x07, 0x07, 0x01, 0x7A, 0xF6, 0x10, 0x01, 0x02, 0x03, 0x04, 0x30, 0x01, 0xFF, 0xFF,
  0xFF, 0xFF, 0x32, 0x00, 0x96]
def bytesW : List Byte := [0x55, 0x00, 0x07, 0x07, 0x01, 0x7A, 0xF6, 0x10, 0x01, 0x02, 0x03, 0x04, 0x30, 0x01, 0xFF, 0xFF,
  0xFF, 0xFF, 0x33, 0x00, 0x83]
def bytesWin : List Byte := [0x55, 0x00, 0x07, 0x07, 0x01, 0x7A, 0xF6, 0xD0, 0x00, 0x00, 0x00, 0x77, 0x20, 0x01, 0xFF, 0xFF,
  0xFF, 0xFF, 0x28, 0x00, 0xBC]
def bytesVld : List Byte := [0x55, 0x00, 0x09, 0x07, 0x01, 0x56, 0xD2, 0x11, 0x22, 0x05, 0x06, 0x07, 0x08, 0x80, 0x99, 0x01,
  0x01, 0x02, 0x03, 0x04, 0x40, 0x01, 0x91]
def bytesBs4 : List Byte := [0x55, 0x00, 0x0A, 0x00, 0x01, 0x80, 0xA5, 0xAA, 0xBB, 0xCC, 0x08, 0xDE, 0xAD, 0xBE, 0xEF, 0x00,
  0x46]
def bytesBs1 : List Byte := [0x55, 0x00, 0x07, 0x06, 0x01, 0x6F, 0xD5, 0x09, 0x00, 0x11, 0x22, 0x33, 0x00, 0x02, 0xFF, 0xFF,
  0xFF, 0xFF, 0x3C, 0x9F]
def bytesShort : List Byte := [0x55, 0x00, 0x03, 0x07, 0x01, 0xD1, 0xF6, 0x30, 0x00, 0x03, 0xFF, 0xFF, 0xFF, 0xFF, 0x2D, 0x00,
  0xC9]
def bytesVld6 : List Byte := [0x55, 0x00, 0x06, 0x00, 0x01, 0x7A, 0xD2, 0x01, 0x02, 0x03, 0x04, 0x00, 0xF1]
def bytesOpt8 : List Byte := [0x55, 0x00, 0x07, 0x08, 0x01, 0xB9, 0xF6, 0x50, 0x00, 0x00, 0x00, 0x01, 0x30, 0x01, 0xFF, 0xFF,
  0xFF, 0xFF, 0x2D, 0x00, 0xEE, 0xA5]
def bytesResp : List Byte := [0x55, 0x00, 0x01, 0x05, 0x02, 0x24, 0x00, 0x01, 0x00, 0x00, 0x00, 0x00, 0x62]
def bytesT09 : List Byte := [0x55, 0x00, 0x01, 0x00, 0x09, 0x54, 0x00, 0x00]
def bytesBadH : List Byte := [0x55, 0x00, 0x07, 0x07, 0x01, 0x7B]
def bytesOver : List Byte := [0x55, 0x01, 0x2C, 0x00, 0x01, 0xA8]
def bytesMin : List Byte := [0x55, 0x00, 0x00, 0x00, 0x05, 0x1B, 0x00]

def V : Packet := packetOf bytesV
def A : Packet := packetOf bytesA
def Ar : Packet := packetOf bytesAr
def B : Packet := packetOf bytesB
def W : Packet := packetOf bytesW
def Win : Packet := packetOf bytesWin
def Vld : Packet := packetOf bytesVld
def Bs4 : Packet := packetOf bytesBs4
def Bs1 : Packet := packetOf bytesBs1
def Short : Packet := packetOf bytesShort
def Vld6 : Packet := packetOf bytesVld6
def Opt8 : Packet := packetOf bytesOpt8
def Resp : Packet := packetOf bytesResp
def T09 : Packet := packetOf bytesT09
def Min : Packet := packetOf bytesMin

/-- "Every one of these has correct CRCs": each named packet is a completed packet. -/
theorem test_named_packets_completed :
    ∀ P ∈ [V, A, Ar, B, W, Win, Vld, Bs4, Bs1, Short, Vld6, Opt8, Resp, T09, Min], P.completed = true := by
  decide +kernel

/-! Small states and readings of an outcome. -/

/-- A two-channel rocker's two records (P1), or one record of any rule. -/
def rocker (a : Addr) (sub : Nat) (ch : Channel) : Handler :=
  { address := a, subdeviceIndex := sub, profileId := 0xF60201, manufacturerId := 0, rule := .rocker, channel := ch,
    sink := sub }

def h0 : Handler := rocker 0x0086B81A 0 0
def h1 : Handler := rocker 0x0086B81A 1 1

/-- The registry of Q2. -/
def regQ2 : Registry := [(0x0086B81A, [h0, h1])]

/-- A framer after bytes have arrived at a fresh one. -/
def framed (bs : List Byte) : Framer :=
  match Framer.acceptLoop bs Framer.fresh with
  | .ok (_, F, _) => F
  | .error _ => Framer.fresh

def fresh : State := State.reset
def withBytes (bs : List Byte) : State := { State.reset with fr := framed bs }
def off (r : Registry) : State := { State.reset with reg := r }
def on (r : Registry) : State := { State.reset with learn := .enabled, reg := r }

def nextOf (o : Host.Outcome State Fault Refusal) : Option State :=
  match o with
  | .next s => some s
  | .fault _ => none
  | .refused _ => none

def refusalOf (o : Host.Outcome State Fault Refusal) : Option Refusal :=
  match o with
  | .next _ => none
  | .fault _ => none
  | .refused r => some r

theorem next_of {o : Host.Outcome State Fault Refusal} {t : State} (h : nextOf o = some t) : o = .next t := by
  cases o <;> simp_all [nextOf]

theorem refused_of {o : Host.Outcome State Fault Refusal} {r : Refusal} (h : refusalOf o = some r) : o = .refused r := by
  cases o <;> simp_all [refusalOf]

/-- What an instruction answers from reset. -/
def answer (i : Instr) : Option Result := (nextOf (exec i fresh)).map State.result

/-- What an instruction emits. -/
def emitted (i : Instr) (s : State) : Option (List Output) := (nextOf (exec i s)).map State.outputs

/-- What a computation of the dispatcher leaves: mode, registry, outputs. -/
def leaves (r : Run State) : Option (LearnState × Registry × List Output) :=
  match r with
  | .ok s => some (s.learn, s.reg, s.outputs)
  | .error _ => none

/-- R230's table, row by row: code and error kind. -/
theorem test_diag_table :
    [Diag.headerCrcMismatch default, .payloadCrcMismatch default [], .oversize 301, .unknownPacketType 0x09,
      .unsupportedProfile 0xA50205, .unregisteredAddress 1, .transportError 1, .shortTelegram 3 none].map
        (fun d => (d.code, d.errorKind)) =
      [(1, some .crcMismatch), (2, some .crcMismatch), (3, some .oversize), (4, none), (5, some .unsupportedProfile),
        (6, none), (7, none), (8, none)] := by decide

/-! WellFormed: one ill-formed term for each check. -/

/-- V with its last payload byte changed: not a completed packet. -/
def broken : Packet := { V with pay := V.pay.dropLast ++ [0xC1] }

theorem test_wf_packet_not_completed :
    ∀ i ∈ [Instr.tvPtype broken, .tvDlen broken, .tvOlen broken, .tvRorg broken, .tvStoff broken, .tvStatus broken,
      .tvUdlen broken, .tvUdata broken, .tvSender broken, .tvSubtel broken, .tvDest broken, .tvDbm broken,
      .tvSeclvl broken, .tvOk broken, .dpHandle broken, .dpTeachq broken, .pdRocker broken 0, .pdWinopen broken,
      .pdWintilt broken, .pdCardkey2 broken, .pdCardkey1 broken, .pdSmokealm broken, .pdSmokebat broken,
      .pdInvoke h0 broken], i.wf = false := by
  decide +kernel

/-- Each part of the check of a completed packet: sync byte, header CRC, size, payload length. -/
theorem test_wf_packet_parts :
    ∀ P ∈ [{ V with hdr := { V.hdr with sync := 0x54 } }, { V with hdr := { V.hdr with crc := 0x7B } },
      { V with pay := V.pay.drop 1 }, Packet.build 0x01 0x2C 0x00 0x01 (List.replicate 300 0x00)],
      (Instr.dpHandle P).wf = false := by
  decide +kernel

theorem test_wf_payload_too_long : (Instr.esp3Payload (List.replicate 300 0x00) [] 0x00).wf = false := by decide +kernel
theorem test_wf_payload_opt_too_long : (Instr.esp3Payload [] (List.replicate 256 0x00) 0x00).wf = false := by
  decide +kernel
theorem test_wf_reserved_type :
    ∀ t ∈ ([0x01, 0x07, 0x80, 0xFF] : List Byte), (Instr.ptypeReserved t).wf = false := by decide
theorem test_wf_t21_clear : (Instr.statusT21 0x10).wf = false := by decide
theorem test_wf_nu_clear : (Instr.statusNu 0x20).wf = false := by decide
theorem test_wf_erp1_type : (Instr.eepCardkeyErp1 0x02).wf = false := by decide
/-- A sequence of 65536 bytes is one too long for its 16-bit length. -/
theorem test_fits_sequence (bs : List Byte) (h : bs.length = 65536) :
    (Instr.crc8Compute bs 0x00).fits = false ∧ (Instr.frAccept bs).fits = false ∧ (Instr.chRx bs none).fits = false := by
  simp [Instr.fits, h]
theorem test_fits_record :
    (Instr.dpRegister { h0 with subdeviceIndex := 256 }).fits = false ∧
    (Instr.pdInvoke { h0 with sink := 256 } V).fits = false := by decide
theorem test_fits_error : (Instr.chRx [] (some 0)).fits = false ∧ (Instr.chRx [] (some 256)).fits = false := by decide

/-! Decoding: lines written out by hand, at least one for every constructor. -/

/-- A hand-written line and the instruction it stands for. -/
def decodes (fmt : Format) (x : List Byte × Instr) : Bool := decide (decodeLine ⟨fmt, x.1⟩ = .ok x.2)

/-- The operand bytes of packet V: lengths, type, data and optional data (log 2). -/
def opV : List Byte := [0x00, 0x07, 0x07, 0x01, 0xF6, 0x30, 0x00, 0x86, 0xB8, 0x1A, 0x30, 0x03, 0xFF, 0xFF, 0xFF, 0xFF, 0xFF,
  0x00]

theorem test_decode_crc_and_framer : ∀ x ∈ ([
    ([0x00], .coreReset), ([0x10, 0x01, 0x80], .crc8Update 0x01 0x80),
    ([0x11, 0xAB, 0x00, 0x02, 0x07, 0x01], .crc8Compute [0x07, 0x01] 0xAB), ([0x20], .frNew),
    ([0x21, 0x55], .frByte 0x55), ([0x22, 0x00, 0x03, 0x55, 0x00, 0x07], .frAccept [0x55, 0x00, 0x07]),
    ([0x23], .frTake)] : List (List Byte × Instr)), decodes .operation x = true := by
  decide +kernel

theorem test_decode_view : ∀ x ∈ ([
    (0x30 :: opV, .tvPtype V), (0x31 :: opV, .tvDlen V), (0x32 :: opV, .tvOlen V), (0x33 :: opV, .tvRorg V),
    (0x34 :: opV, .tvStoff V), (0x35 :: opV, .tvStatus V), (0x36 :: opV, .tvUdlen V), (0x37 :: opV, .tvUdata V),
    (0x38 :: opV, .tvSender V), (0x39 :: opV, .tvSubtel V), (0x3A :: opV, .tvDest V), (0x3B :: opV, .tvDbm V),
    (0x3C :: opV, .tvSeclvl V), (0x3D :: opV, .tvOk V)] : List (List Byte × Instr)), decodes .operation x = true := by
  decide +kernel

/-- The `DP.REGISTER` lines are those of P1 and P4. -/
theorem test_decode_dispatcher_and_channel : ∀ x ∈ ([
    (0x40 :: opV, .dpHandle V), ([0x41, 0x01], .dpSetlearn true), ([0x41, 0x00], .dpSetlearn false),
    ([0x42, 0x00, 0x86, 0xB8, 0x1A, 0x01, 0xF6, 0x02, 0x01, 0x00, 0x00, 0x00, 0x01, 0x01], .dpRegister h1),
    ([0x42, 0x00, 0x00, 0x00, 0x77, 0x01, 0xF6, 0x10, 0x00, 0x00, 0x00, 0x02, 0x00, 0x03],
      .dpRegister ⟨0x00000077, 1, 0xF61000, 0, .windowTilted, 0, 3⟩),
    ([0x43, 0x00, 0x86, 0xB8, 0x1A], .dpUnregister 0x0086B81A), ([0x44, 0x00, 0x86, 0xB8, 0x1A], .dpLookup 0x0086B81A),
    (0x45 :: opV, .dpTeachq V),
    ([0x60, 0x00, 0x0A, 0x00, 0x55, 0x00, 0x07, 0x07, 0x01, 0x7A, 0xF6, 0x10, 0x01, 0x02],
      .chRx [0x55, 0x00, 0x07, 0x07, 0x01, 0x7A, 0xF6, 0x10, 0x01, 0x02] none),
    ([0x60, 0x00, 0x02, 0x01, 0xDE, 0xAD], .chRx [0xDE, 0xAD] (some 1))] : List (List Byte × Instr)),
    decodes .operation x = true := by
  decide +kernel

theorem test_decode_decoders : ∀ x ∈ ([
    ([0x50, 0xF6, 0x02, 0x01], .pdMatch 0xF60201), (0x51 :: opV ++ [0x03], .pdRocker V 3), (0x52 :: opV, .pdWinopen V),
    (0x53 :: opV, .pdWintilt V), (0x54 :: opV, .pdCardkey2 V), (0x55 :: opV, .pdCardkey1 V), (0x56 :: opV, .pdSmokealm V),
    (0x57 :: opV, .pdSmokebat V),
    (0x58 :: [0x00, 0x86, 0xB8, 0x1A, 0x00, 0xF6, 0x02, 0x01, 0x00, 0x00, 0x00, 0x00, 0x00] ++ opV, .pdInvoke h0 V)] :
    List (List Byte × Instr)), decodes .operation x = true := by
  decide +kernel

theorem test_decode_stream :
    decodes .header ([0x55, 0x00, 0x07, 0x07, 0x01, 0x7A], .esp3Header 0x00 0x07 0x07 0x01 0x7A) = true ∧
    decodes .payload ([0x00, 0x01, 0x02, 0xAA, 0xBB, 0xCC, 0xDD], .esp3Payload [0xAA] [0xBB, 0xCC] 0xDD) = true ∧
    decodes .optData ([0x03, 0xFF, 0xFF, 0xFF, 0xFF, 0x2D, 0x00], .optdataRadio 0x03 0xFFFFFFFF 0x2D 0x00) = true := by
  decide +kernel

theorem test_decode_packet_types : ∀ x ∈ ([
    ([0x01], .ptypeRadio), ([0x02], .ptypeResponse), ([0x03], .ptypeRadioSubtelegram), ([0x04], .ptypeEvent),
    ([0x05], .ptypeCommonCmd), ([0x06], .ptypeSmartAckCmd), ([0x07], .ptypeRemoteMgmtCmd),
    ([0x80], .ptypeManufacturerSpecific 0), ([0xFF], .ptypeManufacturerSpecific 0x7F), ([0x00], .ptypeReserved 0x00),
    ([0x08], .ptypeReserved 0x08), ([0x7F], .ptypeReserved 0x7F)] : List (List Byte × Instr)),
    decodes .packetType x = true := by
  decide +kernel

theorem test_decode_rorg : ∀ x ∈ ([
    ([0xF6], .rorgRps), ([0xD5], .rorg1bs), ([0xA5], .rorg4bs), ([0xD2], .rorgVld), ([0xD1], .rorgMsc), ([0xA6], .rorgAdt),
    ([0xC6], .rorgSmLrnReq), ([0xC7], .rorgSmLrnAns), ([0xA7], .rorgSmRec), ([0xC5], .rorgSysEx), ([0x30], .rorgSec),
    ([0x31], .rorgSecEncaps)] : List (List Byte × Instr)), decodes .rorg x = true := by
  decide +kernel

/-- Rocker byte 37 is 001 1 011 1 (E6); rocker U byte 60 is 011 0 0000 (E14); window D5 is tilted; card key 04 is 00000 1 00;
smoke 30 is 00 11 0000 (E31). -/
theorem test_decode_fields :
    decodes .statusT21 ([0x20], .statusT21 0x20) = true ∧ decodes .statusNu ([0x10], .statusNu 0x10) = true ∧
    decodes .rockerN ([0x37], .rpsRockerN 1 1 3 1) = true ∧ decodes .rockerU ([0x60], .rpsRockerU 3 0 0) = true ∧
    decodes .window ([0xD5], .rpsWindow 0xD 5) = true ∧ decodes .cardkeyErp2 ([0x04], .rpsCardkeyErp2 0 1 0) = true ∧
    decodes .cardkeyErp1 ([0x70], .rpsCardkeyErp1) = true ∧ decodes .smoke ([0x30], .rpsSmoke 0 3 0) = true := by
  decide +kernel

theorem test_decode_profiles : ∀ x ∈ ([
    ([0xF6, 0x02, 0x01], .eepRockerFunc02 0x01), ([0xF6, 0x03, 0x00], .eepRockerFunc03 0x00),
    ([0xF6, 0x10, 0x00], .eepWindowHandle), ([0xF6, 0x04, 0x02], .eepCardkeyErp2), ([0xF6, 0x04, 0x01], .eepCardkeyErp1 0x01),
    ([0xF6, 0x05, 0xC0], .eepSmoke)] : List (List Byte × Instr)), decodes .profileId x = true := by
  decide +kernel

/-- What no row covers is refused: an `opsel` outside the list, a short line, a long one, a code of no row, and a packet
operand over the size limit. -/
theorem test_decode_refuses :
    decodeLine ⟨.operation, [0x01]⟩ = .error (.noSuchOperation 0x01) ∧
    decodeLine ⟨.operation, [0x46]⟩ = .error (.noSuchOperation 0x46) ∧
    decodeLine ⟨.operation, [0x21]⟩ = .error .truncated ∧ decodeLine ⟨.operation, [0x00, 0x00]⟩ = .error .trailingBytes ∧
    decodeLine ⟨.operation, [0x41, 0x02]⟩ = .error (.badBit 0x02) ∧ decodeLine ⟨.rorg, [0xD0]⟩ = .error (.noSuchCode .rorg) ∧
    decodeLine ⟨.profileId, [0xF6, 0x05, 0xC1]⟩ = .error (.noSuchCode .profileId) ∧
    decodeLine ⟨.operation, [0x30, 0x01, 0x2C, 0x00, 0x01]⟩ = .error (.packetTooLong 301) := by
  decide +kernel

/-- Words of spec/opcode_table.json, first byte lowest: the host's probe reads them with these. -/
theorem test_table_words :
    decodeTableWord 8 0x00 = some .coreReset ∧ decodeTableWord 48 0x7A0107070055 = some (.esp3Header 0x00 0x07 0x07 0x01 0x7A) ∧
    decodeTableWord 24 0xF60201 = some (.eepRockerFunc02 0x01) ∧ decodeTableWord 8 0xD2 = some .rorgVld ∧
    decodeTableWord 8 0x60 = some (.chRx [] none) := by
  decide +kernel

/-! The CRC8 unit: K1 to K17. -/

theorem test_crc8_update :
    [Instr.crc8Update 0x00 0x00, .crc8Update 0x01 0x00, .crc8Update 0x80 0x00, .crc8Update 0xFF 0x00, .crc8Update 0x55 0x00,
     .crc8Update 0x00 0xFF, .crc8Update 0xFF 0xFF, .crc8Update 0x07 0x07, .crc8Update 0xA5 0x5A].map answer =
    [some (.byte 0x00), some (.byte 0x07), some (.byte 0x89), some (.byte 0xF3), some (.byte 0xAC), some (.byte 0xF3),
     some (.byte 0x00), some (.byte 0x00), some (.byte 0xF3)] := by
  decide +kernel

theorem test_crc8_compute : ∀ x ∈ ([
    ([0x31, 0x32, 0x33, 0x34, 0x35, 0x36, 0x37, 0x38, 0x39], 0x00, 0xF4), ([], 0x00, 0x00), ([], 0xAB, 0xAB),
    ([0x00, 0x07, 0x07, 0x01], 0x00, 0x7A), ([0xF6, 0x30, 0x00, 0x86], 0x00, 0x0D),
    ([0xB8, 0x1A, 0x30, 0x03, 0xFF, 0xFF, 0xFF, 0xFF, 0xFF, 0x00], 0x0D, 0xC0), ([0x00, 0x07, 0x07, 0x01, 0x7A], 0x00, 0x00),
    ([0x00, 0x00, 0x00, 0x05], 0x00, 0x1B), ([0xFF, 0xFF, 0xFF, 0x01], 0x00, 0x2A), ([0x55, 0x00, 0x07, 0x07], 0x00, 0xCC),
    ([0xAA, 0xBB, 0x55, 0x00], 0x00, 0x28)] : List (List Byte × Byte × Byte)),
    answer (.crc8Compute x.1 x.2.1) = some (.byte x.2.2) := by
  decide +kernel

/-! The framer: F1 to F17. -/

/-- The framer's registers and what was raised after `FR.ACCEPT` of a stream on a fresh framer. -/
def accepts (bs : List Byte) : Option (ParseState × Nat × Result × List Output) :=
  (nextOf (exec (.frAccept bs) fresh)).map fun s => (s.fr.state, s.fr.idx, s.result, s.outputs)

/-- F1, F2, F8, F10, F15: offsets of completion, nothing raised; V's six header bytes allocate. -/
theorem test_frAccept_completes : ∀ x ∈ ([
    (bytesV.take 6, .dataRead, 0, .count 6, []), (bytesV, .complete, 15, .count 21, []),
    ([0x00, 0xAA, 0x13] ++ bytesV, .complete, 15, .count 24, []), (bytesMin, .complete, 1, .count 7, []),
    (bytesV ++ bytesV, .complete, 15, .count 21, []), ([0x55, 0x01, 0x2B, 0x00, 0x01, 0xBE], .dataRead, 0, .count 6, [])] :
    List (List Byte × ParseState × Nat × Result × List Output)), accepts x.1 = some x.2 := by
  decide +kernel

/-- F3 to F6, F9, F11, F13, F14: header failures and where the replay leaves the framer. -/
theorem test_frAccept_header_failures : ∀ x ∈ ([
    (bytesBadH, .syncWait, 0, .count 6, [.diag (.headerCrcMismatch ⟨0x55, 0x00, 0x07, 0x07, 0x01, 0x7B⟩)]),
    ([0x55, 0x55, 0x00, 0x07, 0x07, 0x01], .headerRead, 5, .count 6,
      [.diag (.headerCrcMismatch ⟨0x55, 0x55, 0x00, 0x07, 0x07, 0x01⟩)]),
    ([0x55, 0xAA, 0xBB, 0x55, 0x00, 0x07], .headerRead, 3, .count 6,
      [.diag (.headerCrcMismatch ⟨0x55, 0xAA, 0xBB, 0x55, 0x00, 0x07⟩)]),
    ([0x55, 0x55, 0x55, 0x55, 0x55, 0x55], .headerRead, 5, .count 6,
      [.diag (.headerCrcMismatch ⟨0x55, 0x55, 0x55, 0x55, 0x55, 0x55⟩)]),
    (bytesOver, .syncWait, 0, .count 6, [.diag (.oversize 301)]),
    ([0x55, 0x01, 0x25, 0x07, 0x01, 0xF9], .syncWait, 0, .count 6, [.diag (.oversize 301)]),
    ([0x55, 0xFF, 0xFF, 0xFF, 0x01, 0x2A], .syncWait, 0, .count 6, [.diag (.oversize 65791)]),
    ([0x55, 0x55, 0x00, 0x00, 0x01, 0xB5], .syncWait, 0, .count 6, [.diag (.oversize 21761)])] :
    List (List Byte × ParseState × Nat × Result × List Output)), accepts x.1 = some x.2 := by
  decide +kernel

/-- F8 with a wrong last byte, byte by byte: the payload failure. -/
theorem test_frByte_payload_failure :
    (nextOf (exec (.frByte 0x01) (withBytes (bytesMin.take 6)))).map (fun s => (s.fr.state, s.fr.idx, s.outputs)) =
      some (.syncWait, 0, [.diag (.payloadCrcMismatch ⟨0x55, 0x00, 0x00, 0x00, 0x05, 0x1B⟩ [0x01])]) := by
  decide +kernel

/-- F4: byte 7 completes the header found inside the failed one. -/
theorem test_frByte_after_replay :
    (nextOf (exec (.frByte 0x7A) (withBytes [0x55, 0x55, 0x00, 0x07, 0x07, 0x01]))).map (fun s => (s.fr.state, s.fr.idx)) =
      some (.dataRead, 0) := by
  decide +kernel

theorem test_frTake :
    (nextOf (exec .frTake (withBytes bytesV))).map State.result = some (.packet V) ∧
    refusalOf (exec .frTake (withBytes (bytesV.take 20))) = some .framerNotComplete := by
  decide +kernel

theorem test_frNew : (nextOf (exec .frNew (withBytes bytesV))).map State.fr = some Framer.fresh := by decide +kernel

/-! The telegram view: T1 to T11. -/

/-- The answers of all accessors in the order of 95_test_vectors.md section 2.3, the optional data apart. -/
def viewed (P : Packet) : List (Option Result) :=
  [Instr.tvPtype P, .tvDlen P, .tvOlen P, .tvRorg P, .tvStoff P, .tvStatus P, .tvUdlen P, .tvUdata P, .tvSender P,
   .tvOk P].map answer

def viewedOpt (P : Packet) : List (Option Result) := [Instr.tvSubtel P, .tvDest P, .tvDbm P, .tvSeclvl P].map answer

theorem test_view_V : viewed V = [some (.byte 0x01), some (.half 7), some (.byte 7), some (.byte 0xF6), some (.offset 6),
    some (.byte 0x30), some (.half 1), some (.bytes [0x30]), some (.word 0x0086B81A), some (.bit true)] ∧
    viewedOpt V = [some (.byte 3), some (.word 0xFFFFFFFF), some (.dbm (BitVec.ofInt 9 (-255))), some (.byte 0)] := by
  decide +kernel

theorem test_view_VLD : viewed Vld = [some (.byte 0x01), some (.half 9), some (.byte 7), some (.byte 0xD2), some (.offset 7),
    some (.byte 0x80), some (.half 2), some (.bytes [0x11, 0x22]), some (.word 0x05060708), some (.bit true)] ∧
    viewedOpt Vld = [some (.byte 1), some (.word 0x01020304), some (.dbm (BitVec.ofInt 9 (-64))), some (.byte 1)] := by
  decide +kernel

theorem test_view_BS4 : viewed Bs4 = [some (.byte 0x01), some (.half 10), some (.byte 0), some (.byte 0xA5), some (.offset 9),
    some (.byte 0x00), some (.half 4), some (.bytes [0xAA, 0xBB, 0xCC, 0x08]), some (.word 0xDEADBEEF), some (.bit true)] ∧
    ∀ i ∈ [Instr.tvSubtel Bs4, .tvDest Bs4, .tvDbm Bs4, .tvSeclvl Bs4], refusalOf (exec i fresh) = some .optDataTooShort := by
  decide +kernel

/-- T8, T9, T10: the eighth optional byte is ignored; a short packet's fixed accessors. -/
theorem test_view_edges :
    viewedOpt Opt8 = [some (.byte 1), some (.word 0xFFFFFFFF), some (.dbm (BitVec.ofInt 9 (-45))), some (.byte 0)] ∧
    [Instr.tvRorg Short, .tvStoff Short, .tvUdlen Short, .tvUdata Short, .tvOk Short].map answer =
      [some (.byte 0xF6), some (.offset 2), some (.half 0), some (.bytes []), some (.bit false)] ∧
    viewedOpt Short = [some (.byte 3), some (.word 0xFFFFFFFF), some (.dbm (BitVec.ofInt 9 (-45))), some (.byte 0)] ∧
    [Instr.tvStoff Vld6, .tvUdlen Vld6, .tvOk Vld6].map answer = [some (.offset 4), some (.half 0), some (.bit false)] := by
  decide +kernel

/-- R9, R140: V's destination is the broadcast address, VLD's is not. -/
theorem test_broadcast : V.destination.toOption.map isBroadcast = some true ∧ Vld.destination.toOption.map isBroadcast = some false := by
  decide +kernel

theorem test_view_RESP :
    [Instr.tvPtype Resp, .tvDlen Resp, .tvOlen Resp, .tvOk Resp].map answer =
      [some (.byte 0x02), some (.half 1), some (.byte 5), some (.bit false)] ∧
    ∀ i ∈ [Instr.tvRorg Resp, .tvStoff Resp, .tvStatus Resp, .tvUdlen Resp, .tvUdata Resp, .tvSender Resp, .tvSubtel Resp,
      .tvDest Resp, .tvDbm Resp, .tvSeclvl Resp], refusalOf (exec i fresh) = some .notRadio := by
  decide +kernel

/-! The profile decoders: M1 to M6, E1 to E33. -/

theorem test_pdMatch : ∀ x ∈ ([
    (0xF60201, some .rocker), (0xF602FF, some .rocker), (0xF60300, some .rocker), (0xF61000, some .window), (0xF61001, none),
    (0xF60402, some .cardKeyErp2), (0xF60401, some .cardKeyErp1), (0xF604FF, some .cardKeyErp1), (0xF605C0, some .smoke),
    (0xF605C1, none), (0xA50205, none), (0xF60100, none), (0x000000, none)] : List (ProfileId × Option Family)),
    answer (.pdMatch x.1) = some (.family x.2) := by
  decide +kernel

/-- A telegram of one data byte with a status byte. -/
def rps (status data : Byte) : Packet :=
  Packet.build 0x00 0x07 0x00 0x01 [0xF6, data, 0x00, 0x00, 0x00, 0x01, status]

def rockers (status data : Byte) : List (Option Result) :=
  ([0, 1, 2, 3] : List Channel).map fun ch => answer (.pdRocker (rps status data) ch)

def up : Event := .button .upOff true
def down : Event := .button .downOn true

/-- E1, E3, E5, E6, E8, E9, E10, E11: the events of the four channels. -/
theorem test_pdRocker_N : ∀ x ∈ ([
    (0x30, 0x30, [[up], [], [], []]), (0x30, 0x70, [[], [up], [], []]), (0x30, 0x00, [[.button .downOn false], [], [], []]),
    (0x30, 0x37, [[up], [up], [], []]), (0x30, 0x13, [[down, up], [], [], []]), (0x30, 0x31, [[up, down], [], [], []]),
    (0x30, 0xF0, [[], [], [], [up]]), (0x10, 0x90, [[], [], [down], []])] : List (Byte × Byte × List (List Event))),
    rockers x.1 x.2.1 = x.2.2.map fun es => some (.events es) := by
  decide +kernel

/-- E12 to E16. -/
theorem test_pdRocker_U : ∀ x ∈ ([
    (0x20, 0x00, [.releaseAll]), (0x20, 0x10, []), (0x20, 0x60, []), (0x00, 0x00, [.releaseAll]), (0x00, 0xE0, [])] :
    List (Byte × Byte × List Event)), rockers x.1 x.2.1 = List.replicate 4 (some (.events x.2.2)) := by
  decide +kernel

/-- E20 to E25. -/
theorem test_pdWindow : ∀ x ∈ ([
    (0x20, 0xD0, [.value true], [.value true]), (0x20, 0xF0, [.value false], [.value false]),
    (0x20, 0xE0, [.value true], [.value false]), (0x20, 0xDF, [.value true], [.value true]), (0x30, 0xD0, [], []),
    (0x00, 0xF0, [], [])] : List (Byte × Byte × List Event × List Event)),
    answer (.pdWinopen (rps x.1 x.2.1)) = some (.events x.2.2.1) ∧
    answer (.pdWintilt (rps x.1 x.2.1)) = some (.events x.2.2.2) := by
  decide +kernel

/-- E26 to E29. -/
theorem test_pdCardkey :
    [Instr.pdCardkey2 (rps 0x30 0x04), .pdCardkey2 (rps 0x30 0x00), .pdCardkey2 (rps 0x30 0x70), .pdCardkey2 (rps 0x30 0xFF),
     .pdCardkey1 (rps 0x30 0x70), .pdCardkey1 (rps 0x20 0x70), .pdCardkey1 (rps 0x30 0x00), .pdCardkey1 (rps 0x30 0x71)].map
      answer = [true, false, false, true, true, false, false, false].map fun v => some (.events [.value v]) := by
  decide +kernel

/-- E30 to E32. -/
theorem test_pdSmoke : ∀ x ∈ ([
    (0x10, true, false), (0x30, false, true), (0x00, false, false), (0x20, false, false), (0xDF, true, false)] :
    List (Byte × Bool × Bool)),
    answer (.pdSmokealm (rps 0x30 x.1)) = some (.events [.value x.2.1]) ∧
    answer (.pdSmokebat (rps 0x30 x.1)) = some (.events [.value x.2.2]) := by
  decide +kernel

/-- E33. -/
theorem test_decoder_gate : ∀ i ∈ decodersOn Bs4, answer i = some (.events []) := by decide +kernel

/-- Q2, Q3: the handler's own decoder, to its sink. -/
theorem test_pdInvoke :
    emitted (.pdInvoke h0 V) fresh = some [.sinkEvt h0 up] ∧ emitted (.pdInvoke h1 V) fresh = some [] ∧
    emitted (.pdInvoke h1 Ar) fresh = some [.sinkEvt h1 .releaseAll] := by
  decide +kernel

/-! The dispatcher: Q1 to Q15. -/

/-- Q1 to Q6. -/
theorem test_dpHandle_normal :
    emitted (.dpHandle V) (off []) = some [.diag (.unregisteredAddress 0x0086B81A)] ∧
    emitted (.dpHandle V) (off regQ2) = some [.sinkEvt h0 up] ∧
    emitted (.dpHandle Ar) (off regQ2) = some [.sinkEvt h0 .releaseAll, .sinkEvt h1 .releaseAll] ∧
    emitted (.dpHandle Resp) (off regQ2) = some [] ∧
    emitted (.dpHandle T09) (off regQ2) = some [.diag (.unknownPacketType 0x09)] ∧
    emitted (.dpHandle Short) (off regQ2) = some [.diag (.shortTelegram 3 (some 0xF6))] := by
  decide +kernel

/-- Parameters with fixed choices: the profile of P3 or P6, the two handlers of P3, an explicit teach flag. -/
def params (teach : Bool) (p : ProfileId) : Config.Params where
  explicitTeach := fun _ => teach
  learnProfile := fun _ => p
  handlerPlan := fun _ _ _ => (⟨0, 0, false, 0, 0⟩, [⟨1, 0, false, 1, 1⟩])
  regCapacity := none

/-- Q7 to Q10, P3, P6: learn-in, the threshold, the unsupported profile. -/
theorem test_dpHandle_learn_in : ∀ x ∈ ([
    (0xF60201, A, .disabled, regQ2, [.learnEvt .learnIn 0x0086B81A]),
    (0xF60201, B, .disabled, [(0x01020304, [rocker 0x01020304 0 0, rocker 0x01020304 1 1])], [.learnEvt .learnIn 0x01020304]),
    (0xF60201, W, .enabled, [], []), (0xF60201, V, .enabled, [], []),
    (0xA50205, A, .disabled, [], [.diag (.unsupportedProfile 0xA50205)])] :
    List (ProfileId × Packet × LearnState × Registry × List Output)),
    leaves (handle (params false x.1) x.2.1 (on [])) = some x.2.2 := by
  decide +kernel

/-- The learn-in of P3 where the registry holds one address and a bounded number of handlers for it. -/
def learnInBounded (perAddress : Nat) : Run State :=
  handle { params false 0xF60201 with regCapacity := some ⟨1, perAddress⟩ } A (on [])

/-- P3 by the capacity: two handlers per address fit and are registered as without a bound; one does not hold them (R9, D20). -/
theorem test_dpHandle_learn_in_bounded :
    leaves (learnInBounded 2) = some (.disabled, regQ2, [.learnEvt .learnIn 0x0086B81A]) ∧
    refusalOf (Run.outcome (learnInBounded 1)) = some .registryFull := by
  decide +kernel

/-- Q11, Q12, Q13. -/
theorem test_dpHandle_learn_other : ∀ x ∈ ([
    (false, Bs1, [], .enabled, [], []), (true, Bs1, [], .disabled, [], [.diag (.unsupportedProfile 0xD50001)]),
    (false, A, regQ2, .disabled, [], [.unpair 0x0086B81A, .learnEvt .learnOut 0x0086B81A]),
    (false, T09, [], .enabled, [], [.diag (.unknownPacketType 0x09)])] :
    List (Bool × Packet × Registry × LearnState × Registry × List Output)),
    leaves (handle (params x.1 0xD50001) x.2.1 (on x.2.2.1)) = some x.2.2.2 := by
  decide +kernel

/-- Q7 to Q10: the teach-in test, at the threshold and one below. -/
theorem test_dpTeachq :
    [Instr.dpTeachq A, .dpTeachq B, .dpTeachq W, .dpTeachq V].map answer =
      [some (.bit true), some (.bit true), some (.bit false), some (.bit false)] := by
  decide +kernel

theorem test_dpSetlearn :
    (nextOf (exec (.dpSetlearn true) (off regQ2))).map (fun s => (s.learn, s.reg)) = some (.enabled, regQ2) ∧
    (nextOf (exec (.dpSetlearn false) (on regQ2))).map (fun s => (s.learn, s.reg)) = some (.disabled, regQ2) := by
  decide +kernel

/-- Q14, the third call: the duplicate index 0 goes, the new record comes last. A record of no family is refused (U15). -/
theorem test_dpRegister :
    (nextOf (exec (.dpRegister (rocker 0x0086B81A 0 2)) (off regQ2))).map State.reg =
      some [(0x0086B81A, [h1, rocker 0x0086B81A 0 2])] ∧
    refusalOf (exec (.dpRegister { h0 with profileId := 0xA50205 }) fresh) = some .recordNotOfFamily := by
  decide +kernel

/-- Q15. -/
theorem test_dpUnregister :
    (nextOf (exec (.dpUnregister 0x0086B81A) (off (regQ2 ++ [(0x01020304, [rocker 0x01020304 0 0])])))).map State.reg =
      some [(0x01020304, [rocker 0x01020304 0 0])] ∧
    (nextOf (exec (.dpUnregister 0x00000003) (off regQ2))).map State.reg = some regQ2 := by
  decide +kernel

theorem test_dpLookup :
    (nextOf (exec (.dpLookup 0x0086B81A) (off regQ2))).map State.result = some (.handlers [h0, h1]) ∧
    (nextOf (exec (.dpLookup 0x0086B81B) (off regQ2))).map State.result = some (.handlers []) := by
  decide +kernel

/-! The channel and reset: H1 to H3. -/

/-- H1: two packets in one chunk. -/
theorem test_chRx_two_packets :
    (nextOf (exec (.chRx (bytesV ++ bytesV) none) (off regQ2))).map (fun s => (s.fr, s.outputs)) =
      some (Framer.fresh, [.sinkEvt h0 up, .sinkEvt h0 up]) := by
  decide +kernel

/-- H3, call 2: the framer is as it was. -/
theorem test_chRx_error :
    (nextOf (exec (.chRx (bytesB.drop 10) (some 1)) (withBytes (bytesB.take 10)))).map (fun s => (s.fr.state, s.fr.idx, s.outputs)) =
      some (.dataRead, 4, [.diag (.transportError 1)]) := by
  decide +kernel

theorem test_coreReset :
    nextOf (exec .coreReset { (on regQ2) with fr := framed bytesV, dbmMin := 0, result := .bit true }) = some State.reset := by
  decide +kernel

/-! The rows of the wire formats. -/

/-- V's header; V's header with a wrong CRC byte; the oversize header. -/
theorem test_esp3Header :
    (nextOf (exec (.esp3Header 0x00 0x07 0x07 0x01 0x7A) fresh)).map (fun s => (s.fr.state, s.result)) =
      some (.dataRead, .bit true) ∧
    answer (.esp3Header 0x00 0x07 0x07 0x01 0x7B) = some (.bit false) ∧
    answer (.esp3Header 0x01 0x2C 0x00 0x01 0xA8) = some (.bit false) := by
  decide +kernel

/-- V's payload after its header, with its CRC byte C0 and with C1 (S7). -/
theorem test_esp3Payload :
    (nextOf (exec (.esp3Payload [0xF6, 0x30, 0x00, 0x86, 0xB8, 0x1A, 0x30] [0x03, 0xFF, 0xFF, 0xFF, 0xFF, 0xFF, 0x00] 0xC0)
      (withBytes (bytesV.take 6)))).map (fun s => (s.fr, s.result, s.outputs)) =
      some (Framer.fresh, .bit true, [.diag (.unregisteredAddress 0x0086B81A)]) ∧
    (nextOf (exec (.esp3Payload [0xF6, 0x30, 0x00, 0x86, 0xB8, 0x1A, 0x30] [0x03, 0xFF, 0xFF, 0xFF, 0xFF, 0xFF, 0x00] 0xC1)
      (withBytes (bytesV.take 6)))).map (fun s => (s.fr.state, s.result)) = some (.syncWait, .bit false) := by
  decide +kernel

theorem test_ptype_rows :
    answer .ptypeRadio = some (.bit true) ∧ answer .ptypeRadioSubtelegram = some (.bit false) ∧
    emitted (.ptypeReserved 0x09) fresh = some [.diag (.unknownPacketType 0x09)] ∧ emitted .ptypeResponse fresh = some [] ∧
    emitted (.ptypeManufacturerSpecific 0x7F) fresh = some [] := by
  decide +kernel

theorem test_rorg_rows :
    answer .rorgVld = some (.rorg 1 false) ∧ answer .rorgRps = some (.rorg 0 true) ∧ answer .rorg4bs = some (.rorg 0 false) := by
  decide +kernel

/-- S3: status 30 has T21 and NU set, two rockers. E6, E14, E20, E26, E30 read field by field. -/
theorem test_field_rows :
    answer (.statusT21 0x30) = some (.count 2) ∧ answer (.statusNu 0x30) = some (.bit true) ∧
    answer (.rpsRockerN 1 1 3 1) = some (.actions [⟨0, .upOff, true⟩, ⟨1, .upOff, true⟩]) ∧
    answer (.rpsRockerU 3 0 0) = some (.buttons 3 false) ∧ answer (.rpsWindow 0xD 0) = some (.position .tilted) ∧
    answer (.rpsWindow 0xF 0) = some (.position .closed) ∧ answer (.rpsCardkeyErp2 0 1 0) = some (.bit true) ∧
    answer .rpsCardkeyErp1 = some (.bit true) ∧ answer (.rpsSmoke 0 1 0) = some (.smoke true false) := by
  decide +kernel

theorem test_profile_rows :
    answer (.eepRockerFunc02 0xFF) = some (.eepRow (some .rocker) [.rocker]) ∧
    answer .eepWindowHandle = some (.eepRow (some .window) [.windowOpen, .windowTilted]) ∧
    answer (.eepCardkeyErp1 0x00) = some (.eepRow (some .cardKeyErp1) [.cardKeyErp1]) ∧
    answer .eepSmoke = some (.eepRow (some .smoke) [.smokeAlarm, .smokeBattery]) := by
  decide +kernel

/-- Signal byte FF is -255 dBm. -/
theorem test_optdata_row :
    answer (.optdataRadio 0x03 0xFFFFFFFF 0xFF 0x00) = some (.optData 0x03 0xFFFFFFFF (BitVec.ofInt 9 (-255)) 0x00) := by
  decide +kernel

/-! Concrete cases that meet the hypotheses of the statements, one for each clause, at the edges of its range. -/

/-- A header's six bytes as stored. -/
def stored (H : Header) : Memory := [(0, H.sync), (1, H.lenHi), (2, H.lenLo), (3, H.optLen), (4, H.ptype), (5, H.crc)]

/-- A framer with five bytes of a header gathered. -/
def awaiting (H : Header) : Framer := { state := .headerRead, idx := 5, hdr := (stored H).take 5, pay := [] }

/-- A framer with four bytes of V's header gathered. -/
def atFour : Framer := { state := .headerRead, idx := 4, hdr := (stored V.hdr).take 4, pay := [] }

/-- A framer that awaits payload byte `i`, those before it zero. -/
def atPayload (H : Header) (i : Nat) : Framer :=
  { state := .dataRead, idx := i, hdr := stored H, pay := (List.range i).map fun k => (k, 0x00) }

/-- A framer that holds the smallest packet. -/
def holdsMin : Framer := { state := .complete, idx := 1, hdr := stored Min.hdr, pay := [(0, 0x00)] }

def at_ (F : Framer) : State := { State.reset with fr := F }

theorem atFour_inv : atFour.Inv := ⟨by decide, by decide, by decide, by decide, rfl, by decide⟩

theorem awaiting_inv : (awaiting V.hdr).Inv := ⟨by decide, by decide, by decide, by decide, rfl, by decide⟩

theorem holds_V (i : Nat) : (atPayload V.hdr i).holds V.hdr := ⟨rfl, rfl, rfl, rfl, rfl, rfl⟩

theorem accepted_V (i : Nat) : (atPayload V.hdr i).accepted V.hdr := ⟨holds_V i, rfl, by decide +kernel, by decide +kernel⟩

theorem atPayload_inv : (atPayload V.hdr 0).Inv :=
  ⟨by decide, by decide, V.hdr, accepted_V 0, by decide +kernel, fun i => by simp [atPayload, Framer.payAt]⟩

theorem holdsMin_inv : holdsMin.Inv := by
  refine ⟨by decide, by decide, Min.hdr, ⟨⟨rfl, rfl, rfl, rfl, rfl, rfl⟩, rfl, by decide +kernel, by decide +kernel⟩,
    by decide +kernel, [0x00], by decide +kernel, by decide +kernel, fun i => ?_⟩
  cases i <;> simp [holdsMin, Framer.payAt, Memory.read]

theorem regQ2_inv : Registry.Inv regQ2 := by
  unfold Registry.Inv
  decide +kernel

/-- A state that meets the invariant in the middle of a packet, a registration to be made. -/
def busy : State := { State.reset with fr := atPayload V.hdr 0, reg := regQ2, issue := [.call (.dpRegister h1)] }

theorem busy_inv : busy.Inv := ⟨atPayload_inv, regQ2_inv⟩

theorem witness_DecodeOfEncodeGivesInstruction :
    ∀ i ∈ [Instr.pdInvoke h1 V, .chRx [0xDE] (some 255), .crc8Compute [] 0x00, .ptypeReserved 0x7F, .esp3Payload [] [] 0x00],
      i.wf = true ∧ i.fits = true := by
  decide +kernel

theorem witness_DecodedLineIsItsEncoding :
    decodeLine ⟨.operation, [0x60, 0x00, 0x04, 0x00, 0x55, 0x00, 0x07, 0x07]⟩ = .ok (.chRx [0x55, 0x00, 0x07, 0x07] none) := by
  decide +kernel

/-- One state for each clause: a line, a call, a write, an ill-formed call, a bad line, no such `opsel`, nothing. -/
theorem witness_StepRunsDecodedInstruction :
    decodeLine ⟨.operation, [0x41, 0x01]⟩ = .ok (.dpSetlearn true) ∧ (Instr.dpRegister h0).wf = true ∧
    (Instr.dpHandle broken).wf = false ∧ decodeLine ⟨.operation, [0x01]⟩ = .error (.noSuchOperation 0x01) ∧
    (∀ rs ∈ [[Request.line ⟨.operation, [0x41, 0x01]⟩], [.call (.dpRegister h0)], [.setDbmMin 0], [.call (.dpHandle broken)],
      [.line ⟨.operation, [0x01]⟩], []], ∃ s : State, s.issue = rs) := by
  refine ⟨by decide +kernel, by decide, by decide +kernel, by decide +kernel, fun rs _ => ⟨{ State.reset with issue := rs }, rfl⟩⟩

theorem witness_StepKeepsInvariant : busy.Inv ∧ ∃ t, step busy = .next t :=
  ⟨busy_inv, { busy with issue := [], result := .none }, next_of (by decide +kernel)⟩

theorem witness_StepNeverFaults : busy.Inv := busy_inv

/-- Each host operation; the framer in the middle of a packet. -/
theorem witness_HostOperationsComplete :
    busy.Inv ∧ recordOk h0 = true ∧ busy.fr.state ≠ .complete ∧
    ∀ i ∈ [Instr.coreReset, .dpSetlearn true, .dpRegister h0, .dpUnregister 0, .chRx bytesV none, .chRx [] (some 1)],
      hostOperation i := by
  refine ⟨busy_inv, by decide +kernel, by decide, ?_⟩
  simp [hostOperation]

theorem witness_CrcDetectsErrors :
    ([0x01] : List Byte).length = ([0x80] : List Byte).length ∧
    crc8Compute ([0x01] ++ 0x02 :: []) 0x00 = crc8Compute ([0x01] ++ 0x02 :: []) 0x00 := ⟨rfl, rfl⟩

theorem witness_ScanningTakesOnlySyncByte :
    fresh.fr.state = .syncWait ∧ (0x54 : Byte) ≠ 0x55 ∧ (0x55 : Byte) = 0x55 := by decide

theorem witness_BytesAreStoredInOrder :
    ((at_ atFour).fr.state = .headerRead ∧ (at_ atFour).fr.idx < 5) ∧
    (at_ (atPayload V.hdr 13)).fr.state = .dataRead ∧ (at_ (atPayload V.hdr 13)).fr.holds V.hdr ∧ V.hdr.paySize ≤ 300 ∧
    (at_ (atPayload V.hdr 13)).fr.idx + 1 < V.hdr.paySize :=
  ⟨by decide, rfl, holds_V 13, by decide +kernel, by decide +kernel⟩

/-- Sizes 300 (F10) and 301 (S8). -/
theorem witness_MatchingHeaderIsSizedThenAllocated :
    ∀ H ∈ [(⟨0x55, 0x01, 0x2B, 0x00, 0x01, 0xBE⟩ : Header), ⟨0x55, 0x01, 0x2C, 0x00, 0x01, 0xA8⟩],
      (at_ (awaiting H)).fr.awaitsCrc H ∧ crc8Compute [H.lenHi, H.lenLo, H.optLen, H.ptype] 0x00 = H.crc ∧
      (H.paySize = 300 ∨ H.paySize = 301) := by
  unfold Framer.awaitsCrc
  decide +kernel

/-- No sync byte among the five replayed; the first of them; the last. -/
theorem witness_HeaderMismatchReplaysFiveBytes :
    ∀ H ∈ [(⟨0x55, 0x00, 0x07, 0x07, 0x01, 0x7B⟩ : Header), ⟨0x55, 0x55, 0x55, 0x55, 0x55, 0x55⟩,
        ⟨0x55, 0x00, 0x07, 0x07, 0x01, 0x55⟩],
      (at_ (awaiting H)).fr.awaitsCrc H ∧ crc8Compute [H.lenHi, H.lenLo, H.optLen, H.ptype] 0x00 ≠ H.crc := by
  unfold Framer.awaitsCrc
  decide +kernel

/-- The smallest packet: no byte before the last, which is 00 where it matches. -/
theorem witness_LastPayloadByteDecides :
    (at_ (atPayload Min.hdr 0)).fr.state = .dataRead ∧ (at_ (atPayload Min.hdr 0)).fr.holds Min.hdr ∧ Min.hdr.paySize ≤ 300 ∧
    (at_ (atPayload Min.hdr 0)).fr.idx + 1 = Min.hdr.paySize ∧ ([] : List Byte).length = (at_ (atPayload Min.hdr 0)).fr.idx ∧
    (∀ i, i < (at_ (atPayload Min.hdr 0)).fr.idx → (at_ (atPayload Min.hdr 0)).fr.payAt i = ([] : List Byte)[i]?) ∧
    crc8Compute [] 0x00 = 0x00 ∧ crc8Compute [] 0x00 ≠ 0x01 :=
  ⟨rfl, ⟨rfl, rfl, rfl, rfl, rfl, rfl⟩, by decide +kernel, by decide +kernel, rfl, fun _ _ => rfl, by decide, by decide⟩

theorem witness_CompleteFramerTakesNothing : (at_ holdsMin).fr.state = .complete := rfl

theorem witness_FrByteMakesOnlyListedTransitions :
    Framer.fresh.Inv ∧ atFour.Inv ∧ atFour.idx < 5 ∧ (awaiting V.hdr).Inv ∧ (awaiting V.hdr).idx = 5 ∧
    (atPayload V.hdr 0).Inv ∧ holdsMin.Inv :=
  ⟨Framer.fresh_inv, atFour_inv, by decide, awaiting_inv, rfl, atPayload_inv, holdsMin_inv⟩

/-- The byte that completes the smallest packet, and one that does not. -/
theorem witness_FrAcceptIteratesFrByte :
    (at_ (atPayload Min.hdr 0)).fr.state ≠ .complete ∧
    (∃ t, exec (.frByte 0x00) (at_ (atPayload Min.hdr 0)) = .next t ∧ t.fr.state = .complete) ∧
    (∃ t u, exec (.frByte 0x01) (at_ (atPayload Min.hdr 0)) = .next t ∧ t.fr.state ≠ .complete ∧
      exec (.frAccept []) t = .next u ∧ u.result = .count 0) ∧
    (at_ atFour).fr.Inv ∧ (at_ atFour).fr.state ≠ .complete := by
  refine ⟨by decide, ⟨at_ holdsMin, next_of (by decide +kernel), rfl⟩, ⟨{ at_ (atPayload Min.hdr 0) with
      fr := { state := .syncWait, idx := 0, hdr := stored Min.hdr, pay := [(0, 0x01)] }
      outputs := [.diag (.payloadCrcMismatch Min.hdr [0x01])] }, ?_⟩, atFour_inv, by decide⟩
  exact ⟨{ at_ (atPayload Min.hdr 0) with
      fr := { state := .syncWait, idx := 0, hdr := stored Min.hdr, pay := [(0, 0x01)] }
      outputs := [.diag (.payloadCrcMismatch Min.hdr [0x01])], result := .count 0 },
    next_of (by decide +kernel), by decide, next_of (by decide +kernel), rfl⟩

/-- A first part that completes, and one that does not with what follows it. -/
theorem witness_FrAcceptStreams :
    fresh.fr.state ≠ .complete ∧
    (∃ t, exec (.frAccept bytesMin) fresh = .next t ∧ t.result = .count 7 ∧ t.fr.state = .complete) ∧
    ∃ t u, exec (.frAccept [0xAA]) fresh = .next t ∧ t.result = .count 1 ∧ t.fr.state ≠ .complete ∧
      exec (.frAccept [0xBB]) t = .next u ∧ u.result = .count 1 :=
  ⟨by decide, ⟨{ at_ holdsMin with result := .count 7 }, next_of (by decide +kernel), rfl, rfl⟩,
    { fresh with result := .count 1 }, { fresh with result := .count 1 }, next_of (by decide +kernel), rfl, by decide,
    next_of (by decide +kernel), rfl⟩

theorem witness_FrTakeHandsOverPacket :
    (at_ holdsMin).fr.Inv ∧ (at_ holdsMin).fr.state = .complete ∧ (at_ atFour).fr.state ≠ .complete :=
  ⟨holdsMin_inv, rfl, by decide⟩

theorem witness_RadioAccessorsRefuseOtherTypes : Resp.hdr.ptype ≠ 0x01 ∧ T09.hdr.ptype ≠ 0x01 := by decide

theorem witness_OffsetsOfRadioPackets : ∀ P ∈ [V, Vld, Short, Vld6], P.completed = true ∧ P.hdr.ptype = 0x01 := by
  decide +kernel

/-- A radio packet of the least length `view_ok` takes, and the VLD one; no optional data. -/
def least : Packet := Packet.build 0x00 0x06 0x00 0x01 [0xF6, 0x00, 0x00, 0x00, 0x01, 0x30]
def leastVld : Packet := Packet.build 0x00 0x07 0x00 0x01 [0xD2, 0x00, 0x00, 0x00, 0x01, 0x80, 0x00]

theorem witness_AccessorsTileDataPart : ∀ P ∈ [least, leastVld, V, Vld], P.completed = true ∧
    nextOf (exec (.tvOk P) fresh) = some { fresh with result := .bit true } := by
  decide +kernel

/-- Radio packets with no data part: with seven optional bytes, and with nothing. -/
def noData : Packet := Packet.build 0x00 0x00 0x07 0x01 [0x01, 0xFF, 0xFF, 0xFF, 0xFF, 0x2D, 0x00]
def nothing : Packet := Packet.build 0x00 0x00 0x00 0x01 []

theorem witness_ShortTelegramAccessorsAreFree :
    (∀ P ∈ [Short, Vld6, noData, nothing], P.completed = true ∧ P.hdr.ptype = 0x01 ∧ P.viewOk = false) ∧
    (1 ≤ Short.dl ∧ 0 ≤ Short.statusOffset ∧ 5 ≤ Short.pay.length) ∧
    (noData.dl = 0 ∧ noData.statusOffset < 0) ∧ nothing.pay.length < 5 := by
  decide +kernel

theorem witness_OptionalDataAccessorsReadSevenBytes :
    ∀ P ∈ [V, Opt8, Short], P.completed = true ∧ P.hdr.ptype = 0x01 ∧ 7 ≤ P.ol := by
  decide +kernel

theorem witness_PreconditionsAreRefused : (Bs1.hdr.ptype = 0x01 ∧ Bs1.ol = 6) ∧ Resp.hdr.ptype ≠ 0x01 := by decide +kernel

theorem witness_DecodersArePureBehindGate :
    (∀ P ∈ [V, Short, Bs4, least], P.completed = true ∧ P.hdr.ptype = 0x01 ∧ decodersOn P ≠ []) ∧
    (Bs4.viewOk = true ∧ Bs4.pay[0]? ≠ some 0xF6) ∧ least.viewOk = true ∧ least.dl = 6 := by
  decide +kernel

/-- An N-message and a U-message. -/
theorem witness_RockerMessageEvents :
    V.rps 0x30 0x30 ∧ (0x30 : Byte).getLsbD 4 = true ∧ Ar.rps 0x20 0x00 ∧ (0x20 : Byte).getLsbD 4 = false := by
  unfold Packet.rps
  decide +kernel

theorem witness_WindowHandleChannels : Win.rps 0x20 0xD0 := by
  unfold Packet.rps
  decide +kernel

theorem witness_CardKeyAndSmokeChannels : (rps 0x30 0x70).rps 0x30 0x70 := by
  unfold Packet.rps
  decide +kernel

theorem witness_InvokeForwardsDecodedEvents : V.completed = true ∧ V.viewOk = true ∧ h0.fits = true := by decide +kernel

theorem witness_HandleEffectsByMode :
    V.completed = true ∧ (off regQ2).learn = .disabled ∧ (on regQ2).learn = .enabled ∧ Registry.Inv (on regQ2).reg :=
  ⟨by decide +kernel, rfl, rfl, regQ2_inv⟩

/-- A packet with one data byte, of any type. -/
def typed (t : Byte) : Packet := Packet.build 0x00 0x01 0x00 t [0x00]

theorem witness_IgnoredPacketsChangeNothing :
    (∀ t ∈ ([0x02, 0x07, 0x80, 0xFF, 0x00, 0x08, 0x7F] : List Byte), (typed t).completed = true ∧ (typed t).hdr.ptype = t) ∧
    Short.completed = true ∧ Short.hdr.ptype = 0x01 ∧ Short.viewOk = false ∧ 1 ≤ Short.dl := by
  decide +kernel

/-- Q2, and Q1 with no handler. -/
theorem witness_NormalDispatchReachesEveryHandler :
    V.completed = true ∧ V.viewOk = true ∧ (off regQ2).learn = .disabled ∧
    nextOf (exec (.tvSender V) (off regQ2)) = some { (off regQ2) with result := .word 0x0086B81A } ∧
    (∀ h ∈ Registry.lookup (off regQ2).reg 0x0086B81A, nextOf (exec (h.decoder V) (off regQ2)) =
      some { (off regQ2) with result := .events (if h = h0 then [up] else []) }) ∧
    Registry.lookup (off []).reg 0x0086B81A = [] := by
  decide +kernel

theorem witness_NormalDispatchIgnoresOptionalData :
    V.completed = true ∧ A.completed = true ∧ V.viewOk = true ∧ A.hdr.ptype = 0x01 ∧ V.dl = A.dl ∧
    V.pay.take V.dl = A.pay.take A.dl ∧ V ≠ A ∧ (off regQ2).learn = .disabled := by
  decide +kernel

theorem witness_TeachInQualification :
    (∀ P ∈ [A, W, Bs1], P.completed = true ∧ P.viewOk = true) ∧ A.pay[0]? = some 0xF6 ∧ Bs1.pay[0]? ≠ some 0xF6 ∧
    (on []).learn = .enabled ∧ nextOf (exec (.dpTeachq W) (on [])) = some { (on []) with result := .bit false } := by
  decide +kernel

/-- P3: the learned profile is one of the OPEN functions of the core, so which of the two clauses applies is open: one of them
does. -/
theorem witness_LearnInRegistersHandlers :
    (A.completed = true ∧ A.viewOk = true ∧ (on []).learn = .enabled ∧
      nextOf (exec (.tvSender A) (on [])) = some { (on []) with result := .word 0x0086B81A } ∧
      nextOf (exec (.dpTeachq A) (on [])) = some { (on []) with result := .bit true } ∧
      Registry.lookup (on []).reg 0x0086B81A = []) ∧ Registry.Inv (on []).reg ∧
    (profileMatch (Config.params.learnProfile A) = none ∨ ∃ f, profileMatch (Config.params.learnProfile A) = some f) := by
  refine ⟨by decide +kernel, by unfold Registry.Inv; decide, ?_⟩
  cases profileMatch (Config.params.learnProfile A) <;> simp

/-- Q12. -/
theorem witness_LearnOutRemovesAllHandlers :
    (A.completed = true ∧ A.viewOk = true ∧ (on regQ2).learn = .enabled ∧
      nextOf (exec (.tvSender A) (on regQ2)) = some { (on regQ2) with result := .word 0x0086B81A } ∧
      nextOf (exec (.dpTeachq A) (on regQ2)) = some { (on regQ2) with result := .bit true } ∧
      Registry.lookup (on regQ2).reg 0x0086B81A ≠ []) ∧ Registry.Inv (on regQ2).reg :=
  ⟨by decide +kernel, regQ2_inv⟩

/-- Q12, and a second qualifying packet after it. -/
theorem witness_LearnModeIsSingleShot :
    A.completed = true ∧ B.completed = true ∧ (on regQ2).learn = .enabled ∧
    nextOf (exec (.dpHandle A) (on regQ2)) =
      some { (off []) with outputs := [.unpair 0x0086B81A, .learnEvt .learnOut 0x0086B81A] } ∧
    (off []).learn = .disabled := by
  decide +kernel

theorem witness_RegisterReplacesAndAppends :
    recordOk h0 = true ∧ recordOk { h0 with rule := .smokeAlarm } = false := by decide +kernel

theorem witness_UnregisterAndLookupOneAddress :
    ((0x0086B81A : Addr), [h0, h1]) ∈ regQ2 ∧ (∀ x ∈ regQ2, x.1 ≠ 0x0086B81B) ∧ Registry.Inv regQ2 :=
  ⟨by decide +kernel, by decide +kernel, regQ2_inv⟩

/-- The byte that completes the smallest packet, and one that does not. -/
theorem witness_RxFramesThenDispatches :
    (at_ (atPayload Min.hdr 0)).fr.state ≠ .complete ∧
    (∃ t, exec (.frByte 0x00) (at_ (atPayload Min.hdr 0)) = .next t ∧ t.fr.state = .complete ∧
      exec .frTake t = .next { t with result := .packet Min }) ∧
    ∃ t, exec (.frByte 0xAA) fresh = .next t ∧ t.fr.state ≠ .complete :=
  ⟨by decide, ⟨at_ holdsMin, next_of (by decide +kernel), rfl, next_of (by decide +kernel)⟩, fresh,
    next_of (by decide +kernel), by decide⟩

/-- S4: V cut 6 + 15 and byte by byte, an empty chunk among them. -/
theorem witness_ChunkingInvariance :
    [bytesV.take 6, bytesV.drop 6] ≠ [] ∧ ([] :: bytesV.map fun b => [b]) ≠ [] ∧
    [bytesV.take 6, bytesV.drop 6].flatten = ([] :: bytesV.map fun b => [b]).flatten := by
  decide +kernel

theorem witness_WholePacketIsDelivered :
    (∀ b ∈ ([0x00, 0xAA, 0x13] : List Byte), b ≠ 0x55) ∧ V.completed = true ∧ Min.completed = true ∧
    fresh.fr.state = .syncWait := by
  decide +kernel

/-- S6, S8, and the smallest packet with a wrong last byte. -/
theorem witness_NextPacketSurvivesDrop :
    V.completed = true ∧ fresh.fr.state = .syncWait ∧
    (let H : Header := ⟨0x55, 0x00, 0x07, 0x07, 0x01, 0x7B⟩; H.crcOk = false ∧ ∀ b ∈ H.replayed, b ≠ 0x55) ∧
    (let H : Header := ⟨0x55, 0x01, 0x2C, 0x00, 0x01, 0xA8⟩; H.crcOk = true ∧ H.paySize = 301) ∧
    Min.hdr.crcOk = true ∧ Min.hdr.paySize = 1 ∧ ([0x01] : List Byte).length = Min.hdr.paySize ∧ payCrcOk [0x01] = false := by
  decide +kernel

/-- F4 and F5's like: no byte, and four bytes, before the packet inside the failed header. -/
theorem witness_PacketInsideFailedHeaderSurvives :
    V.completed = true ∧
    (let H : Header := ⟨0x55, 0x55, 0x00, 0x07, 0x07, 0x01⟩
     0x55 :: ([] : List Byte) ++ V.hdr.bytes = H.bytes ++ [0x7A] ∧ H.crcOk = false) ∧
    (let H : Header := ⟨0x55, 0x01, 0x02, 0x03, 0x04, 0x55⟩
     0x55 :: ([0x01, 0x02, 0x03, 0x04] : List Byte) ++ V.hdr.bytes = H.bytes ++ [0x00, 0x07, 0x07, 0x01, 0x7A] ∧
     H.crcOk = false) := by
  decide +kernel

theorem witness_HeaderRowArrives : fresh.fr.state = .syncWait := rfl

/-- V's payload after its header, with the right and with a wrong CRC byte. -/
theorem witness_PayloadRowArrives :
    (at_ (atPayload V.hdr 0)).fr.state = .dataRead ∧ (at_ (atPayload V.hdr 0)).fr.idx = 0 ∧
    (at_ (atPayload V.hdr 0)).fr.accepted V.hdr ∧ V.hdr.dataLength = (V.pay.take 7).length ∧
    V.hdr.optDataLength = ((V.pay.drop 7).take 7).length ∧
    crc8Compute (V.pay.take 7 ++ (V.pay.drop 7).take 7) 0x00 = 0xC0 ∧
    crc8Compute (V.pay.take 7 ++ (V.pay.drop 7).take 7) 0x00 ≠ 0xC1 :=
  ⟨rfl, rfl, accepted_V 0, by decide +kernel, by decide +kernel, by decide +kernel, by decide +kernel⟩

theorem witness_PacketTypeAndRorgRows :
    ∀ t ∈ ([0x00, 0x08, 0x7F] : List Byte), t = 0x00 ∨ 8 ≤ t.toNat ∧ t.toNat ≤ 0x7F := by decide

theorem witness_ProfileAndOptionalDataRows : ∀ ty ∈ ([0x00, 0x01, 0x03, 0xFF] : List Byte), ty ≠ 0x02 := by decide

/-- Both alternatives of the second clause: an answer, and a refusal. -/
theorem witness_ReadersChangeNothing :
    (¬ hasEffect (.tvSender V) ∧ ∃ t, exec (.tvSender V) fresh = .next t) ∧
    Instr.tvSender V ∈ accessorsOn V ∧ Instr.tvSender Resp ∈ accessorsOn Resp ∧
    ∀ s, exec (.tvSender Resp) s = .refused .notRadio := by
  refine ⟨⟨by simp [hasEffect, touchesFramer], { fresh with result := .word 0x0086B81A }, next_of (by decide +kernel)⟩,
    by simp [accessorsOn], by simp [accessorsOn], fun s => ?_⟩
  rfl

/-- A registration leaves the framer; `DP.SETLEARN(1)` enters learn mode; reset writes the threshold. -/
theorem witness_FramesOfEveryInstruction :
    ¬ touchesFramer (.dpSetlearn true) ∧
    (∃ t, exec (.dpSetlearn true) (off regQ2) = .next t ∧ (off regQ2).learn = .disabled ∧ t.learn = .enabled) ∧
    ∃ t, exec .coreReset { fresh with dbmMin := 0 } = .next t ∧ t.dbmMin ≠ 0 := by
  refine ⟨by simp [touchesFramer], ⟨on regQ2, next_of (by decide +kernel), rfl, rfl⟩, State.reset,
    next_of (by decide +kernel), by decide⟩

end Sys2Proof.Tests
end

section
/-! PROOFS. The framer's family (41_framer.md): the rules of `FR.BYTE`, `FR.ACCEPT` and `FR.TAKE` as operations on the
state, the byte step in SyncWait and at the last payload byte, and the statements O12, O16 and O21. -/

namespace Sys2Proof.Machine

open Sys2Proof

/-! The framer's operations on the state. -/

/-- `FR.BYTE` writes the framer and raises the diagnostics that the framer's own byte step answers. -/
theorem exec_frByte_of_byte {s : State} {b : Byte} {F : Framer} {ds : List Diag} (h : s.fr.byte b = .ok (F, ds)) :
    exec (.frByte b) s =
      .next { s with fr := F, outputs := s.outputs ++ ds.map Output.diag, result := .none } := by
  show execFrByte b s = _
  rw [execFrByte, h]
  rfl

/-- `FR.ACCEPT` writes the framer, raises the diagnostics and answers the count of the framer's own buffer operation. -/
theorem exec_frAccept_of_accept {s : State} {buffer : List Byte} {n : Nat} {F : Framer} {ds : List Diag}
    (h : s.fr.accept buffer = .ok (n, F, ds)) :
    exec (.frAccept buffer) s =
      .next { s with fr := F, outputs := s.outputs ++ ds.map Output.diag, result := .count n } := by
  show execFrAccept buffer s = _
  rw [execFrAccept, h]
  rfl

/-- `FR.TAKE` answers the packet that the framer hands over and changes nothing else. -/
theorem exec_frTake_of_take {s : State} {P : Packet} (h : s.fr.take = .ok P) :
    exec .frTake s = .next { s with result := .packet P } := by
  show execFrTake s = _
  rw [execFrTake, h]
  rfl

/-- A framer that is not complete refuses the hand-over (93 U5). -/
theorem exec_frTake_of_not_complete {s : State} (h : s.fr.isComplete = false) :
    exec .frTake s = .refused .framerNotComplete := by
  show execFrTake s = _
  rw [execFrTake, Framer.take, h]
  rfl

theorem Framer.isComplete_iff {F : Framer} : F.isComplete = true ↔ F.state = .complete := by
  simp [Framer.isComplete]

theorem Framer.isComplete_eq_false_iff {F : Framer} : F.isComplete = false ↔ F.state ≠ .complete := by
  simp [Framer.isComplete]

/-- `FR.ACCEPT` stops after the byte that completes the packet (R111). -/
theorem Framer.accept_cons_of_completes {F F' : Framer} {b : Byte} {ds : List Diag} (hF : F.state ≠ .complete)
    (hb : F.byte b = .ok (F', ds)) (hF' : F'.state = .complete) (more : List Byte) :
    F.accept (b :: more) = .ok (1, F', ds) := by
  simp [Framer.accept, Framer.isComplete_eq_false_iff.2 hF, Framer.acceptLoop, hb, Framer.isComplete_iff.2 hF']

/-! SyncWait (R102). -/

theorem Framer.byte_of_syncWait {F : Framer} (h : F.state = .syncWait) (b : Byte) :
    F.byte b = .ok (F.syncByte b, []) := by
  rw [Framer.byte, h]

theorem Framer.syncByte_of_ne {b : Byte} (h : b ≠ Config.sync) (F : Framer) : F.syncByte b = F := if_neg h

theorem Framer.syncByte_sync (F : Framer) :
    F.syncByte Config.sync =
      { F with state := .headerRead, idx := 1, hdr := Memory.write F.hdr 0 Config.sync } := if_pos rfl

/-- Settles O12: in SyncWait the byte step is `Framer.syncByte`, split on whether the byte is the sync byte. -/
theorem scanningTakesOnlySyncByte : Obligations.ScanningTakesOnlySyncByte := by
  intro b s hst
  refine ⟨s.fr.syncByte b, ?_, fun hb => Framer.syncByte_of_ne hb _, ?_⟩
  · simpa using exec_frByte_of_byte (Framer.byte_of_syncWait hst b)
  · rintro rfl
    rw [show (0x55 : Byte) = Config.sync from rfl, Framer.syncByte_sync]
    refine ⟨rfl, rfl, fun _ => rfl, fun i => ?_⟩
    simp [Framer.hdrAt, eq_comm]

/-! The last payload byte (R108, R109). -/

/-- The framer with a payload byte stored at its index, and the index advanced (R107). -/
def Framer.putPayload (F : Framer) (b : Byte) : Framer :=
  { F with pay := Memory.write F.pay F.idx b, idx := F.idx + 1 }

@[simp] theorem Framer.putPayload_state (F : Framer) (b : Byte) : (F.putPayload b).state = F.state := rfl
@[simp] theorem Framer.putPayload_idx (F : Framer) (b : Byte) : (F.putPayload b).idx = F.idx + 1 := rfl
@[simp] theorem Framer.putPayload_hdrAt (F : Framer) (b : Byte) (i : Nat) :
    (F.putPayload b).hdrAt i = F.hdrAt i := rfl

@[simp] theorem Framer.putPayload_payAt (F : Framer) (b : Byte) (i : Nat) :
    (F.putPayload b).payAt i = if i = F.idx then some b else F.payAt i := by
  simp [Framer.putPayload, Framer.payAt, eq_comm]

theorem Framer.storePayload_eq_putPayload {F : Framer} {n : Nat} {b : Byte} (h : F.idx < n) (hn : n ≤ 300) :
    F.storePayload n b = .ok (F.putPayload b) := Framer.storePayload_of_lt h hn

/-- The payload reads as `bs` where the buffer's first bytes are those of `bs`. -/
theorem Framer.payload_eq_ok_of_payAt {F : Framer} {bs : List Byte} (hn : bs.length ≤ 300)
    (h : ∀ i, i < bs.length → F.payAt i = bs[i]?) : F.payload bs.length = .ok bs := by
  refine readBytes_eq_ok.2 ⟨rfl, fun k hk => ?_⟩
  rw [Nat.zero_add]
  exact ⟨hk.trans_le hn, h k hk⟩

/-- The bytes gathered so far with the stored one after them. -/
theorem Framer.putPayload_payAt_of_gathered {F : Framer} {bytes : List Byte} (b : Byte) (hl : bytes.length = F.idx)
    (h : ∀ i, i < F.idx → F.payAt i = bytes[i]?) :
    ∀ i, i < (bytes ++ [b]).length → (F.putPayload b).payAt i = (bytes ++ [b])[i]? := by
  intro i hi
  rw [List.length_append, List.length_singleton] at hi
  rw [Framer.putPayload_payAt]
  by_cases he : i = F.idx
  · rw [if_pos he, he, ← hl, List.getElem?_concat_length]
  · rw [if_neg he, h i (by omega), List.getElem?_append_left (by omega)]

/-- The last byte of a payload is checked against the CRC of those before it. -/
theorem payCrcOk_concat (bytes : List Byte) (b : Byte) :
    payCrcOk (bytes ++ [b]) = true ↔ crc8Compute bytes 0x00 = b := by
  rw [payCrcOk, List.getLast?_concat, List.dropLast_concat, beq_iff_eq, Option.some.injEq, eq_comm]
  rfl

/-- The end of a payload that reads as `bytes` is decided by its CRC (R108, R109). -/
theorem Framer.payloadDone_of_payload {F : Framer} {H : Header} {bytes : List Byte}
    (h : F.payload H.paySize = .ok bytes) :
    F.payloadDone H = .ok (if payCrcOk bytes = true then ({ F with state := .complete }, [])
      else (F.toSync, [.payloadCrcMismatch H bytes])) := by
  rw [Framer.payloadDone, h, Run.bind_ok]
  split <;> rfl

/-- The byte that fills the payload is stored and the payload's CRC decides. -/
theorem Framer.byte_of_last {F : Framer} {H : Header} {bytes : List Byte} (b : Byte) (hst : F.state = .dataRead)
    (hH : F.holds H) (hsz : H.paySize ≤ 300) (hlast : F.idx + 1 = H.paySize) (hl : bytes.length = F.idx)
    (hpay : ∀ i, i < F.idx → F.payAt i = bytes[i]?) :
    F.byte b = .ok (if crc8Compute bytes 0x00 = b then ({ F.putPayload b with state := .complete }, [])
      else ((F.putPayload b).toSync, [.payloadCrcMismatch H (bytes ++ [b])])) := by
  have hlen : (bytes ++ [b]).length = H.paySize := by simp [hl, hlast]
  have hread : (F.putPayload b).payload H.paySize = .ok (bytes ++ [b]) := by
    rw [← hlen]
    exact Framer.payload_eq_ok_of_payAt (hlen ▸ hsz) (Framer.putPayload_payAt_of_gathered b hl hpay)
  calc F.byte b = F.dataByte b := by rw [Framer.byte, hst]
    _ = (F.putPayload b).payloadDone H := by
      rw [Framer.dataByte, Framer.header_eq_ok.2 hH, Run.bind_ok,
        Framer.storePayload_eq_putPayload (by omega) hsz, Run.bind_ok,
        if_pos (show (F.putPayload b).idx = H.paySize from hlast)]
    _ = _ := by simp only [Framer.payloadDone_of_payload hread, payCrcOk_concat]

/-- Settles O16: the last byte is stored and the two outcomes are the two of `Framer.byte_of_last`. -/
theorem lastPayloadByteDecides : Obligations.LastPayloadByteDecides := by
  intro b H bytes s hst hH hsz hlast hl hpay
  have hbyte := Framer.byte_of_last b hst hH hsz hlast hl hpay
  by_cases hc : crc8Compute bytes 0x00 = b
  · rw [if_pos hc] at hbyte
    refine ⟨{ s.fr.putPayload b with state := .complete }, fun _ => rfl, Framer.putPayload_payAt s.fr b,
      fun _ => ⟨rfl, hlast, ?_, fun more => ?_⟩, fun hne => absurd hc hne⟩
    · simpa using exec_frByte_of_byte hbyte
    · simpa using exec_frAccept_of_accept
        (Framer.accept_cons_of_completes (by simp [hst]) hbyte rfl more)
  · rw [if_neg hc] at hbyte
    exact ⟨(s.fr.putPayload b).toSync, fun _ => rfl, Framer.putPayload_payAt s.fr b, fun h => absurd h hc,
      fun _ => ⟨rfl, rfl, exec_frByte_of_byte hbyte⟩⟩

/-! The hand-over (R115). -/

/-- Settles O21: the packet is that of `Framer.take_spec`; elsewhere the hand-over is refused. -/
theorem frTakeHandsOverPacket : Obligations.FrTakeHandsOverPacket := by
  refine ⟨fun s hs hc => ?_, fun s hc => ?_, rfl⟩
  · obtain ⟨P, htake, hP⟩ := Framer.take_spec hs (Framer.isComplete_iff.2 hc)
    exact ⟨P, exec_frTake_of_take htake, hP⟩
  · exact exec_frTake_of_not_complete (Framer.isComplete_eq_false_iff.2 hc)

end Sys2Proof.Machine
end

section
/-! PROOFS. The telegram view's family (42_telegram_view.md): the header accessors, the refusal on a packet that is not
radio, the status offset and the user-data length, and the statements O22 to O24. -/

namespace Sys2Proof

open Sys2Proof.Machine

/-! A stopped computation stops whatever follows it. -/

theorem Machine.Run.bind_of_error {α β : Type} {x : Run α} {e : Stop} (h : x = .error e) (f : α → Run β) :
    (x >>= f) = .error e := by
  rw [h, Run.bind_error]

theorem Machine.Run.outcome_bind_of_refuse {α β : Type} {x : Run α} {r : Refusal} (h : x = .error (.refuse r))
    (f : α → Run β) : Run.outcome (x >>= f) = .refused r := by
  rw [Run.bind_of_error h, Run.outcome_refuse]

/-! The precondition of the radio accessors (R131). -/

theorem Packet.isRadio_iff {P : Packet} : P.isRadio = true ↔ P.hdr.ptype = 0x01 := beq_iff_eq

theorem Packet.radio_of_ptype_ne {P : Packet} (h : P.hdr.ptype ≠ 0x01) : P.radio = .error (.refuse .notRadio) :=
  if_neg (mt Packet.isRadio_iff.1 h)

/-- The optional-data accessors test the packet type first. -/
theorem Packet.withOptData_of_ptype_ne {P : Packet} (h : P.hdr.ptype ≠ 0x01) :
    P.withOptData = .error (.refuse .notRadio) := Run.bind_of_error (Packet.radio_of_ptype_ne h) _

/-! The two lengths of a radio packet (R133, R135). -/

theorem Packet.v_eq_ite (P : Packet) : P.v = if P.pay[0]? = some 0xD2 then 1 else 0 := by
  rw [Packet.v, ← List.head?_eq_getElem?]
  cases P.pay.head? with
  | none => rfl
  | some r => exact if_congr Option.some_inj.symm rfl rfl

/-- The data length fits its 16-bit field. -/
theorem Packet.dl_lt (P : Packet) : P.dl < 65536 := (be16 P.hdr.lenHi P.hdr.lenLo).isLt

/-- The user-data length fits the 16 bits of its answer. -/
theorem Packet.toNat_userDataLength (P : Packet) : (BitVec.ofNat 16 P.userDataLength).toNat = P.userDataLength := by
  have hdl := P.dl_lt
  rw [BitVec.toNat_ofNat, Packet.userDataLength]
  omega

/-- Natural subtraction is the clamp of R135. -/
theorem Packet.userDataLength_eq_max (P : Packet) : (P.userDataLength : Int) = max 0 ((P.dl : Int) - 6 - P.v) := by
  rw [Packet.userDataLength]
  omega

namespace Machine

/-! The accessors as operations on the state. -/

theorem exec_tvStoff_of_radio {P : Packet} (h : P.isRadio = true) (s : State) :
    exec (.tvStoff P) s = .next { s with result := .offset P.statusOffset } := by
  show execTvStoff P s = _
  rw [execTvStoff, Packet.radio_of h]
  rfl

theorem exec_tvUdlen_of_radio {P : Packet} (h : P.isRadio = true) (s : State) :
    exec (.tvUdlen P) s = .next { s with result := .half (BitVec.ofNat 16 P.userDataLength) } := by
  show execTvUdlen P s = _
  rw [execTvUdlen, Packet.radio_of h]
  rfl

/-- Settles O23: every accessor begins with the test of the packet type, which stops it: `TV.STOFF` and `TV.UDLEN` at
their own test, the values of the data part at that of the value, those of the optional data at `withOptData`. -/
theorem radioAccessorsRefuseOtherTypes : Obligations.RadioAccessorsRefuseOtherTypes := by
  intro P s h
  have hr := Packet.radio_of_ptype_ne h
  have ho := Packet.withOptData_of_ptype_ne h
  have hRorg : P.rorg = _ := Run.bind_of_error hr _
  have hStatus : P.status = _ := Run.bind_of_error hr _
  have hUdata : P.userData = _ := Run.bind_of_error hr _
  have hSender : P.sender = _ := Run.bind_of_error hr _
  have hSubtel : P.subtelegramCount = _ := Run.bind_of_error ho _
  have hDest : P.destination = _ := Run.bind_of_error ho _
  have hDbm : P.signalDbm = _ := Run.bind_of_error ho _
  have hSeclvl : P.securityLevel = _ := Run.bind_of_error ho _
  simp only [List.forall_mem_cons]
  exact ⟨Run.outcome_bind_of_refuse hRorg _, Run.outcome_bind_of_refuse hr _, Run.outcome_bind_of_refuse hStatus _,
    Run.outcome_bind_of_refuse hr _, Run.outcome_bind_of_refuse hUdata _, Run.outcome_bind_of_refuse hSender _,
    Run.outcome_bind_of_refuse hSubtel _, Run.outcome_bind_of_refuse hDest _, Run.outcome_bind_of_refuse hDbm _,
    Run.outcome_bind_of_refuse hSeclvl _, List.forall_mem_nil _⟩

/-- Settles O24: the two answers are `statusOffset` and `userDataLength`, with `v` read off payload byte 0. -/
theorem offsetsOfRadioPackets : Obligations.OffsetsOfRadioPackets := by
  intro P s _ ht
  have hr := Packet.isRadio_iff.2 ht
  refine ⟨P.v, P.v_eq_ite, exec_tvStoff_of_radio hr s, ⟨_, ?_, exec_tvUdlen_of_radio hr s⟩, rfl, rfl⟩
  rw [Packet.toNat_userDataLength, Packet.userDataLength_eq_max]

/-- Settles O22: the three answers are the header's fields, the data length by `be16_toNat`. -/
theorem headerAccessorsReadHeader : Obligations.HeaderAccessorsReadHeader :=
  fun P _ => ⟨rfl, ⟨be16 P.hdr.lenHi P.hdr.lenLo, be16_toNat _ _, rfl⟩, rfl, rfl, rfl, rfl⟩

end Machine

end Sys2Proof
end

section
/-! PROOFS. The profile decoders' family (43_profile_decoders.md): what the gate reads on an RPS telegram, what a decoder
answers there, the rules' masks as bits, and the statements O33 and O34. -/

namespace Sys2Proof

open Sys2Proof.Machine

/-! The bytes the gate reads on an RPS telegram (R161). -/

theorem Packet.byteAt_of_getElem? {P : Packet} {i : Nat} {b : Byte} (h : P.pay[i]? = some b) :
    P.byteAt (i : Int) = .ok b := by
  simp [Packet.byteAt_natCast, h]

/-- An RPS telegram has no extra VLD byte. -/
theorem Packet.v_eq_zero_of_rps {P : Packet} {status data : Byte} (h : P.rps status data) : P.v = 0 := by
  obtain ⟨-, -, hrorg, -, -, -⟩ := h
  rw [Packet.v_eq_ite, hrorg, if_neg (by decide)]

/-- The status byte of an RPS telegram is the last byte of its data part. -/
theorem Packet.statusOffset_of_rps {P : Packet} {status data : Byte} (h : P.rps status data) :
    P.statusOffset = (P.dl - 1 : Nat) := by
  have hv := Packet.v_eq_zero_of_rps h
  obtain ⟨-, -, -, hdl, -, -⟩ := h
  rw [Packet.statusOffset, hv]
  omega

theorem Packet.userDataLength_ne_zero_of_rps {P : Packet} {status data : Byte} (h : P.rps status data) :
    P.userDataLength ≠ 0 := by
  have hv := Packet.v_eq_zero_of_rps h
  obtain ⟨-, -, -, hdl, -, -⟩ := h
  rw [Packet.userDataLength, hv]
  omega

namespace Machine

/-- The gate passes an RPS telegram and reads its status byte and its data byte. -/
theorem rpsInputs_of_rps {P : Packet} {status data : Byte} (h : P.rps status data) :
    rpsInputs P = .ok (some ⟨status, data⟩) := by
  have hoff := Packet.statusOffset_of_rps h
  have hlen := Packet.userDataLength_ne_zero_of_rps h
  obtain ⟨-, hview, hrorg, -, hstatus, hdata⟩ := h
  have hgate : ¬ ((0xF6 : Byte) ≠ rorgCodeRps ∨ P.userDataLength = 0) := not_or.2 ⟨not_not.2 rfl, hlen⟩
  rw [rpsInputs, Packet.radio_of (Packet.viewOk_iff.1 hview).1, Run.bind_ok,
    show P.byteAt 0 = .ok 0xF6 from Packet.byteAt_of_getElem? hrorg, Run.bind_ok, if_neg hgate, hoff,
    Packet.byteAt_of_getElem? hstatus, Run.bind_ok,
    show P.byteAt 1 = .ok data from Packet.byteAt_of_getElem? hdata, Run.bind_ok]

/-- On an RPS telegram a decoder answers its rule's events of the two bytes and changes nothing else. -/
theorem answerEvents_behindGate_of_rps {P : Packet} {status data : Byte} (h : P.rps status data)
    (rule : RpsInputs → List Event) (s : State) :
    answerEvents (behindGate rule P) s = .next { s with result := .events (rule ⟨status, data⟩) } := by
  rw [answerEvents, behindGate, rpsInputs_of_rps h]
  rfl

end Machine

/-! The masks of R165 to R168. -/

/-- A byte under the mask 0xF0 is its high nibble, shifted back. -/
theorem and_highNibble_eq_iff (data : Byte) (k : Nat) (hk : k < 16) :
    data &&& 0xF0 = BitVec.ofNat 8 (16 * k) ↔ data.toNat / 16 = k := by
  have hshift : data &&& (0xF0 : Byte) = (data >>> 4) <<< 4 := (BitVec.shiftLeft_ushiftRight (x := data) (n := 4)).symm
  rw [hshift]
  bv_omega

theorem windowTiltedBit_eq (data : Byte) : windowTiltedBit data = decide (data.toNat / 16 = 0xD) :=
  (beq_eq_decide _ _).trans (decide_eq_decide.2 (and_highNibble_eq_iff data 0xD (by decide)))

theorem windowClosedBit_eq (data : Byte) : windowClosedBit data = decide (data.toNat / 16 = 0xF) :=
  (beq_eq_decide _ _).trans (decide_eq_decide.2 (and_highNibble_eq_iff data 0xF (by decide)))

theorem erp2Inserted_eq (data : Byte) : erp2Inserted data = data.getLsbD 2 := by
  rw [erp2Inserted, show (0x04 : Byte) = BitVec.twoPow 8 2 from rfl, BitVec.and_twoPow]
  cases data.getLsbD 2 <;> rfl

theorem erp1Code_eq (data : Byte) : erp1Code data = decide (data = 0x70) := beq_eq_decide _ _

/-- The mask 0x30 keeps data bits 5 and 4. -/
theorem and_smokeMask (data : Byte) :
    data &&& 0x30 = (if data.getLsbD 5 then 0x20 else 0) ||| (if data.getLsbD 4 then 0x10 else 0) := by
  rw [show (0x30 : Byte) = BitVec.twoPow 8 5 ||| BitVec.twoPow 8 4 from rfl, BitVec.and_or_distrib_left,
    BitVec.and_twoPow, BitVec.and_twoPow]
  rfl

theorem smokeAlarmBit_eq (data : Byte) : smokeAlarmBit data = (!data.getLsbD 5 && data.getLsbD 4) := by
  rw [smokeAlarmBit, and_smokeMask]
  cases data.getLsbD 5 <;> cases data.getLsbD 4 <;> rfl

theorem smokeBatteryBit_eq (data : Byte) : smokeBatteryBit data = (data.getLsbD 5 && data.getLsbD 4) := by
  rw [smokeBatteryBit, and_smokeMask]
  cases data.getLsbD 5 <;> cases data.getLsbD 4 <;> rfl

namespace Machine

/-! The rules on a status byte and a data byte. -/

theorem windowValid_iff (i : RpsInputs) :
    windowValid i = true ↔ i.status.getLsbD 4 = false ∧ i.status.getLsbD 5 = true := by
  rw [windowValid, nuSet, t21Set, Bool.and_eq_true, Bool.not_eq_true']

theorem windowOpenRule_eq (i : RpsInputs) :
    windowOpenRule i = if windowValid i then [.value (decide (i.data.toNat / 16 ≠ 0xF))] else [] := by
  rw [windowOpenRule, windowClosedBit_eq, decide_not]

theorem windowTiltedRule_eq (i : RpsInputs) :
    windowTiltedRule i = if windowValid i then [.value (decide (i.data.toNat / 16 = 0xD))] else [] := by
  rw [windowTiltedRule, windowTiltedBit_eq]

/-- Settles O33: both channels are one rule behind the gate, with one validity; open and tilted by the high nibble. -/
theorem windowHandleChannels : Obligations.WindowHandleChannels := by
  intro P status data s h
  refine ⟨windowValid ⟨status, data⟩, windowValid_iff _, ?_, ?_, rfl, rfl⟩
  · rw [← windowOpenRule_eq ⟨status, data⟩]
    exact answerEvents_behindGate_of_rps h windowOpenRule s
  · rw [← windowTiltedRule_eq ⟨status, data⟩]
    exact answerEvents_behindGate_of_rps h windowTiltedRule s

/-- Settles O34: each of the four is one rule behind the gate, and each rule's mask is the bits stated. -/
theorem cardKeyAndSmokeChannels : Obligations.CardKeyAndSmokeChannels := by
  intro P status data s h
  refine ⟨?_, ?_, ?_, ?_, rfl, rfl, rfl, rfl⟩
  · rw [← erp2Inserted_eq]
    exact answerEvents_behindGate_of_rps h cardKeyErp2Rule s
  · rw [← erp1Code_eq]
    exact answerEvents_behindGate_of_rps h cardKeyErp1Rule s
  · rw [← smokeAlarmBit_eq]
    exact answerEvents_behindGate_of_rps h smokeAlarmRule s
  · rw [← smokeBatteryBit_eq]
    exact answerEvents_behindGate_of_rps h smokeBatteryRule s

end Machine

end Sys2Proof
end

section
/-! PROOFS. The dispatcher's family (44_dispatcher.md): a handler's decoder and its invocation, the registry's absent and
present addresses, a qualifying telegram in learn mode, and the statements O35, O42, O44 and O46. -/

namespace Sys2Proof.Machine

open Sys2Proof

/-! Invocation (R201). -/

/-- The decoder a rule tag names answers the events that an invocation forwards. -/
theorem exec_decoder (h : Handler) (P : Packet) (s : State) :
    exec (h.decoder P) s = answerEvents (decodeFor h P) s := by
  unfold Handler.decoder decodeFor
  cases h.rule <;> rfl

/-- `PD.INVOKE` emits the events of the handler's decode rule to its sink, in order. -/
theorem exec_pdInvoke_of_decodeFor {h : Handler} {P : Packet} {es : List Event} (hd : decodeFor h P = .ok es)
    (s : State) :
    exec (.pdInvoke h P) s = .next { s with outputs := s.outputs ++ es.map (.sinkEvt h), result := .none } := by
  show execPdInvoke h P s = _
  rw [execPdInvoke, invoke, hd]
  rfl

/-- Settles O35: on a completed radio packet the handler's decode rule yields events; its decoder answers them and the
invocation emits them. -/
theorem invokeForwardsDecodedEvents : Obligations.InvokeForwardsDecodedEvents := by
  intro h P s hc hv
  obtain ⟨es, hd⟩ := decodeFor_of_completed h hc (Packet.viewOk_iff.1 hv).1
  refine ⟨es, ?_, exec_pdInvoke_of_decodeFor hd s, fun _ => rfl⟩
  rw [exec_decoder, hd]
  rfl

/-! Learn mode on a telegram that qualifies (R192, R195). -/

theorem exec_tvSender_eq_next {P : Packet} {a : Addr} {s : State} :
    exec (.tvSender P) s = .next { s with result := .word a } ↔ P.sender = .ok a := by
  show execTvSender P s = _ ↔ _
  simp [execTvSender, Run.bind_eq_ok, State.answer]

/-- `DP.TEACHQ` answers the teach-in test of the packet's RORG byte. -/
theorem exec_dpTeachq_eq_next {P : Packet} {q : Bool} {s : State} :
    exec (.dpTeachq P) s = .next { s with result := .bit q } ↔
      ∃ r, P.rorg = .ok r ∧ qualifies Config.params s.dbmMin r P = .ok q := by
  show execDpTeachq P s = _ ↔ _
  simp [execDpTeachq, Run.bind_eq_ok, State.answer]

/-- Under `view_ok` the RORG is payload byte 0 (R132). -/
theorem rorg_of_getElem? {P : Packet} {r : Byte} (hc : P.completed = true) (hv : P.viewOk = true)
    (h : P.pay[0]? = some r) : P.rorg = .ok r := by
  obtain ⟨_, h0⟩ := List.getElem?_eq_some_iff.1 h
  rw [Packet.rorg_of_viewOk hc hv, h0]

/-- Past the tests of R190 a packet is a telegram. -/
theorem handle_of_viewOk (π : Config.Params) {P : Packet} (hv : P.viewOk = true) (s : State) :
    handle π P s = handleTelegram π P s := by
  simp [handle, hv, (Packet.viewOk_iff.1 hv).1]

/-- In learn mode a telegram that qualifies has the learn action of its sender. -/
theorem handle_of_qualifies {π : Config.Params} {P : Packet} {s : State} {r : Byte} {a : Addr}
    (hc : P.completed = true) (hv : P.viewOk = true) (hl : s.learn = .enabled) (ha : P.sender = .ok a)
    (hr : P.rorg = .ok r) (hq : qualifies π s.dbmMin r P = .ok true) :
    handle π P s = learnAction π a P s := by
  obtain ⟨r', a', h0, haddr, ht⟩ := handleTelegram_eq π hc hv s
  obtain rfl : r' = r := Except.ok.inj ((rorg_of_getElem? hc hv h0).symm.trans hr)
  obtain rfl : a' = a := Except.ok.inj ((Packet.sender_of_viewOk hv haddr).symm.trans ha)
  rw [handle_of_viewOk π hv, ht, hl]
  simp [learnMode, hq]

/-- The learn action of a registered sender is the learn-out, and ends learn mode (R195, R196). -/
theorem learnAction_of_has {π : Config.Params} {a : Addr} {P : Packet} {s : State} (h : Registry.has s.reg a = true) :
    learnAction π a P s = .ok ((learnOut a s).withLearn .disabled) := by
  rw [learnAction, if_pos h, Run.bind_ok]

/-- `DP.HANDLE` answers nothing besides what the dispatcher does. -/
theorem exec_dpHandle_of_handle {P : Packet} {s s' : State} (h : handle Config.params P s = .ok s') :
    exec (.dpHandle P) s = .next { s' with result := .none } := by
  show execDpHandle P s = _
  rw [execDpHandle, h]
  rfl

/-- A removal at its own address and at every other, as R195 and R199 state it. -/
theorem Registry.lookup_remove_eq_ite (r : Registry) (a b : Addr) :
    Registry.lookup (Registry.remove r a) b = if b = a then [] else Registry.lookup r b :=
  (Registry.lookup_remove r a b).trans (if_congr eq_comm rfl rfl)

/-- Settles O42: the sender has handlers, so it is in the registry, and the learn action of the qualifying telegram is
its learn-out, which removes its entry. -/
theorem learnOutRemovesAllHandlers : Obligations.LearnOutRemovesAllHandlers := by
  intro P s a hc hv hl hi ha hq hreg
  obtain ⟨r, hr, hq⟩ := exec_dpTeachq_eq_next.1 hq
  have hhandle := handle_of_qualifies hc hv hl (exec_tvSender_eq_next.1 ha) hr hq
  rw [learnAction_of_has ((Registry.has_eq hi a).2 hreg)] at hhandle
  refine ⟨Registry.remove s.reg a, ?_, Registry.lookup_remove_eq_ite s.reg a⟩
  rw [exec_dpHandle_of_handle hhandle]
  simp [learnOut, State.withLearn, State.emit, State.withReg]

/-! Removal and lookup (R199, R200). -/

/-- Removal of an absent address has no effect. -/
theorem Registry.remove_of_absent {r : Registry} {a : Addr} (h : ∀ x ∈ r, x.1 ≠ a) : Registry.remove r a = r :=
  List.filter_eq_self.2 fun x hx => bne_iff_ne.2 (h x hx)

theorem Registry.lookup_of_absent {r : Registry} {a : Addr} (h : ∀ x ∈ r, x.1 ≠ a) : Registry.lookup r a = [] :=
  by_contra fun hne => h _ (Registry.lookup_mem hne) rfl

/-- Where the addresses rise strictly, the list stored under an address is the one its lookup reads. -/
theorem Registry.lookup_of_mem {r : Registry} {a : Addr} {hs : List Handler}
    (hp : List.Pairwise (fun x y : Addr × List Handler => x.1 < y.1) r) (hm : (a, hs) ∈ r) :
    Registry.lookup r a = hs := by
  induction r with
  | nil => cases hm
  | cons x r ih =>
    obtain ⟨hlt, hp⟩ := List.pairwise_cons.1 hp
    rw [Registry.lookup_cons]
    rcases List.mem_cons.1 hm with rfl | hm
    · rw [if_pos rfl]
    · have hne : x.1 ≠ a := BitVec.ne_of_lt (hlt _ hm)
      rw [if_neg hne, ih hp hm]

theorem exec_dpUnregister (a : Addr) (s : State) :
    exec (.dpUnregister a) s = .next { s with reg := Registry.remove s.reg a, result := .none } := rfl

theorem exec_dpLookup (a : Addr) (s : State) :
    exec (.dpLookup a) s = .next { s with result := .handlers (Registry.lookup s.reg a) } := rfl

/-- Settles O46: `DP.UNREGISTER` is `Registry.remove`, `DP.LOOKUP` is `Registry.lookup`, and each is settled for a
present and for an absent address. -/
theorem unregisterAndLookupOneAddress : Obligations.UnregisterAndLookupOneAddress := by
  refine ⟨fun a s => ⟨Registry.remove s.reg a, exec_dpUnregister a s, Registry.lookup_remove_eq_ite s.reg a,
    Registry.remove_of_absent, rfl⟩, fun a s ⟨hp, _⟩ => ⟨fun hs hm => ?_, fun habs => ?_, rfl⟩⟩
  · rw [exec_dpLookup, Registry.lookup_of_mem hp hm]
  · rw [exec_dpLookup, Registry.lookup_of_absent habs]

/-! The learn state (R197). -/

theorem exec_dpSetlearn (e : Bool) (s : State) :
    exec (.dpSetlearn e) s = .next { s with learn := if e then .enabled else .disabled, result := .none } := rfl

/-- Settles O44: `exec_dpSetlearn` at the two operands. -/
theorem setLearnSetsMode : Obligations.SetLearnSetsMode :=
  fun s => ⟨exec_dpSetlearn true s, exec_dpSetlearn false s, fun _ => rfl⟩

end Sys2Proof.Machine
end

section
/-! PROOFS. The exceptions' family (60_exceptions.md): a chunk that the transport delivers with an error, and the
statement O47. -/

namespace Sys2Proof.Machine

open Sys2Proof

/-- A chunk with an error is dropped unseen: its only effect is the diagnostic (R221). -/
theorem rx_of_error (π : Config.Params) (bytes : List Byte) (e : Nat) (s : State) :
    rx π bytes (some e) s = .ok (s.raise (.transportError e)) := rfl

/-- `CH.RX` answers nothing besides what the chunk does to the state. -/
theorem exec_chRx_of_rx {bytes : List Byte} {err : Option Nat} {s s' : State}
    (h : rx Config.params bytes err s = .ok s') :
    exec (.chRx bytes err) s = .next { s' with result := .none } := by
  show execChRx bytes err s = _
  rw [execChRx, h]
  rfl

/-- Settles O47: with an error the state after `CH.RX` is the one with the diagnostic raised. -/
theorem transportErrorDropsChunk : Obligations.TransportErrorDropsChunk :=
  fun bytes e s => exec_chRx_of_rx (rx_of_error Config.params bytes e s)

end Sys2Proof.Machine
end

section
/-! PROOFS. The encoding's family (30_encoding.md): what each decoder accepts is the encoding of what it answers, one step
on each kind of request, and the statements O1 to O4. -/

namespace Sys2Proof

/-! Encode, then decode. -/

/-- Settles O1: the per-instruction statements of `Laws.DecodeEncode`, one for each constructor. -/
theorem decodeOfEncodeGivesInstruction : Obligations.DecodeOfEncodeGivesInstruction := by
  intro i
  cases i with
  | coreReset => exact Laws.DecodeEncode.coreReset
  | crc8Update byte crc => exact Laws.DecodeEncode.crc8Update byte crc
  | crc8Compute bytes seed => exact Laws.DecodeEncode.crc8Compute bytes seed
  | frNew => exact Laws.DecodeEncode.frNew
  | frByte b => exact Laws.DecodeEncode.frByte b
  | frAccept buffer => exact Laws.DecodeEncode.frAccept buffer
  | frTake => exact Laws.DecodeEncode.frTake
  | tvPtype P => exact Laws.DecodeEncode.tvPtype P
  | tvDlen P => exact Laws.DecodeEncode.tvDlen P
  | tvOlen P => exact Laws.DecodeEncode.tvOlen P
  | tvRorg P => exact Laws.DecodeEncode.tvRorg P
  | tvStoff P => exact Laws.DecodeEncode.tvStoff P
  | tvStatus P => exact Laws.DecodeEncode.tvStatus P
  | tvUdlen P => exact Laws.DecodeEncode.tvUdlen P
  | tvUdata P => exact Laws.DecodeEncode.tvUdata P
  | tvSender P => exact Laws.DecodeEncode.tvSender P
  | tvSubtel P => exact Laws.DecodeEncode.tvSubtel P
  | tvDest P => exact Laws.DecodeEncode.tvDest P
  | tvDbm P => exact Laws.DecodeEncode.tvDbm P
  | tvSeclvl P => exact Laws.DecodeEncode.tvSeclvl P
  | tvOk P => exact Laws.DecodeEncode.tvOk P
  | dpHandle P => exact Laws.DecodeEncode.dpHandle P
  | dpSetlearn enabled => exact Laws.DecodeEncode.dpSetlearn enabled
  | dpRegister h => exact Laws.DecodeEncode.dpRegister h
  | dpUnregister a => exact Laws.DecodeEncode.dpUnregister a
  | dpLookup a => exact Laws.DecodeEncode.dpLookup a
  | dpTeachq P => exact Laws.DecodeEncode.dpTeachq P
  | pdMatch p => exact Laws.DecodeEncode.pdMatch p
  | pdRocker P ch => exact Laws.DecodeEncode.pdRocker P ch
  | pdWinopen P => exact Laws.DecodeEncode.pdWinopen P
  | pdWintilt P => exact Laws.DecodeEncode.pdWintilt P
  | pdCardkey2 P => exact Laws.DecodeEncode.pdCardkey2 P
  | pdCardkey1 P => exact Laws.DecodeEncode.pdCardkey1 P
  | pdSmokealm P => exact Laws.DecodeEncode.pdSmokealm P
  | pdSmokebat P => exact Laws.DecodeEncode.pdSmokebat P
  | pdInvoke h P => exact Laws.DecodeEncode.pdInvoke h P
  | chRx bytes err => exact Laws.DecodeEncode.chRx bytes err
  | esp3Header h l o t c => exact Laws.DecodeEncode.esp3Header h l o t c
  | esp3Payload data opt c => exact Laws.DecodeEncode.esp3Payload data opt c
  | ptypeRadio => exact Laws.DecodeEncode.ptypeRadio
  | ptypeResponse => exact Laws.DecodeEncode.ptypeResponse
  | ptypeRadioSubtelegram => exact Laws.DecodeEncode.ptypeRadioSubtelegram
  | ptypeEvent => exact Laws.DecodeEncode.ptypeEvent
  | ptypeCommonCmd => exact Laws.DecodeEncode.ptypeCommonCmd
  | ptypeSmartAckCmd => exact Laws.DecodeEncode.ptypeSmartAckCmd
  | ptypeRemoteMgmtCmd => exact Laws.DecodeEncode.ptypeRemoteMgmtCmd
  | ptypeManufacturerSpecific low => exact Laws.DecodeEncode.ptypeManufacturerSpecific low
  | ptypeReserved t => exact Laws.DecodeEncode.ptypeReserved t
  | rorgRps => exact Laws.DecodeEncode.rorgRps
  | rorg1bs => exact Laws.DecodeEncode.rorg1bs
  | rorg4bs => exact Laws.DecodeEncode.rorg4bs
  | rorgVld => exact Laws.DecodeEncode.rorgVld
  | rorgMsc => exact Laws.DecodeEncode.rorgMsc
  | rorgAdt => exact Laws.DecodeEncode.rorgAdt
  | rorgSmLrnReq => exact Laws.DecodeEncode.rorgSmLrnReq
  | rorgSmLrnAns => exact Laws.DecodeEncode.rorgSmLrnAns
  | rorgSmRec => exact Laws.DecodeEncode.rorgSmRec
  | rorgSysEx => exact Laws.DecodeEncode.rorgSysEx
  | rorgSec => exact Laws.DecodeEncode.rorgSec
  | rorgSecEncaps => exact Laws.DecodeEncode.rorgSecEncaps
  | statusT21 b => exact Laws.DecodeEncode.statusT21 b
  | statusNu b => exact Laws.DecodeEncode.statusNu b
  | rpsRockerN a p b s => exact Laws.DecodeEncode.rpsRockerN a p b s
  | rpsRockerU b p low => exact Laws.DecodeEncode.rpsRockerU b p low
  | rpsWindow p low => exact Laws.DecodeEncode.rpsWindow p low
  | rpsCardkeyErp2 hi i low => exact Laws.DecodeEncode.rpsCardkeyErp2 hi i low
  | rpsCardkeyErp1 => exact Laws.DecodeEncode.rpsCardkeyErp1
  | rpsSmoke hi s low => exact Laws.DecodeEncode.rpsSmoke hi s low
  | eepRockerFunc02 ty => exact Laws.DecodeEncode.eepRockerFunc02 ty
  | eepRockerFunc03 ty => exact Laws.DecodeEncode.eepRockerFunc03 ty
  | eepWindowHandle => exact Laws.DecodeEncode.eepWindowHandle
  | eepCardkeyErp2 => exact Laws.DecodeEncode.eepCardkeyErp2
  | eepCardkeyErp1 ty => exact Laws.DecodeEncode.eepCardkeyErp1 ty
  | eepSmoke => exact Laws.DecodeEncode.eepSmoke
  | optdataRadio s d g v => exact Laws.DecodeEncode.optdataRadio s d g v

/-! Decode, then encode: what each decoder has accepted. -/

/-- The line of a well-formed instruction whose operands fit it: what O2 says of a line that decodes. -/
def IsLineOf (i : Instr) (l : Line) : Prop := i.wf = true ∧ i.fits = true ∧ encode i = l

/-- An operation whose only operand is a packet has accepted the packet's encoding. -/
theorem isLineOf_of_takeOnPacket {op : Byte} {f : Packet → Instr} {bs : List Byte} {i : Instr}
    (h : takeOnPacket f bs = .ok (i, [])) (hf : ∀ P, P.completed = true → IsLineOf (f P) (opLine op (encPacket P))) :
    IsLineOf i (opLine op bs) := by
  obtain ⟨P, rfl, hc, rfl⟩ := takeOnPacket_eq_ok h
  rw [List.append_nil]
  exact hf P hc

theorem takeBit_eq_ok {bs r : List Byte} {e : Bool} (h : takeBit bs = .ok (e, r)) :
    bs = (if e then 0x01 else 0x00) :: r := by
  obtain ⟨⟨b, bs₁⟩, hb, h⟩ := Except.bind_eq_ok_iff.1 h
  rw [takeByte_eq_ok hb]
  simp only at h
  split at h
  · rename_i h0
    cases h
    rw [h0]
    rfl
  · split at h
    · rename_i h1
      cases h
      rw [h1]
      rfl
    · cases h

/-- An operation's line is the line of the operation it decodes to (R70). -/
theorem isLineOf_of_decodeOperation {op : Byte} {bs : List Byte} {i : Instr}
    (h : decodeOperation op bs = .ok (i, [])) : IsLineOf i (opLine op bs) := by
  rw [show op = BitVec.ofNat 8 op.toNat by simp]
  unfold decodeOperation at h
  generalize op.toNat = code at h ⊢
  split at h
  case h_1 | h_4 | h_7 =>
    cases h
    exact ⟨rfl, rfl, rfl⟩
  case h_2 =>
    obtain ⟨⟨b, bs₁⟩, hb, h⟩ := Except.bind_eq_ok_iff.1 h
    obtain ⟨⟨c, bs₂⟩, hc, h⟩ := Except.bind_eq_ok_iff.1 h
    cases h
    rw [takeByte_eq_ok hb, takeByte_eq_ok hc]
    exact ⟨rfl, rfl, rfl⟩
  case h_3 =>
    obtain ⟨⟨seed, bs₁⟩, hseed, h⟩ := Except.bind_eq_ok_iff.1 h
    obtain ⟨⟨bytes, bs₂⟩, hbytes, h⟩ := Except.bind_eq_ok_iff.1 h
    cases h
    obtain ⟨hlen, rfl⟩ := takeSeq_eq_ok hbytes
    rw [takeByte_eq_ok hseed, List.append_nil]
    exact ⟨rfl, decide_eq_true hlen, rfl⟩
  case h_5 =>
    obtain ⟨⟨b, bs₁⟩, hb, h⟩ := Except.bind_eq_ok_iff.1 h
    cases h
    rw [takeByte_eq_ok hb]
    exact ⟨rfl, rfl, rfl⟩
  case h_6 =>
    obtain ⟨⟨bytes, bs₁⟩, hbytes, h⟩ := Except.bind_eq_ok_iff.1 h
    cases h
    obtain ⟨hlen, rfl⟩ := takeSeq_eq_ok hbytes
    rw [List.append_nil]
    exact ⟨rfl, decide_eq_true hlen, rfl⟩
  case h_23 =>
    obtain ⟨⟨e, bs₁⟩, he, h⟩ := Except.bind_eq_ok_iff.1 h
    cases h
    rw [takeBit_eq_ok he]
    exact ⟨rfl, rfl, rfl⟩
  case h_24 =>
    obtain ⟨⟨r, bs₁⟩, hr, h⟩ := Except.bind_eq_ok_iff.1 h
    cases h
    obtain ⟨hfits, rfl⟩ := takeRecord_eq_ok hr
    rw [List.append_nil]
    exact ⟨rfl, hfits, rfl⟩
  case h_25 | h_26 =>
    obtain ⟨⟨a, bs₁⟩, ha, h⟩ := Except.bind_eq_ok_iff.1 h
    cases h
    rw [takeAddr_eq_ok ha, List.append_nil]
    exact ⟨rfl, rfl, rfl⟩
  case h_28 =>
    obtain ⟨⟨p, bs₁⟩, hp, h⟩ := Except.bind_eq_ok_iff.1 h
    cases h
    rw [takeProfile_eq_ok hp, List.append_nil]
    exact ⟨rfl, rfl, rfl⟩
  case h_29 =>
    obtain ⟨⟨P, bs₁⟩, hP, h⟩ := Except.bind_eq_ok_iff.1 h
    obtain ⟨⟨ch, bs₂⟩, hch, h⟩ := Except.bind_eq_ok_iff.1 h
    cases h
    obtain ⟨hc, rfl⟩ := takePacket_eq_ok hP
    rw [takeChannel_eq_ok hch]
    exact ⟨hc, rfl, rfl⟩
  case h_36 =>
    obtain ⟨⟨r, bs₁⟩, hr, h⟩ := Except.bind_eq_ok_iff.1 h
    obtain ⟨⟨P, bs₂⟩, hP, h⟩ := Except.bind_eq_ok_iff.1 h
    cases h
    obtain ⟨hfits, rfl⟩ := takeRecord_eq_ok hr
    obtain ⟨hc, rfl⟩ := takePacket_eq_ok hP
    rw [List.append_nil]
    exact ⟨hc, hfits, rfl⟩
  case h_37 =>
    obtain ⟨⟨⟨chunk, err⟩, bs₁⟩, hchunk, h⟩ := Except.bind_eq_ok_iff.1 h
    cases h
    obtain ⟨hlen, herr, rfl⟩ := takeChunk_eq_ok hchunk
    rw [List.append_nil]
    exact ⟨rfl, Bool.and_eq_true_iff.2 ⟨decide_eq_true hlen, herr⟩, rfl⟩
  case h_38 => cases h
  all_goals exact isLineOf_of_takeOnPacket h fun P hc => ⟨hc, rfl, rfl⟩

/-! The one-byte formats. -/

/-- Every packet type code is the code of its row (R64, R65). -/
theorem isLineOf_decodePacketType (b : Byte) : IsLineOf (decodePacketType b) (fieldLine .packetType b) := by
  revert b
  unfold IsLineOf
  decide +kernel

theorem isLineOf_of_decodeRorg {b : Byte} {i : Instr} (h : decodeRorg b = .ok i) :
    IsLineOf i (fieldLine .rorg b) := by
  unfold decodeRorg at h
  split at h <;> rename_i hb <;> cases h <;>
    exact ⟨rfl, rfl, congrArg (fieldLine .rorg) (BitVec.eq_of_toNat_eq hb).symm⟩

/-- A status or data byte is put together again from its fields (R67, R68). -/
theorem isLineOf_of_decodeField {fmt : Format} {b : Byte} {i : Instr} (h : decodeField fmt b = .ok i) :
    IsLineOf i (fieldLine fmt b) := by
  cases fmt with
  | packetType =>
    cases h
    exact isLineOf_decodePacketType b
  | rorg => exact isLineOf_of_decodeRorg h
  | statusT21 =>
    simp only [decodeField] at h
    split at h <;> cases h
    exact ⟨‹_›, rfl, rfl⟩
  | statusNu =>
    simp only [decodeField] at h
    split at h <;> cases h
    exact ⟨‹_›, rfl, rfl⟩
  | cardkeyErp1 =>
    simp only [decodeField, erp1Code_eq, decide_eq_true_eq] at h
    split at h <;> cases h
    subst b
    exact ⟨rfl, rfl, rfl⟩
  | rockerN | rockerU | window | cardkeyErp2 | smoke =>
    cases h
    refine ⟨rfl, rfl, ?_⟩
    simp (disch := rfl) only [encode, BitVec.extractLsb'_append_extractLsb'_eq_extractLsb', BitVec.extractLsb'_eq_self]
  | operation | header | payload | profileId | optData => cases h

/-! The longer formats. -/

/-- The match table has accepted a row's own bytes (R69). -/
theorem isLineOf_of_decodeProfile {r f t : Byte} {i : Instr} (h : decodeProfile r f t = .ok i) :
    IsLineOf i ⟨.profileId, [r, f, t]⟩ := by
  unfold decodeProfile at h
  split at h
  · cases h
  · rename_i hr
    rw [not_not.1 hr, show f = BitVec.ofNat 8 f.toNat by simp]
    generalize f.toNat = func at h ⊢
    split at h
    case h_1 | h_2 =>
      cases h
      exact ⟨rfl, rfl, rfl⟩
    case h_3 | h_5 =>
      split at h <;> cases h
      subst t
      exact ⟨rfl, rfl, rfl⟩
    case h_4 =>
      split at h <;> cases h
      · subst t
        exact ⟨rfl, rfl, rfl⟩
      · exact ⟨bne_iff_ne.2 ‹_›, rfl, rfl⟩
    case h_6 => cases h

/-- A header's line begins with the sync byte (R61). -/
theorem isLineOf_of_decodeHeader {bs : List Byte} {i : Instr} (h : decodeHeader bs = .ok (i, [])) :
    IsLineOf i ⟨.header, bs⟩ := by
  obtain ⟨⟨sy, bs₁⟩, hsy, h⟩ := Except.bind_eq_ok_iff.1 h
  obtain ⟨⟨hi, bs₂⟩, hhi, h⟩ := Except.bind_eq_ok_iff.1 h
  obtain ⟨⟨lo, bs₃⟩, hlo, h⟩ := Except.bind_eq_ok_iff.1 h
  obtain ⟨⟨o, bs₄⟩, ho, h⟩ := Except.bind_eq_ok_iff.1 h
  obtain ⟨⟨t, bs₅⟩, ht, h⟩ := Except.bind_eq_ok_iff.1 h
  obtain ⟨⟨c, bs₆⟩, hc, h⟩ := Except.bind_eq_ok_iff.1 h
  simp only at h
  split at h <;> cases h
  subst sy
  rw [takeByte_eq_ok hsy, takeByte_eq_ok hhi, takeByte_eq_ok hlo, takeByte_eq_ok ho, takeByte_eq_ok ht,
    takeByte_eq_ok hc]
  exact ⟨rfl, rfl, rfl⟩

/-- A payload's line declares the lengths its parts have (R62). -/
theorem isLineOf_of_decodePayload {bs : List Byte} {i : Instr} (h : decodePayload bs = .ok (i, [])) :
    IsLineOf i ⟨.payload, bs⟩ := by
  obtain ⟨⟨hi, bs₁⟩, hhi, h⟩ := Except.bind_eq_ok_iff.1 h
  obtain ⟨⟨lo, bs₂⟩, hlo, h⟩ := Except.bind_eq_ok_iff.1 h
  obtain ⟨⟨ol, bs₃⟩, hol, h⟩ := Except.bind_eq_ok_iff.1 h
  simp only at h
  split at h
  · cases h
  · rename_i hsize
    obtain ⟨⟨data, bs₄⟩, hdata, h⟩ := Except.bind_eq_ok_iff.1 h
    obtain ⟨⟨opt, bs₅⟩, hopt, h⟩ := Except.bind_eq_ok_iff.1 h
    obtain ⟨⟨c, bs₆⟩, hc, h⟩ := Except.bind_eq_ok_iff.1 h
    cases h
    obtain ⟨hdata, hdl⟩ := takeBytes_eq_ok hdata
    obtain ⟨hopt : bs₄ = _, hoptl⟩ := takeBytes_eq_ok hopt
    have hc : bs₅ = _ := takeByte_eq_ok hc
    have hlt := ol.isLt
    refine ⟨?_, rfl, ?_⟩
    · simp only [Instr.wf, Bool.and_eq_true, decide_eq_true_eq]
      omega
    · rw [takeByte_eq_ok hhi, takeByte_eq_ok hlo, takeByte_eq_ok hol, hdata, hopt, hc]
      simp [encode, hdl, hoptl, encHalf_be16]

theorem isLineOf_of_decodeOptData {bs : List Byte} {i : Instr} (h : decodeOptData bs = .ok (i, [])) :
    IsLineOf i ⟨.optData, bs⟩ := by
  obtain ⟨⟨sub, bs₁⟩, hsub, h⟩ := Except.bind_eq_ok_iff.1 h
  obtain ⟨⟨d, bs₂⟩, hd, h⟩ := Except.bind_eq_ok_iff.1 h
  obtain ⟨⟨g, bs₃⟩, hg, h⟩ := Except.bind_eq_ok_iff.1 h
  obtain ⟨⟨v, bs₄⟩, hv, h⟩ := Except.bind_eq_ok_iff.1 h
  cases h
  rw [takeByte_eq_ok hsub, takeAddr_eq_ok hd, takeByte_eq_ok hg, takeByte_eq_ok hv]
  exact ⟨rfl, rfl, rfl⟩

/-- What is read from a line's bytes to their end is the line's instruction, in each format. -/
theorem isLineOf_of_decodePrefix {fmt : Format} {bs : List Byte} {i : Instr} (h : decodePrefix fmt bs = .ok (i, [])) :
    IsLineOf i ⟨fmt, bs⟩ := by
  unfold decodePrefix at h
  split at h
  · obtain ⟨⟨op, bs₁⟩, hop, h⟩ := Except.bind_eq_ok_iff.1 h
    rw [takeByte_eq_ok hop]
    exact isLineOf_of_decodeOperation h
  · exact isLineOf_of_decodeHeader h
  · exact isLineOf_of_decodePayload h
  · obtain ⟨⟨r, bs₁⟩, hr, h⟩ := Except.bind_eq_ok_iff.1 h
    obtain ⟨⟨f, bs₂⟩, hf, h⟩ := Except.bind_eq_ok_iff.1 h
    obtain ⟨⟨t, bs₃⟩, ht, h⟩ := Except.bind_eq_ok_iff.1 h
    obtain ⟨j, hj, h⟩ := Except.bind_eq_ok_iff.1 h
    cases h
    rw [takeByte_eq_ok hr, takeByte_eq_ok hf, takeByte_eq_ok ht]
    exact isLineOf_of_decodeProfile hj
  · exact isLineOf_of_decodeOptData h
  · obtain ⟨⟨b, bs₁⟩, hb, h⟩ := Except.bind_eq_ok_iff.1 h
    obtain ⟨j, hj, h⟩ := Except.bind_eq_ok_iff.1 h
    cases h
    rw [takeByte_eq_ok hb]
    exact isLineOf_of_decodeField hj

/-- Settles O2: nothing is left over, so the line is the one that `isLineOf_of_decodePrefix` reads to its end. -/
theorem decodedLineIsItsEncoding : Obligations.DecodedLineIsItsEncoding := by
  intro l i h
  obtain ⟨⟨j, rest⟩, hj, h⟩ := Except.bind_eq_ok_iff.1 h
  simp only at h
  split at h <;> cases h
  subst rest
  exact isLineOf_of_decodePrefix hj

/-- Settles O3: each line is decoded. -/
theorem handWrittenLinesDecode : Obligations.HandWrittenLinesDecode := by
  unfold Obligations.HandWrittenLinesDecode
  exact ⟨rfl, rfl, rfl, rfl, rfl, rfl, rfl, rfl, rfl, rfl, rfl, rfl⟩

namespace Machine

/-! One step, by the kind of the oldest request. -/

theorem step_of_idle {s : State} (h : s.issue = []) : step s = .next s := by
  rw [step, h]

theorem step_of_setDbmMin {s : State} {v : Dbm} {rest : List Request} (h : s.issue = .setDbmMin v :: rest) :
    step s = .next { s with issue := rest, dbmMin := v } := by
  rw [step, h]

theorem step_of_call {s : State} {i : Instr} {rest : List Request} (h : s.issue = .call i :: rest) :
    step s = if i.wf then exec i { s with issue := rest } else .refused .illFormed := by
  rw [step, h]

theorem step_of_decoded {s : State} {l : Line} {i : Instr} {rest : List Request} (h : s.issue = .line l :: rest)
    (hd : decodeLine l = .ok i) : step s = exec i { s with issue := rest } := by
  rw [step, h]
  simp only [hd]

theorem step_of_undecodable {s : State} {l : Line} {e : DecodeError} {rest : List Request}
    (h : s.issue = .line l :: rest) (hd : decodeLine l = .error e) : step s = .refused (.undecodable e) := by
  rw [step, h]
  simp only [hd]

/-- An `opsel` outside the operation list decodes to nothing, whatever follows it. -/
theorem decodeLine_of_unlisted {op : Byte} (h : op.toNat ∉ opselCodes) (operands : List Byte) :
    decodeLine ⟨.operation, op :: operands⟩ = .error (.noSuchOperation op) := by
  simp only [decodeLine, decodePrefix, takeByte_cons, Except.bind_ok_eq, decodeOperation_unlisted h]
  rfl

/-- Settles O4: the equation of `step` for each kind of request; that a decoded line is well formed is O2. -/
theorem stepRunsDecodedInstruction : Obligations.StepRunsDecodedInstruction := by
  refine ⟨fun s l i rest h hd => ⟨(decodedLineIsItsEncoding l i hd).1, step_of_decoded h hd⟩,
    fun s i rest h hw => ?_, fun s v rest h => step_of_setDbmMin h, fun s i rest h hw => ?_,
    fun s l e rest h hd => step_of_undecodable h hd, fun op operands h => decodeLine_of_unlisted h operands,
    fun s h => step_of_idle h⟩
  · rw [step_of_call h, if_pos hw]
  · rw [step_of_call h, hw]
    rfl

end Machine

end Sys2Proof
end

section
/-! PROOFS. The CRC8 unit's family (40_crc8.md): the printed table, the fold and its chaining, the algebra of the checksum,
and the statements O9 and O10. -/

namespace Sys2Proof

/-! The table and the fold (R91, R92). -/

/-- The printed table holds the eight shifts of every byte. -/
theorem crc8Table_getElem? (x : Byte) : crc8Table[x.toNat]? = some (crc8Shifts 8 x) := by
  revert x
  decide +kernel

theorem crc8Compute_append (A B : List Byte) (seed : Byte) :
    crc8Compute (A ++ B) seed = crc8Compute B (crc8Compute A seed) := by
  induction A generalizing seed with
  | nil => rfl
  | cons b A ih => exact ih (crc8Update b seed)

/-- A checksum updated with itself is 0, the residue of an intact message. -/
theorem crc8Update_self (c : Byte) : crc8Update c c = 0 := by
  rw [crc8Update, BitVec.xor_self]
  rfl

namespace Machine

theorem exec_crc8Update (b c : Byte) (s : State) :
    exec (.crc8Update b c) s = .next { s with result := .byte (crc8Update b c) } := rfl

theorem exec_crc8Compute (bytes : List Byte) (seed : Byte) (s : State) :
    exec (.crc8Compute bytes seed) s = .next { s with result := .byte (crc8Compute bytes seed) } := rfl

/-- Settles O9: the table by `crc8Table_getElem?`, the chaining by `crc8Compute_append`. -/
theorem crcComputeFoldsOverBytes : Obligations.CrcComputeFoldsOverBytes := by
  refine ⟨fun b c s => ⟨_, crc8Table_getElem? (c ^^^ b), exec_crc8Update b c s⟩, fun seed s => exec_crc8Compute [] seed s,
    fun b A seed s => ⟨_, exec_crc8Update b seed s, rfl⟩, fun A B seed s => ⟨_, exec_crc8Compute A seed s, ?_, ?_⟩⟩
  · rw [exec_crc8Compute, crc8Compute_append, exec_crc8Compute]
  · rw [exec_crc8Compute, crc8Compute_append, crc8Compute, crc8Update_self, crc8Compute]

end Machine

/-! Linearity over GF(2). -/

theorem crc8Shift_xor (x y : Byte) : crc8Shift (x ^^^ y) = crc8Shift x ^^^ crc8Shift y := by
  have hpoly : ∀ u v p : Byte, (u ^^^ p) ^^^ (v ^^^ p) = u ^^^ v := fun u v p => by
    rw [BitVec.xor_comm v p, BitVec.xor_assoc, ← BitVec.xor_assoc p, BitVec.xor_self, BitVec.zero_xor]
  simp only [crc8Shift, BitVec.getLsbD_xor, BitVec.shiftLeft_xor_distrib]
  cases x.getLsbD 7 <;> cases y.getLsbD 7
  · rfl
  · exact BitVec.xor_assoc _ _ _
  · show x <<< 1 ^^^ y <<< 1 ^^^ Config.crcPoly = (x <<< 1 ^^^ Config.crcPoly) ^^^ y <<< 1
    rw [BitVec.xor_assoc, BitVec.xor_assoc, BitVec.xor_comm Config.crcPoly]
  · exact (hpoly _ _ _).symm

theorem crc8Shifts_xor (n : Nat) (x y : Byte) : crc8Shifts n (x ^^^ y) = crc8Shifts n x ^^^ crc8Shifts n y := by
  induction n generalizing x y with
  | zero => rfl
  | succ n ih => rw [crc8Shifts, crc8Shift_xor, ih, crc8Shifts, crc8Shifts]

theorem crc8Update_xor (b b' x y : Byte) : crc8Update (b ^^^ b') (x ^^^ y) = crc8Update b x ^^^ crc8Update b' y := by
  rw [crc8Update, crc8Update, crc8Update, ← crc8Shifts_xor]
  congr 1
  ac_rfl

theorem crc8Compute_xor (A B : List Byte) (x y : Byte) (h : A.length = B.length) :
    crc8Compute (List.zipWith (· ^^^ ·) A B) (x ^^^ y) = crc8Compute A x ^^^ crc8Compute B y := by
  induction A generalizing B x y with
  | nil =>
    rw [List.length_eq_zero_iff.1 h.symm]
    rfl
  | cons a A ih =>
    cases B with
    | nil => cases h
    | cons b B =>
      rw [List.zipWith_cons_cons, crc8Compute, crc8Update_xor, ih B _ _ (Nat.succ.inj h), crc8Compute, crc8Compute]

/-! Every one-byte change is seen. -/

/-- A shift loses nothing: the polynomial's lowest bit tells that the top bit was set. -/
theorem eq_zero_of_crc8Shift {c : Byte} : crc8Shift c = 0 → c = 0 := by
  revert c
  decide +kernel

theorem crc8Shift_injective : Function.Injective crc8Shift := fun x y h => by
  refine BitVec.xor_eq_zero_iff.1 (eq_zero_of_crc8Shift ?_)
  rw [crc8Shift_xor, h, BitVec.xor_self]
  rfl

theorem crc8Shifts_injective (n : Nat) : Function.Injective (crc8Shifts n) := by
  induction n with
  | zero => exact Function.injective_id
  | succ n ih => exact ih.comp crc8Shift_injective

theorem crc8Update_injective_byte (c : Byte) : Function.Injective fun b => crc8Update b c := fun _ _ h =>
  (BitVec.xor_right_inj _).1 (crc8Shifts_injective 8 h)

theorem crc8Update_injective_crc (b : Byte) : Function.Injective (crc8Update b) := fun _ _ h =>
  (BitVec.xor_left_inj _).1 (crc8Shifts_injective 8 h)

theorem crc8Compute_injective_seed (bytes : List Byte) : Function.Injective (crc8Compute bytes) := by
  induction bytes with
  | nil => exact Function.injective_id
  | cons b bytes ih => exact ih.comp (crc8Update_injective_crc b)

/-! The number of set bits is even. -/

/-- How many bits of a byte are set. -/
def ones (b : Byte) : Nat := (List.range 8).countP b.getLsbD

theorem setBits_cons (b : Byte) (bytes : List Byte) : Machine.setBits (b :: bytes) = ones b + Machine.setBits bytes :=
  List.sum_cons

theorem setBits_concat (bytes : List Byte) (b : Byte) :
    Machine.setBits (bytes ++ [b]) = Machine.setBits bytes + ones b := by
  simp [Machine.setBits, ones]

theorem countP_xor_mod_two (l : List Nat) (f g : Nat → Bool) :
    l.countP (fun i => f i ^^ g i) % 2 = (l.countP f + l.countP g) % 2 := by
  induction l with
  | nil => rfl
  | cons i l ih =>
    simp only [List.countP_cons]
    cases f i <;> cases g i <;> simp <;> omega

theorem ones_xor_mod_two (x y : Byte) : ones (x ^^^ y) % 2 = (ones x + ones y) % 2 := by
  rw [ones, show (x ^^^ y).getLsbD = fun i => x.getLsbD i ^^ y.getLsbD i from funext fun _ => BitVec.getLsbD_xor]
  exact countP_xor_mod_two _ _ _

/-- A shift keeps the parity: with the top bit the polynomial's three bits are flipped. -/
theorem ones_crc8Shift_mod_two (c : Byte) : ones (crc8Shift c) % 2 = ones c % 2 := by
  revert c
  decide +kernel

theorem ones_crc8Shifts_mod_two (n : Nat) (c : Byte) : ones (crc8Shifts n c) % 2 = ones c % 2 := by
  induction n generalizing c with
  | zero => rfl
  | succ n ih => exact (ih _).trans (ones_crc8Shift_mod_two c)

theorem ones_crc8Compute_mod_two (bytes : List Byte) (seed : Byte) :
    ones (crc8Compute bytes seed) % 2 = (ones seed + Machine.setBits bytes) % 2 := by
  induction bytes generalizing seed with
  | nil => rfl
  | cons b bytes ih =>
    have hupdate : ones (crc8Update b seed) % 2 = (ones seed + ones b) % 2 :=
      (ones_crc8Shifts_mod_two 8 _).trans (ones_xor_mod_two seed b)
    rw [crc8Compute, ih, setBits_cons]
    omega

/-- Settles O10: the checksum is linear, injective in each byte, and of the message's parity. -/
theorem crcDetectsErrors : Obligations.CrcDetectsErrors := by
  refine ⟨crc8Compute_xor, fun A C b b' seed h => ?_, fun bytes => ?_⟩
  · rw [crc8Compute_append, crc8Compute_append, crc8Compute, crc8Compute] at h
    exact crc8Update_injective_byte _ (crc8Compute_injective_seed C h)
  · have hparity := ones_crc8Compute_mod_two bytes 0x00
    rw [show ones 0x00 = 0 from rfl] at hparity
    rw [setBits_concat]
    omega

end Sys2Proof
end

section
/-! PROOFS. The framer's family (41_framer.md), continued: the byte step in each parse state, the replay of a failed header
as a buffer received again, the buffer operation cut in two, and the statements O11, O13 to O15 and O17 to O20. -/

namespace Sys2Proof

/-! A header's CRC, size and validity (R16, R17, R61). -/

theorem Header.crcOk_iff (H : Header) :
    H.crcOk = true ↔ crc8Compute [H.lenHi, H.lenLo, H.optLen, H.ptype] 0x00 = H.crc := beq_iff_eq

theorem Header.paySize_eq (H : Header) :
    H.paySize = 256 * H.lenHi.toNat + H.lenLo.toNat + H.optLen.toNat + 1 := by
  rw [Header.paySize, Header.dataLength, be16_toNat, Header.optDataLength]

theorem Header.valid_iff (H : Header) : H.valid = true ↔ H.crcOk = true ∧ H.paySize ≤ 300 := by
  rw [Header.valid, Bool.and_eq_true, Bool.not_eq_true', Header.oversize, decide_eq_false_iff_not, Nat.not_lt]
  rfl

end Sys2Proof

namespace Sys2Proof.Machine

open Sys2Proof

/-! The operations on the state, read backwards. -/

theorem exec_frByte_eq_next {b : Byte} {s t : State} (h : exec (.frByte b) s = .next t) :
    ∃ F ds, s.fr.byte b = .ok (F, ds) ∧
      t = { s with fr := F, outputs := s.outputs ++ ds.map Output.diag, result := .none } := by
  obtain ⟨⟨F, ds⟩, hb, h⟩ := Run.bind_eq_ok.1 ((Run.outcome_eq_next _ _).1 h)
  cases h
  exact ⟨F, ds, hb, rfl⟩

theorem exec_frAccept_eq_next {buffer : List Byte} {s t : State} (h : exec (.frAccept buffer) s = .next t) :
    ∃ n F ds, s.fr.accept buffer = .ok (n, F, ds) ∧
      t = { s with fr := F, outputs := s.outputs ++ ds.map Output.diag, result := .count n } := by
  obtain ⟨⟨n, F, ds⟩, ha, h⟩ := Run.bind_eq_ok.1 ((Run.outcome_eq_next _ _).1 h)
  cases h
  exact ⟨n, F, ds, ha, rfl⟩

/-! A fresh framer (R100), and a complete one (R110). -/

theorem exec_frNew (s : State) : exec .frNew s = .next { s with fr := Framer.fresh, result := .none } := rfl

/-- Settles O11: the framer is `Framer.fresh`. -/
theorem frNewMakesFramerFresh : Obligations.FrNewMakesFramerFresh :=
  fun s => ⟨Framer.fresh, exec_frNew s, rfl, rfl, fun _ => ⟨rfl, rfl⟩⟩

theorem Framer.accept_of_complete {F : Framer} (h : F.isComplete = true) (buffer : List Byte) :
    F.accept buffer = .ok (0, F, []) := if_pos h

theorem Framer.accept_of_not_complete {F : Framer} (h : F.isComplete = false) (buffer : List Byte) :
    F.accept buffer = F.acceptLoop buffer := if_neg (Bool.eq_false_iff.1 h)

theorem Framer.byte_of_complete {F : Framer} (h : F.state = .complete) (b : Byte) : F.byte b = .ok (F, []) := by
  rw [Framer.byte, h]

/-- Settles O17: in Complete neither operation changes the framer or raises anything. -/
theorem completeFramerTakesNothing : Obligations.CompleteFramerTakesNothing := by
  refine fun s h => ⟨fun b => ?_, fun buffer => ?_⟩
  · simpa using exec_frByte_of_byte (Framer.byte_of_complete h b)
  · simpa using exec_frAccept_of_accept (Framer.accept_of_complete (Framer.isComplete_iff.2 h) buffer)

/-! Bytes that are stored (R103, R107). -/

/-- The framer with a header byte stored at its index, and the index advanced (R103). -/
def Framer.putHeader (F : Framer) (b : Byte) : Framer :=
  { F with hdr := Memory.write F.hdr F.idx b, idx := F.idx + 1 }

@[simp] theorem Framer.putHeader_state (F : Framer) (b : Byte) : (F.putHeader b).state = F.state := rfl
@[simp] theorem Framer.putHeader_idx (F : Framer) (b : Byte) : (F.putHeader b).idx = F.idx + 1 := rfl
@[simp] theorem Framer.putHeader_payAt (F : Framer) (b : Byte) (i : Nat) :
    (F.putHeader b).payAt i = F.payAt i := rfl

@[simp] theorem Framer.putHeader_hdrAt (F : Framer) (b : Byte) (i : Nat) :
    (F.putHeader b).hdrAt i = if i = F.idx then some b else F.hdrAt i := by
  simp [Framer.putHeader, Framer.hdrAt, eq_comm]

/-- A header byte before the sixth is stored. -/
theorem Framer.byte_of_gathering {F : Framer} (hst : F.state = .headerRead) (hi : F.idx < 5) (b : Byte) :
    F.byte b = .ok (F.putHeader b, []) := by
  have hne : ¬ (F.putHeader b).idx = Config.headerBytes := by
    simp only [Framer.putHeader_idx, Config.headerBytes]
    omega
  calc F.byte b = F.headerByte b := by rw [Framer.byte, hst]
    _ = if (F.putHeader b).idx = Config.headerBytes then (F.putHeader b).headerDone else .ok (F.putHeader b, []) := by
      rw [Framer.headerByte, Framer.storeHeader_of_lt (by omega), Run.bind_ok]
      rfl
    _ = _ := if_neg hne

/-- A payload byte before the last is stored. -/
theorem Framer.byte_of_filling {F : Framer} {H : Header} (hst : F.state = .dataRead) (hH : F.holds H)
    (hsz : H.paySize ≤ 300) (hi : F.idx + 1 < H.paySize) (b : Byte) : F.byte b = .ok (F.putPayload b, []) := by
  have hne : ¬ (F.putPayload b).idx = H.paySize := by
    rw [Framer.putPayload_idx]
    omega
  calc F.byte b = F.dataByte b := by rw [Framer.byte, hst]
    _ = if (F.putPayload b).idx = H.paySize then (F.putPayload b).payloadDone H else .ok (F.putPayload b, []) := by
      rw [Framer.dataByte, Framer.header_eq_ok.2 hH, Run.bind_ok, Framer.storePayload_eq_putPayload (by omega) hsz,
        Run.bind_ok]
    _ = _ := if_neg hne

/-- Settles O13: the byte is the one that `putHeader` and `putPayload` store. -/
theorem bytesAreStoredInOrder : Obligations.BytesAreStoredInOrder := by
  refine ⟨fun b s hst hi => ⟨s.fr.putHeader b, ?_, hst, rfl, fun _ => rfl, Framer.putHeader_hdrAt s.fr b⟩,
    fun b H s hst hH hsz hi => ⟨s.fr.putPayload b, ?_, hst, rfl, fun _ => rfl, Framer.putPayload_payAt s.fr b⟩⟩
  · simpa using exec_frByte_of_byte (Framer.byte_of_gathering hst hi b)
  · simpa using exec_frByte_of_byte (Framer.byte_of_filling hst hH hsz hi b)

/-! The sixth header byte (R103 to R106). -/

/-- The sixth byte is stored and ends the header, which the framer then holds. -/
theorem Framer.byte_of_awaitsCrc {F : Framer} {H : Header} (h : F.awaitsCrc H) :
    F.byte H.crc = (F.putHeader H.crc).headerDone ∧ (F.putHeader H.crc).holds H := by
  obtain ⟨hst, hi, h0, h1, h2, h3, h4⟩ := h
  refine ⟨?_, by simp [Framer.holds, hi, h0, h1, h2, h3, h4]⟩
  calc F.byte H.crc = F.headerByte H.crc := by rw [Framer.byte, hst]
    _ = if (F.putHeader H.crc).idx = Config.headerBytes then (F.putHeader H.crc).headerDone
        else .ok (F.putHeader H.crc, []) := by
      rw [Framer.headerByte, Framer.storeHeader_of_lt (by omega), Run.bind_ok]
      rfl
    _ = _ := if_pos (by rw [Framer.putHeader_idx, hi, Config.headerBytes])

/-- A header with a matching CRC and an accepted size allocates the payload (R104). -/
theorem Framer.headerDone_of_valid {F : Framer} {H : Header} (hH : F.holds H) (hc : H.crcOk = true)
    (hsz : H.paySize ≤ 300) : F.headerDone = .ok (F.allocate, []) := by
  have ho : H.oversize = false := decide_eq_false (Nat.not_lt.2 hsz)
  rw [Framer.headerDone, Framer.header_eq_ok.2 hH, Run.bind_ok, hc, ho]
  rfl

/-- A header with a matching CRC and a size over 300 is dropped without a replay (R106). -/
theorem Framer.headerDone_of_oversize {F : Framer} {H : Header} (hH : F.holds H) (hc : H.crcOk = true)
    (hsz : 300 < H.paySize) : F.headerDone = .ok (F.toSync, [.oversize H.paySize]) := by
  have ho : H.oversize = true := decide_eq_true hsz
  rw [Framer.headerDone, Framer.header_eq_ok.2 hH, Run.bind_ok, hc, ho]
  rfl

/-- A header with another CRC is replayed from its second byte on (R105). -/
theorem Framer.headerDone_of_mismatch {F : Framer} {H : Header} (hH : F.holds H) (hc : H.crcOk = false) :
    F.headerDone = (Framer.replay H.replayed F.toSync >>= fun F' => .ok (F', [.headerCrcMismatch H])) := by
  rw [Framer.headerDone, Framer.header_eq_ok.2 hH, Run.bind_ok, hc]
  rfl

theorem Framer.byte_of_valid_header {F : Framer} {H : Header} (h : F.awaitsCrc H) (hc : H.crcOk = true)
    (hsz : H.paySize ≤ 300) : F.byte H.crc = .ok ((F.putHeader H.crc).allocate, []) := by
  obtain ⟨hbyte, hH⟩ := Framer.byte_of_awaitsCrc h
  rw [hbyte, Framer.headerDone_of_valid hH hc hsz]

theorem Framer.byte_of_oversize_header {F : Framer} {H : Header} (h : F.awaitsCrc H) (hc : H.crcOk = true)
    (hsz : 300 < H.paySize) : F.byte H.crc = .ok ((F.putHeader H.crc).toSync, [.oversize H.paySize]) := by
  obtain ⟨hbyte, hH⟩ := Framer.byte_of_awaitsCrc h
  rw [hbyte, Framer.headerDone_of_oversize hH hc hsz]

/-- Settles O14: the two lemmas on a header whose CRC matches. -/
theorem matchingHeaderIsSizedThenAllocated : Obligations.MatchingHeaderIsSizedThenAllocated := by
  intro H s h hc
  rw [← Header.crcOk_iff] at hc
  obtain ⟨-, hH⟩ := Framer.byte_of_awaitsCrc h
  refine ⟨H.paySize, Header.paySize_eq H, fun hsz => ⟨(s.fr.putHeader H.crc).allocate, ?_, rfl, rfl, hH, fun _ => rfl⟩,
    fun hsz => ⟨(s.fr.putHeader H.crc).toSync, ?_, rfl, rfl, hH, fun _ => rfl⟩⟩
  · simpa using exec_frByte_of_byte (Framer.byte_of_valid_header h hc hsz)
  · exact exec_frByte_of_byte (Framer.byte_of_oversize_header h hc hsz)

/-! Bytes while the framer hunts for a header (R102, R103, R105). -/

/-- One byte while scanning or gathering: a replayed byte, or one of the input before the sixth header byte. -/
def Framer.hunt (F : Framer) (b : Byte) : Framer :=
  match F.state with
  | .syncWait => F.syncByte b
  | .headerRead | .dataRead | .complete => F.putHeader b

/-- A framer that hunts with room for `n` more header bytes before the sixth. -/
def Framer.HuntsFor (F : Framer) (n : Nat) : Prop :=
  F.state = .syncWait ∧ n ≤ 5 ∨ F.state = .headerRead ∧ F.idx + n ≤ 5

theorem Framer.hunt_of_syncWait {F : Framer} (h : F.state = .syncWait) (b : Byte) : F.hunt b = F.syncByte b := by
  rw [Framer.hunt, h]

theorem Framer.hunt_of_headerRead {F : Framer} (h : F.state = .headerRead) (b : Byte) : F.hunt b = F.putHeader b := by
  rw [Framer.hunt, h]

theorem Framer.HuntsFor.hunting {F : Framer} {n : Nat} (h : F.HuntsFor n) : F.hunting :=
  h.imp And.left And.left

theorem Framer.isComplete_of_hunting {F : Framer} (h : F.hunting) : F.isComplete = false := by
  rcases h with h | h <;> rw [Framer.isComplete, h] <;> rfl

theorem Framer.HuntsFor.isComplete {F : Framer} {n : Nat} (h : F.HuntsFor n) : F.isComplete = false :=
  Framer.isComplete_of_hunting h.hunting

theorem Framer.HuntsFor.hunt {F : Framer} {n : Nat} (h : F.HuntsFor (n + 1)) (b : Byte) : (F.hunt b).HuntsFor n := by
  rcases h with ⟨hst, hn⟩ | ⟨hst, hi⟩
  · rw [Framer.hunt_of_syncWait hst]
    by_cases hb : b = Config.sync
    · rw [hb, Framer.syncByte_sync]
      exact .inr ⟨rfl, by simp only; omega⟩
    · rw [Framer.syncByte_of_ne hb]
      exact .inl ⟨hst, by omega⟩
  · rw [Framer.hunt_of_headerRead hst]
    exact .inr ⟨hst, by rw [Framer.putHeader_idx]; omega⟩

/-- A byte of the input and a replayed byte do the same while there is room. -/
theorem Framer.HuntsFor.byte_and_gather {F : Framer} {n : Nat} (h : F.HuntsFor (n + 1)) (b : Byte) :
    F.byte b = .ok (F.hunt b, []) ∧ F.gather b = .ok (F.hunt b) := by
  rcases h with ⟨hst, -⟩ | ⟨hst, hi⟩
  · rw [Framer.hunt_of_syncWait hst, Framer.byte_of_syncWait hst, Framer.gather, hst]
    exact ⟨rfl, rfl⟩
  · rw [Framer.hunt_of_headerRead hst, Framer.byte_of_gathering hst (by omega), Framer.gather, hst]
    exact ⟨rfl, Framer.storeHeader_of_lt (by omega)⟩

theorem Framer.HuntsFor.replay {F : Framer} {bs : List Byte} (h : F.HuntsFor bs.length) :
    Framer.replay bs F = .ok (bs.foldl Framer.hunt F) := by
  induction bs generalizing F with
  | nil => rfl
  | cons b bs ih =>
    obtain ⟨-, hg⟩ := Framer.HuntsFor.byte_and_gather h b
    rw [Framer.replay, hg, Run.bind_ok, ih (Framer.HuntsFor.hunt h b)]
    rfl

theorem Framer.acceptLoop_cons_of_not {F F' : Framer} {b : Byte} {ds : List Diag} (hb : F.byte b = .ok (F', ds))
    (hc : F'.isComplete = false) (bs : List Byte) :
    Framer.acceptLoop (b :: bs) F =
      (Framer.acceptLoop bs F' >>= fun r => .ok (r.1 + 1, r.2.1, ds ++ r.2.2)) := by
  rw [Framer.acceptLoop, hb, Run.bind_ok]
  simp [hc]

theorem Framer.HuntsFor.acceptLoop {F : Framer} {bs : List Byte} (h : F.HuntsFor bs.length) :
    Framer.acceptLoop bs F = .ok (bs.length, bs.foldl Framer.hunt F, []) := by
  induction bs generalizing F with
  | nil => rfl
  | cons b bs ih =>
    obtain ⟨hb, -⟩ := Framer.HuntsFor.byte_and_gather h b
    have hnext := Framer.HuntsFor.hunt h b
    rw [Framer.acceptLoop_cons_of_not hb hnext.isComplete, ih hnext]
    rfl

/-! What a hunt over several bytes leaves (R105 in closed form). -/

theorem Framer.hunt_payAt (F : Framer) (b : Byte) (i : Nat) : (F.hunt b).payAt i = F.payAt i := by
  unfold Framer.hunt Framer.syncByte
  split
  · split <;> rfl
  · rfl
  · rfl
  · rfl

theorem Framer.foldl_hunt_payAt (bs : List Byte) (F : Framer) (i : Nat) :
    (bs.foldl Framer.hunt F).payAt i = F.payAt i := by
  induction bs generalizing F with
  | nil => rfl
  | cons b bs ih => rw [List.foldl_cons, ih, Framer.hunt_payAt]

/-- Bytes without a sync byte are skipped while scanning (R102). -/
theorem Framer.foldl_hunt_of_no_sync {F : Framer} {bs : List Byte} (hst : F.state = .syncWait)
    (h : ∀ b ∈ bs, b ≠ Config.sync) : bs.foldl Framer.hunt F = F := by
  induction bs with
  | nil => rfl
  | cons b bs ih =>
    obtain ⟨hb, hbs⟩ := List.forall_mem_cons.1 h
    rw [List.foldl_cons, Framer.hunt_of_syncWait hst, Framer.syncByte_of_ne hb, ih hbs]

/-- Bytes while gathering are stored one after the other (R103). -/
theorem Framer.foldl_hunt_of_headerRead {F : Framer} (bs : List Byte) (hst : F.state = .headerRead) :
    (bs.foldl Framer.hunt F).state = .headerRead ∧ (bs.foldl Framer.hunt F).idx = F.idx + bs.length ∧
      ∀ i, (bs.foldl Framer.hunt F).hdrAt i =
        if F.idx ≤ i ∧ i < F.idx + bs.length then bs[i - F.idx]? else F.hdrAt i := by
  induction bs generalizing F with
  | nil => exact ⟨hst, rfl, fun i => (if_neg (by simp only [List.length_nil]; omega)).symm⟩
  | cons b bs ih =>
    obtain ⟨hst', hidx, hat⟩ := ih (F := F.putHeader b) hst
    rw [List.foldl_cons, Framer.hunt_of_headerRead hst, List.length_cons]
    refine ⟨hst', by rw [hidx, Framer.putHeader_idx]; omega, fun i => ?_⟩
    rw [hat, Framer.putHeader_idx, Framer.putHeader_hdrAt]
    rcases Nat.lt_trichotomy i F.idx with hlt | rfl | hgt
    · rw [if_neg (by omega), if_neg (by omega), if_neg (by omega)]
    · rw [if_neg (by omega), if_pos rfl, if_pos (by omega), Nat.sub_self, List.getElem?_cons_zero]
    · rw [if_neg (by omega : ¬ i = F.idx), show i - F.idx = i - (F.idx + 1) + 1 by omega, List.getElem?_cons_succ]
      exact if_congr (by omega) rfl rfl

/-- The first sync byte of a hunt starts the header that the bytes after it fill. -/
theorem Framer.foldl_hunt_of_first_sync {F : Framer} {bs : List Byte} {j : Nat} (hst : F.state = .syncWait)
    (hj : bs[j]? = some Config.sync) (hbefore : ∀ k, k < j → bs[k]? ≠ some Config.sync) :
    bs.foldl Framer.hunt F = (bs.drop (j + 1)).foldl Framer.hunt (F.syncByte Config.sync) := by
  obtain ⟨hlt, hget⟩ := List.getElem?_eq_some_iff.1 hj
  have hsplit : bs = bs.take j ++ Config.sync :: bs.drop (j + 1) := by
    rw [← hget, ← List.drop_eq_getElem_cons hlt, List.take_append_drop]
  have hnone : ∀ b ∈ bs.take j, b ≠ Config.sync := by
    intro b hb hsync
    obtain ⟨k, hk, hbk⟩ := List.mem_take_iff_getElem.1 hb
    exact hbefore k (by omega) (by rw [List.getElem?_eq_getElem (by omega), hbk, hsync])
  conv_lhs => rw [hsplit]
  rw [List.foldl_append, Framer.foldl_hunt_of_no_sync hst hnone, List.foldl_cons, Framer.hunt_of_syncWait hst]

/-- The header's storage after a hunt whose first sync byte stands at `j`: the bytes from there on, then what was there. -/
theorem Framer.foldl_hunt_spec {F : Framer} {bs : List Byte} {j : Nat} (hst : F.state = .syncWait)
    (hj : bs[j]? = some Config.sync) (hbefore : ∀ k, k < j → bs[k]? ≠ some Config.sync) :
    (bs.foldl Framer.hunt F).state = .headerRead ∧ (bs.foldl Framer.hunt F).idx = bs.length - j ∧
      ∀ i, (bs.foldl Framer.hunt F).hdrAt i = if i < bs.length - j then bs[j + i]? else F.hdrAt i := by
  obtain ⟨hlt, -⟩ := List.getElem?_eq_some_iff.1 hj
  rw [Framer.foldl_hunt_of_first_sync hst hj hbefore, Framer.syncByte_sync]
  obtain ⟨hst', hidx, hat⟩ := Framer.foldl_hunt_of_headerRead (bs.drop (j + 1))
    (F := { F with state := .headerRead, idx := 1, hdr := Memory.write F.hdr 0 Config.sync }) rfl
  simp only [List.length_drop] at hidx hat
  refine ⟨hst', by rw [hidx]; omega, fun i => ?_⟩
  rw [hat, Framer.hdrAt, Memory.read_write]
  cases i with
  | zero => rw [if_neg (by omega), if_pos rfl, if_pos (by omega), Nat.add_zero, hj]
  | succ i =>
    rw [if_neg (by omega : ¬ 0 = i + 1), List.getElem?_drop, show j + 1 + (i + 1 - 1) = j + (i + 1) by omega]
    exact if_congr (by omega) rfl rfl

/-- A failed header: the framer scans, and what it then does with the five bytes is what the replay has done. -/
theorem Framer.byte_of_mismatch {F : Framer} {H : Header} (h : F.awaitsCrc H) (hc : H.crcOk = false) :
    F.byte H.crc =
      .ok (H.replayed.foldl Framer.hunt (F.putHeader H.crc).toSync, [.headerCrcMismatch H]) ∧
    (F.putHeader H.crc).toSync.HuntsFor H.replayed.length := by
  obtain ⟨hbyte, hH⟩ := Framer.byte_of_awaitsCrc h
  have hhunts : (F.putHeader H.crc).toSync.HuntsFor H.replayed.length := .inl ⟨rfl, Nat.le_refl 5⟩
  rw [hbyte, Framer.headerDone_of_mismatch hH hc, hhunts.replay]
  exact ⟨rfl, hhunts⟩

/-- Settles O15: the replay is `FR.ACCEPT` of the five bytes by `HuntsFor.acceptLoop`; its closed form is
`Framer.foldl_hunt_spec`. -/
theorem headerMismatchReplaysFiveBytes : Obligations.HeaderMismatchReplaysFiveBytes := by
  intro H s h hne
  have hc : H.crcOk = false := Bool.eq_false_iff.2 fun hok => hne ((Header.crcOk_iff H).1 hok)
  obtain ⟨hbyte, hhunts⟩ := Framer.byte_of_mismatch h hc
  obtain ⟨-, hH⟩ := Framer.byte_of_awaitsCrc h
  have hacc : (s.fr.putHeader H.crc).toSync.accept H.replayed = _ :=
    (Framer.accept_of_not_complete hhunts.isComplete _).trans hhunts.acceptLoop
  have hpay := Framer.foldl_hunt_payAt H.replayed (s.fr.putHeader H.crc).toSync
  refine ⟨_, _, (s.fr.putHeader H.crc).toSync, H.replayed, rfl, exec_frByte_of_byte hbyte, hH, rfl, rfl, fun _ => rfl,
    exec_frAccept_of_accept hacc, rfl, by simp, rfl, hpay, fun hno => ?_, fun j hj hsync hbefore => ?_⟩
  · simp only [Framer.foldl_hunt_of_no_sync (F := (s.fr.putHeader H.crc).toSync) rfl hno]
    exact ⟨rfl, rfl, hH⟩
  · obtain ⟨hst, hidx, hat⟩ := Framer.foldl_hunt_spec (F := (s.fr.putHeader H.crc).toSync) rfl hsync hbefore
    obtain ⟨-, hi, -⟩ := h
    refine ⟨hst, hidx, fun i => (hat i).trans (if_congr Iff.rfl rfl ?_)⟩
    exact (Framer.putHeader_hdrAt s.fr H.crc i).trans (by rw [hi])

/-! The transitions of the state table (41_framer.md section 3). -/

theorem Framer.HuntsFor.foldl {F : Framer} {bs : List Byte} (h : F.HuntsFor bs.length) :
    (bs.foldl Framer.hunt F).HuntsFor 0 := by
  induction bs generalizing F with
  | nil => exact h
  | cons b bs ih => exact ih (Framer.HuntsFor.hunt h b)

theorem Framer.Inv.idx_of_syncWait {F : Framer} (hF : F.Inv) (hst : F.state = .syncWait) : F.idx = 0 := by
  obtain ⟨-, -, hs⟩ := hF
  rwa [hst] at hs

theorem Framer.Inv.idx_of_headerRead {F : Framer} (hF : F.Inv) (hst : F.state = .headerRead) :
    1 ≤ F.idx ∧ F.idx ≤ 5 := by
  obtain ⟨-, -, hs⟩ := hF
  rw [hst] at hs
  exact ⟨hs.1, hs.2.1⟩

/-- A good framer with five header bytes awaits the sixth, whatever it is. -/
theorem Framer.Inv.awaitsCrc {F : Framer} (hF : F.Inv) (hst : F.state = .headerRead) (hi : F.idx = 5) (b : Byte) :
    ∃ H : Header, H.crc = b ∧ F.awaitsCrc H := by
  obtain ⟨-, -, hs⟩ := hF
  rw [hst] at hs
  obtain ⟨-, -, -, hsome⟩ := hs
  rw [hi] at hsome
  obtain ⟨b0, h0⟩ := Option.isSome_iff_exists.1 (hsome 0 (by decide))
  obtain ⟨b1, h1⟩ := Option.isSome_iff_exists.1 (hsome 1 (by decide))
  obtain ⟨b2, h2⟩ := Option.isSome_iff_exists.1 (hsome 2 (by decide))
  obtain ⟨b3, h3⟩ := Option.isSome_iff_exists.1 (hsome 3 (by decide))
  obtain ⟨b4, h4⟩ := Option.isSome_iff_exists.1 (hsome 4 (by decide))
  exact ⟨⟨b0, b1, b2, b3, b4, b⟩, rfl, hst, hi, h0, h1, h2, h3, h4⟩

theorem Framer.byte_cases_of_syncWait {F F' : Framer} {b : Byte} {ds : List Diag} (hF : F.Inv)
    (hst : F.state = .syncWait) (hb : F.byte b = .ok (F', ds)) :
    (F'.state = .syncWait ∧ F'.idx = 0 ∨ F'.state = .headerRead ∧ F'.idx = 1) ∧ ds = [] := by
  rw [Framer.byte_of_syncWait hst] at hb
  cases hb
  refine ⟨?_, rfl⟩
  by_cases hsync : b = Config.sync
  · rw [hsync, Framer.syncByte_sync]
    exact .inr ⟨rfl, rfl⟩
  · rw [Framer.syncByte_of_ne hsync]
    exact .inl ⟨hst, hF.idx_of_syncWait hst⟩

theorem Framer.byte_cases_of_sixth {F F' : Framer} {b : Byte} {ds : List Diag} (hF : F.Inv) (hF' : F'.Inv)
    (hst : F.state = .headerRead) (hi : F.idx = 5) (hb : F.byte b = .ok (F', ds)) :
    F'.state = .dataRead ∧ F'.idx = 0 ∧ ds = [] ∨ F'.state = .syncWait ∧ F'.idx = 0 ∧ ds ≠ [] ∨
      F'.state = .headerRead ∧ 1 ≤ F'.idx ∧ F'.idx ≤ 5 ∧ ds ≠ [] := by
  obtain ⟨H, rfl, hH⟩ := hF.awaitsCrc hst hi b
  by_cases hc : H.crcOk = true
  · by_cases hsz : H.paySize ≤ 300
    · rw [Framer.byte_of_valid_header hH hc hsz] at hb
      cases hb
      exact .inl ⟨rfl, rfl, rfl⟩
    · rw [Framer.byte_of_oversize_header hH hc (Nat.lt_of_not_le hsz)] at hb
      cases hb
      exact .inr (.inl ⟨rfl, rfl, List.cons_ne_nil _ _⟩)
  · obtain ⟨hbyte, hhunts⟩ := Framer.byte_of_mismatch hH (Bool.eq_false_iff.2 hc)
    rw [hbyte] at hb
    cases hb
    rcases hhunts.foldl with ⟨hst', -⟩ | ⟨hst', -⟩
    · exact .inr (.inl ⟨hst', hF'.idx_of_syncWait hst', List.cons_ne_nil _ _⟩)
    · obtain ⟨h1, h5⟩ := hF'.idx_of_headerRead hst'
      exact .inr (.inr ⟨hst', h1, h5, List.cons_ne_nil _ _⟩)

theorem Framer.byte_cases_of_dataRead {F F' : Framer} {b : Byte} {ds : List Diag} (hF : F.Inv)
    (hst : F.state = .dataRead) (hb : F.byte b = .ok (F', ds)) :
    F'.state = .dataRead ∧ F'.idx = F.idx + 1 ∧ ds = [] ∨ F'.state = .complete ∧ F'.idx = F.idx + 1 ∧ ds = [] ∨
      F'.state = .syncWait ∧ F'.idx = 0 ∧ ds ≠ [] := by
  obtain ⟨-, -, hs⟩ := hF
  rw [hst] at hs
  obtain ⟨H, ⟨hH, -, -, hsz⟩, hlt, hsome⟩ := hs
  by_cases hlast : F.idx + 1 = H.paySize
  · obtain ⟨bytes, -, hl, hbytes⟩ := Framer.payload_of_isSome (F := F) (n := F.idx)
      ((Nat.le_of_lt hlt).trans hsz) fun i hi => (hsome i).2 hi
    rw [Framer.byte_of_last b hst hH hsz hlast hl hbytes] at hb
    split at hb
    · cases hb
      exact .inr (.inl ⟨rfl, rfl, rfl⟩)
    · cases hb
      exact .inr (.inr ⟨rfl, rfl, List.cons_ne_nil _ _⟩)
  · rw [Framer.byte_of_filling hst hH hsz (by omega)] at hb
    cases hb
    exact .inl ⟨hst, rfl, rfl⟩

/-- Settles O18: `Framer.byte_spec`, and the step's cases in each parse state. -/
theorem frByteMakesOnlyListedTransitions : Obligations.FrByteMakesOnlyListedTransitions := by
  intro b s hF
  obtain ⟨F, ds, hb, hF', hlen⟩ := Framer.byte_spec b hF
  refine ⟨F, ds, exec_frByte_of_byte hb, hF', hlen, fun hst => Framer.byte_cases_of_syncWait hF hst hb, fun hst hi => ?_,
    fun hst hi => Framer.byte_cases_of_sixth hF hF' hst hi hb, fun hst => Framer.byte_cases_of_dataRead hF hst hb,
    fun hst => ?_⟩
  · rw [Framer.byte_of_gathering hst hi] at hb
    cases hb
    exact ⟨hst, rfl, rfl⟩
  · rw [Framer.byte_of_complete hst] at hb
    cases hb
    exact ⟨rfl, rfl⟩

/-! The buffer operation (R111). -/

theorem Framer.acceptLoop_cons_of_completes {F F' : Framer} {b : Byte} {ds : List Diag}
    (hb : F.byte b = .ok (F', ds)) (hc : F'.isComplete = true) (bs : List Byte) :
    Framer.acceptLoop (b :: bs) F = .ok (1, F', ds) := by
  rw [Framer.acceptLoop, hb, Run.bind_ok]
  exact if_pos hc

theorem Run.bind_eta {α : Type} (x : Run α) : (x >>= fun a => .ok a) = x := by
  cases x <;> rfl

theorem Run.bind_ok_bind {α β γ : Type} (x : Run α) (f : α → β) (g : β → Run γ) :
    ((x >>= fun a => .ok (f a)) >>= g) = x >>= fun a => g (f a) := by
  cases x <;> rfl

/-- A buffer that completes the framer stops there, whatever follows. -/
theorem Framer.acceptLoop_append_of_completes {A B : List Byte} {F F' : Framer} {n : Nat} {ds : List Diag}
    (hF : F.isComplete = false) (hA : Framer.acceptLoop A F = .ok (n, F', ds)) (hF' : F'.isComplete = true) :
    Framer.acceptLoop (A ++ B) F = .ok (n, F', ds) := by
  induction A generalizing F n ds with
  | nil =>
    cases hA
    exact absurd (hF.symm.trans hF') (by decide)
  | cons b A ih =>
    obtain ⟨⟨F₁, ds₁⟩, hb, -⟩ := Run.bind_eq_ok.1 hA
    by_cases hc : F₁.isComplete = true
    · rw [Framer.acceptLoop_cons_of_completes hb hc] at hA
      rw [List.cons_append, Framer.acceptLoop_cons_of_completes hb hc, hA]
    · have hc := Bool.eq_false_iff.2 hc
      rw [Framer.acceptLoop_cons_of_not hb hc] at hA
      obtain ⟨⟨m, F₂, ds₂⟩, hA', hA⟩ := Run.bind_eq_ok.1 hA
      cases hA
      rw [List.cons_append, Framer.acceptLoop_cons_of_not hb hc, ih hc hA', Run.bind_ok]

/-- A buffer that does not complete the framer is followed by the next. -/
theorem Framer.acceptLoop_append_of_not {A B : List Byte} {F F' : Framer} {n : Nat} {ds : List Diag}
    (hA : Framer.acceptLoop A F = .ok (n, F', ds)) (hF' : F'.isComplete = false) :
    Framer.acceptLoop (A ++ B) F =
      (Framer.acceptLoop B F' >>= fun r => .ok (n + r.1, r.2.1, ds ++ r.2.2)) := by
  induction A generalizing F n ds with
  | nil =>
    cases hA
    simp only [List.nil_append, Nat.zero_add]
    exact (Run.bind_eta _).symm
  | cons b A ih =>
    obtain ⟨⟨F₁, ds₁⟩, hb, -⟩ := Run.bind_eq_ok.1 hA
    by_cases hc : F₁.isComplete = true
    · rw [Framer.acceptLoop_cons_of_completes hb hc] at hA
      cases hA
      exact absurd (hF'.symm.trans hc) (by decide)
    · have hc := Bool.eq_false_iff.2 hc
      rw [Framer.acceptLoop_cons_of_not hb hc] at hA
      obtain ⟨⟨m, F₂, ds₂⟩, hA', hA⟩ := Run.bind_eq_ok.1 hA
      simp only [Except.ok.injEq, Prod.mk.injEq] at hA
      obtain ⟨rfl, rfl, rfl⟩ := hA
      rw [List.cons_append, Framer.acceptLoop_cons_of_not hb hc, ih hA', Run.bind_ok_bind]
      simp only [List.append_assoc, Nat.add_right_comm]

/-- The same for two results at hand. -/
theorem Framer.acceptLoop_append {A B : List Byte} {F F₁ F₂ : Framer} {n m : Nat} {ds ds' : List Diag}
    (hA : Framer.acceptLoop A F = .ok (n, F₁, ds)) (hF₁ : F₁.isComplete = false)
    (hB : Framer.acceptLoop B F₁ = .ok (m, F₂, ds')) :
    Framer.acceptLoop (A ++ B) F = .ok (n + m, F₂, ds ++ ds') := by
  rw [Framer.acceptLoop_append_of_not hA hF₁, hB]
  rfl

/-- Settles O19: the loop's equations for one byte, and `Framer.acceptLoop_spec`. -/
theorem frAcceptIteratesFrByte : Obligations.FrAcceptIteratesFrByte := by
  refine ⟨fun s => ?_, fun b bs s t hnc ht => ⟨fun hc => ?_, fun hc u n hu hn => ?_⟩, fun buffer s hF hnc => ?_⟩
  · have hnil : s.fr.accept [] = .ok (0, s.fr, []) := ite_self _
    simpa using exec_frAccept_of_accept hnil
  · obtain ⟨F, ds, hb, rfl⟩ := exec_frByte_eq_next ht
    exact exec_frAccept_of_accept (Framer.accept_cons_of_completes hnc hb hc bs)
  · obtain ⟨F, ds, hb, rfl⟩ := exec_frByte_eq_next ht
    obtain ⟨m, F', ds', ha, rfl⟩ := exec_frAccept_eq_next hu
    cases hn
    have hc := Framer.isComplete_eq_false_iff.2 hc
    rw [Framer.accept_of_not_complete hc] at ha
    have hall : s.fr.accept (b :: bs) = .ok (n + 1, F', ds ++ ds') := by
      rw [Framer.accept_of_not_complete (Framer.isComplete_eq_false_iff.2 hnc), Framer.acceptLoop_cons_of_not hb hc, ha]
      rfl
    simpa using exec_frAccept_of_accept hall
  · obtain ⟨n, F, ds, ha, hF', hn, hpos, hall⟩ := Framer.acceptLoop_spec (bs := buffer) hF
    rw [← Framer.accept_of_not_complete (Framer.isComplete_eq_false_iff.2 hnc)] at ha
    exact ⟨n, F, ds, exec_frAccept_of_accept ha, hF', hn, hpos, fun h => hall (Framer.isComplete_eq_false_iff.2 h)⟩

/-- Settles O20: the two lemmas on a buffer cut in two. -/
theorem frAcceptStreams : Obligations.FrAcceptStreams := by
  intro A B s t n hnc ht hn
  obtain ⟨n', F, ds, ha, rfl⟩ := exec_frAccept_eq_next ht
  cases hn
  have hnc := Framer.isComplete_eq_false_iff.2 hnc
  rw [Framer.accept_of_not_complete hnc] at ha
  refine ⟨fun hc => exec_frAccept_of_accept ?_, fun hc u m hu hm => ?_⟩
  · rw [Framer.accept_of_not_complete hnc]
    exact Framer.acceptLoop_append_of_completes hnc ha (Framer.isComplete_iff.2 hc)
  · obtain ⟨m', F', ds', hb, rfl⟩ := exec_frAccept_eq_next hu
    cases hm
    have hc := Framer.isComplete_eq_false_iff.2 hc
    rw [Framer.accept_of_not_complete hc] at hb
    have hall : s.fr.accept (A ++ B) = _ :=
      (Framer.accept_of_not_complete hnc _).trans (Framer.acceptLoop_append ha hc hb)
    simpa using exec_frAccept_of_accept hall

end Sys2Proof.Machine
end

section
/-! PROOFS. The dispatcher's family (44_dispatcher.md), continued: what `DP.HANDLE` can do, a telegram by the learn state,
the teach-in test, registration, and the statements O36 to O41, O43 and O45. -/

namespace Sys2Proof.Machine

open Sys2Proof

/-! What `DP.HANDLE` can do. -/

/-- Handlers invoked in order only emit, and only on `sink_evt` (R201). -/
theorem invokeAll_emits {hs : List Handler} {P : Packet} {s s' : State} (he : invokeAll hs P s = .ok s') :
    ∃ os, s' = s.emitAll os ∧ ∀ o ∈ os, o.isSink = true := by
  induction hs generalizing s with
  | nil =>
    cases he
    exact ⟨[], (State.emitAll_nil _).symm, List.forall_mem_nil _⟩
  | cons h hs ih =>
    obtain ⟨s₁, h₁, he⟩ := Run.bind_eq_ok.1 he
    obtain ⟨es, -, h₁⟩ := Run.bind_eq_ok.1 h₁
    cases h₁
    obtain ⟨os, rfl, hos⟩ := ih he
    refine ⟨es.map (.sinkEvt h) ++ os, State.emitAll_emitAll _ _ _, List.forall_mem_append.2 ⟨?_, hos⟩⟩
    simp [Output.isSink]

/-- The emissions of a packet that is not learned: at most one diagnostic, or the events of handlers. -/
def Quiet (os : List Output) : Prop := os = [] ∨ ∃ d, os = [.diag d]

/-- What a `DP.HANDLE` that goes on has done: at most raised a diagnostic, or invoked handlers with learn mode off, or
taken the learn action of an address in learn mode (R190 to R192). -/
theorem handle_cases {π : Config.Params} {P : Packet} {s s' : State} (he : handle π P s = .ok s') :
    (∃ os, s' = s.emitAll os ∧ Quiet os) ∨
    (s.learn = .disabled ∧ ∃ os, s' = s.emitAll os ∧ ∀ o ∈ os, o.isSink = true) ∨
    (s.learn = .enabled ∧ ∃ a, learnAction π a P s = .ok s') := by
  have hquiet : ∀ d, ∃ os, s.raise d = s.emitAll os ∧ Quiet os := fun d => ⟨[.diag d], rfl, .inr ⟨d, rfl⟩⟩
  have hsame : ∃ os, s = s.emitAll os ∧ Quiet os := ⟨[], (State.emitAll_nil s).symm, .inl rfl⟩
  unfold handle at he
  split at he
  · cases he
    unfold ignoreType
    split
    · exact .inl hsame
    · exact .inl (hquiet _)
  · split at he
    · cases he
      exact .inl (hquiet _)
    · obtain ⟨r, -, he⟩ := Run.bind_eq_ok.1 he
      obtain ⟨a, -, he⟩ := Run.bind_eq_ok.1 he
      cases hl : s.learn with
      | disabled =>
        simp only [hl] at he
        unfold dispatch at he
        split at he
        · cases he
          exact .inl (hquiet _)
        · exact .inr (.inl ⟨rfl, invokeAll_emits he⟩)
      | enabled =>
        simp only [hl] at he
        obtain ⟨q, -, he⟩ := Run.bind_eq_ok.1 he
        cases q with
        | false =>
          cases he
          exact .inl hsame
        | true => exact .inr (.inr ⟨rfl, a, he⟩)

/-- What a learn action that goes on has done: a learn-out, an unsupported profile reported, or a learn-in; in each case
learn mode has ended (R192, R194 to R196). -/
theorem learnAction_cases {π : Config.Params} {a : Addr} {P : Packet} {s s' : State}
    (he : learnAction π a P s = .ok s') : ∃ r os, s' = ((s.withReg r).emitAll os).withLearn .disabled ∧
      (os = [.unpair a, .learnEvt .learnOut a] ∨ os = [.diag (.unsupportedProfile (π.learnProfile P))] ∨
        os = [.learnEvt .learnIn a]) := by
  obtain ⟨s₁, h₁, he⟩ := Run.bind_eq_ok.1 he
  cases he
  split at h₁
  · cases h₁
    exact ⟨Registry.remove s.reg a, _, by simp [learnOut, State.emit, State.emitAll, State.withReg], .inl rfl⟩
  · unfold learnIn at h₁
    split at h₁
    · cases h₁
      exact ⟨s.reg, _, rfl, .inr (.inl rfl)⟩
    · obtain ⟨r, -, h₁⟩ := Run.bind_eq_ok.1 h₁
      cases h₁
      exact ⟨r, _, rfl, .inr (.inr rfl)⟩

/-- Once off, learn mode is not switched on by a packet. -/
theorem handle_learn_of_disabled {π : Config.Params} {P : Packet} {s s' : State} (he : handle π P s = .ok s')
    (hl : s.learn = .disabled) : s'.learn = .disabled ∧ s'.reg = s.reg := by
  rcases handle_cases he with ⟨os, rfl, -⟩ | ⟨-, os, rfl, -⟩ | ⟨hl', -⟩
  · exact ⟨hl, rfl⟩
  · exact ⟨hl, rfl⟩
  · exact absurd (hl.symm.trans hl') (by decide)

/-! The emissions by port. -/

theorem filter_isDiag_of_sinks {os : List Output} (h : ∀ o ∈ os, o.isSink = true) : os.filter Output.isDiag = [] := by
  refine List.filter_eq_nil_iff.2 fun o ho => ?_
  cases o with
  | sinkEvt h e => simp [Output.isDiag]
  | learnEvt k a | unpair a | diag d => exact absurd (h _ ho) (by simp [Output.isSink])

theorem Quiet.isDiag {os : List Output} (h : Quiet os) : ∀ o ∈ os, o.isDiag = true := by
  rcases h with rfl | ⟨d, rfl⟩
  · exact List.forall_mem_nil _
  · exact List.forall_mem_singleton.2 rfl

theorem Quiet.length_filter_isDiag {os : List Output} (h : Quiet os) : (os.filter Output.isDiag).length ≤ 1 := by
  rcases h with rfl | ⟨d, rfl⟩
  · exact Nat.zero_le 1
  · exact Nat.le_refl 1

theorem Quiet.filter_isSink {os : List Output} (h : Quiet os) : os.filter Output.isSink = [] := by
  rcases h with rfl | ⟨d, rfl⟩ <;> rfl

/-- The effects of a `DP.HANDLE` that goes on: mode, registry and outputs, by the mode it started in. -/
theorem handle_effects {π : Config.Params} {P : Packet} {s s' : State} (he : handle π P s = .ok s') :
    ∃ l r os, s' = { s with learn := l, reg := r, outputs := s.outputs ++ os } ∧
      (os.filter Output.isDiag).length ≤ 1 ∧ (s.learn = .enabled → os.filter Output.isSink = []) ∧
      (s.learn = .disabled → l = .disabled ∧ r = s.reg ∧ ∀ o ∈ os, o.isDiag = true ∨ o.isSink = true) := by
  rcases handle_cases he with ⟨os, rfl, hq⟩ | ⟨hl, os, rfl, hos⟩ | ⟨hl, a, ha⟩
  · exact ⟨s.learn, s.reg, os, rfl, hq.length_filter_isDiag, fun _ => hq.filter_isSink,
      fun hl => ⟨hl, rfl, fun o ho => .inl (hq.isDiag o ho)⟩⟩
  · exact ⟨s.learn, s.reg, os, rfl, by simp [filter_isDiag_of_sinks hos], fun hl' => absurd (hl.symm.trans hl') (by decide),
      fun _ => ⟨hl, rfl, fun o ho => .inr (hos o ho)⟩⟩
  · obtain ⟨r, os, rfl, hos⟩ := learnAction_cases ha
    refine ⟨.disabled, r, os, rfl, ?_, fun _ => ?_, fun hl' => absurd (hl'.symm.trans hl) (by decide)⟩
    · rcases hos with rfl | rfl | rfl
      exacts [Nat.zero_le 1, Nat.le_refl 1, Nat.zero_le 1]
    · rcases hos with rfl | rfl | rfl <;> rfl

/-- Settles O36: `DP.HANDLE` goes on by `handle_spec`, with the effects of `handle_effects`. -/
theorem handleEffectsByMode : Obligations.HandleEffectsByMode := by
  intro P s hc
  obtain ⟨s', hs', -, hinv⟩ := handle_spec params_regCapacity hc s
  obtain ⟨l, r, os, rfl, hdiag, hsink, hoff⟩ := handle_effects hs'
  exact ⟨_, os, exec_dpHandle_of_handle hs', rfl, hdiag, hsink, hoff, hinv⟩

/-! Ignored packets (R190). -/

theorem handle_of_not_radio {P : Packet} (h : P.hdr.ptype ≠ 0x01) (π : Config.Params) (s : State) :
    handle π P s = .ok (ignoreType P.hdr.ptype s) := by
  rw [handle, Bool.eq_false_iff.2 (mt Packet.isRadio_iff.1 h)]
  rfl

theorem handle_of_short {P : Packet} (h : P.hdr.ptype = 0x01) (hv : P.viewOk = false) (π : Config.Params) (s : State) :
    handle π P s = .ok (s.raise (shortDiag P)) := by
  rw [handle, Packet.isRadio_iff.2 h, hv]
  rfl

/-- The listed packet types as numbers (R64). -/
theorem isListedType_iff (t : Byte) :
    isListedType t = true ↔ 1 ≤ t.toNat ∧ t.toNat ≤ 7 ∨ 0x80 ≤ t.toNat := by
  have hbit : t.getLsbD 7 = decide (0x80 ≤ t.toNat) := BitVec.msb_eq_decide t
  simp only [isListedType, hbit, Bool.or_eq_true, Bool.and_eq_true, decide_eq_true_eq]

theorem ignoreType_of_listed {t : Byte} (h : isListedType t = true) (s : State) : ignoreType t s = s := if_pos h

theorem ignoreType_of_not_listed {t : Byte} (h : ¬ isListedType t = true) (s : State) :
    ignoreType t s = s.raise (.unknownPacketType t) := if_neg h

/-- Settles O37: the test of the packet type, then that of the length. -/
theorem ignoredPacketsChangeNothing : Obligations.IgnoredPacketsChangeNothing := by
  intro P s _
  refine ⟨fun hr hl => ?_, fun hres => ?_, fun hr hv => ⟨if 1 ≤ P.dl then P.pay.head? else none, fun hdl => ?_, ?_⟩⟩
  · rw [exec_dpHandle_of_handle (handle_of_not_radio hr _ s), ignoreType_of_listed ((isListedType_iff _).2 hl)]
  · have hr : P.hdr.ptype ≠ 0x01 := by bv_omega
    have hl : ¬ isListedType P.hdr.ptype = true := by
      rw [isListedType_iff]
      bv_omega
    rw [exec_dpHandle_of_handle (handle_of_not_radio hr _ s), ignoreType_of_not_listed hl]
    rfl
  · exact (if_pos hdl).trans List.head?_eq_getElem?
  · exact exec_dpHandle_of_handle (handle_of_short hr hv _ s)

/-! A telegram, by the learn state. -/

/-- With learn mode off a telegram is dispatched to the handlers of its sender (R191). -/
theorem handle_of_disabled {π : Config.Params} {P : Packet} {s : State} {a : Addr} (hc : P.completed = true)
    (hv : P.viewOk = true) (hl : s.learn = .disabled) (ha : P.sender = .ok a) : handle π P s = dispatch a P s := by
  obtain ⟨r, a', -, haddr, ht⟩ := handleTelegram_eq π hc hv s
  obtain rfl : a' = a := Except.ok.inj ((Packet.sender_of_viewOk hv haddr).symm.trans ha)
  rw [handle_of_viewOk π hv, ht, hl]

/-- In learn mode a telegram that does not qualify is dropped and the mode kept (R192, D17). -/
theorem handle_of_not_qualifies {π : Config.Params} {P : Packet} {s : State} {r : Byte} (hc : P.completed = true)
    (hv : P.viewOk = true) (hl : s.learn = .enabled) (hr : P.rorg = .ok r)
    (hq : qualifies π s.dbmMin r P = .ok false) : handle π P s = .ok s := by
  obtain ⟨r', a, h0, -, ht⟩ := handleTelegram_eq π hc hv s
  obtain rfl : r' = r := Except.ok.inj ((rorg_of_getElem? hc hv h0).symm.trans hr)
  rw [handle_of_viewOk π hv, ht, hl]
  simp [learnMode, hq]

theorem Packet.exists_sender {P : Packet} (hc : P.completed = true) (hv : P.viewOk = true) : ∃ a, P.sender = .ok a := by
  obtain ⟨a, ha⟩ := Packet.senderAt_of_viewOk hc hv
  exact ⟨a, Packet.sender_of_viewOk hv ha⟩

theorem dispatch_of_unregistered {a : Addr} {P : Packet} {s : State} (h : Registry.lookup s.reg a = []) :
    dispatch a P s = .ok (s.raise (.unregisteredAddress a)) := by
  rw [dispatch, h]

/-- Normal dispatch invokes the handlers found under the sender (R191). -/
theorem dispatch_of_registered {a : Addr} {P : Packet} {s : State} (h : Registry.lookup s.reg a ≠ []) :
    dispatch a P s = invokeAll (Registry.lookup s.reg a) P s := by
  unfold dispatch
  split
  · exact absurd ‹_› h
  · rename_i heq
    rw [heq]

theorem answerEvents_eq_next {x : Run (List Event)} {es : List Event} {s : State} :
    answerEvents x s = .next { s with result := .events es } ↔ x = .ok es := by
  simp [answerEvents, Run.bind_eq_ok, State.answer]

/-- Settles O38: the telegram is dispatched to its sender's handlers, whose decoders' events `invokeAll_eq` emits. -/
theorem normalDispatchReachesEveryHandler : Obligations.NormalDispatchReachesEveryHandler := by
  intro P s a evs hc hv hl ha hevs
  have hhandle := handle_of_disabled (π := Config.params) hc hv hl (exec_tvSender_eq_next.1 ha)
  by_cases hreg : Registry.lookup s.reg a = []
  · rw [if_pos hreg, exec_dpHandle_of_handle (hhandle.trans (dispatch_of_unregistered hreg))]
    rfl
  · have hdec : ∀ h ∈ Registry.lookup s.reg a, decodeFor h P = .ok (evs h) := fun h hh =>
      answerEvents_eq_next.1 ((exec_decoder h P s).symm.trans (hevs h hh))
    rw [dispatch_of_registered hreg, invokeAll_eq hdec] at hhandle
    rw [if_neg hreg, exec_dpHandle_of_handle hhandle]
    rfl

/-! Two telegrams with one data part. -/

/-- Radio packets whose data parts are the same bytes. -/
structure SameDataPart (P Q : Packet) : Prop where
  radio : P.isRadio = true ∧ Q.isRadio = true
  dl    : P.dl = Q.dl
  pay   : ∀ i, i < P.dl → P.pay[i]? = Q.pay[i]?

theorem SameDataPart.v {P Q : Packet} (h : SameDataPart P Q) (hdl : 0 < P.dl) : P.v = Q.v := by
  rw [Packet.v_eq_ite, Packet.v_eq_ite, h.pay 0 hdl]

theorem SameDataPart.byteAt {P Q : Packet} (h : SameDataPart P Q) {i : Nat} (hi : i < P.dl) :
    P.byteAt (i : Int) = Q.byteAt (i : Int) := by
  rw [Packet.byteAt_natCast, Packet.byteAt_natCast, h.pay i hi]

theorem SameDataPart.userDataLength {P Q : Packet} (h : SameDataPart P Q) (hdl : 0 < P.dl) :
    P.userDataLength = Q.userDataLength := by
  rw [Packet.userDataLength, Packet.userDataLength, h.dl, h.v hdl]

theorem SameDataPart.statusOffset {P Q : Packet} (h : SameDataPart P Q) (hdl : 0 < P.dl) :
    P.statusOffset = Q.statusOffset := by
  rw [Packet.statusOffset, Packet.statusOffset, h.dl, h.v hdl]

theorem SameDataPart.viewOk {P Q : Packet} (h : SameDataPart P Q) (hv : P.viewOk = true) : Q.viewOk = true := by
  obtain ⟨-, hdl⟩ := Packet.viewOk_iff.1 hv
  exact Packet.viewOk_iff.2 ⟨h.radio.2, by rw [← h.v (by omega), ← h.dl]; exact hdl⟩

theorem SameDataPart.addrAt {P Q : Packet} (h : SameDataPart P Q) {i : Nat} (hi : i + 3 < P.dl) :
    P.addrAt i = Q.addrAt i := by
  rw [Packet.addrAt, Packet.addrAt, h.byteAt (i := i) (by omega), h.byteAt (i := i + 1) (by omega),
    h.byteAt (i := i + 2) (by omega), h.byteAt hi]

/-- The sender lies in the data part (R137). -/
theorem SameDataPart.sender {P Q : Packet} (h : SameDataPart P Q) (hc : P.completed = true) (hv : P.viewOk = true) :
    Q.sender = P.sender := by
  obtain ⟨a, ha⟩ := Packet.senderAt_of_viewOk hc hv
  obtain ⟨hb, -⟩ := Packet.viewOk_bounds hc hv
  have ha' : Q.addrAt (1 + Q.userDataLength) = .ok a := by
    rw [← h.userDataLength (by omega), ← h.addrAt (by omega), ha]
  rw [Packet.sender_of_viewOk hv ha, Packet.sender_of_viewOk (h.viewOk hv) ha']

/-- What the decoders read lies in the data part (R161). -/
theorem SameDataPart.rpsInputs {P Q : Packet} (h : SameDataPart P Q) (hc : P.completed = true)
    (hv : P.viewOk = true) : rpsInputs P = rpsInputs Q := by
  obtain ⟨hb, -⟩ := Packet.viewOk_bounds hc hv
  have h0 : P.byteAt 0 = Q.byteAt 0 := h.byteAt (i := 0) (by omega)
  have h1 : P.byteAt 1 = Q.byteAt 1 := h.byteAt (i := 1) (by omega)
  have hst : P.byteAt P.statusOffset = Q.byteAt Q.statusOffset := by
    rw [← h.statusOffset (by omega), Packet.statusOffset_of_viewOk hv, h.byteAt hb]
  rw [Machine.rpsInputs, Machine.rpsInputs, Packet.radio_of h.radio.1, Packet.radio_of h.radio.2, h0, h1, hst,
    h.userDataLength (by omega)]

theorem SameDataPart.decodeFor {P Q : Packet} (h : SameDataPart P Q) (hc : P.completed = true) (hv : P.viewOk = true)
    (x : Handler) : decodeFor x P = decodeFor x Q := by
  unfold Machine.decodeFor behindGate
  rw [h.rpsInputs hc hv]

/-- Handlers whose decode rules yield the same events from two packets have the same effect on both. -/
theorem invokeAll_congr {P Q : Packet} (h : ∀ x, decodeFor x P = decodeFor x Q) (hs : List Handler) (s : State) :
    invokeAll hs P s = invokeAll hs Q s := by
  induction hs generalizing s with
  | nil => rfl
  | cons x hs ih => simp only [invokeAll, invoke, h, ih]

theorem dispatch_congr {P Q : Packet} (h : ∀ x, decodeFor x P = decodeFor x Q) (a : Addr) (s : State) :
    dispatch a P s = dispatch a Q s := by
  by_cases hreg : Registry.lookup s.reg a = []
  · rw [dispatch_of_unregistered hreg, dispatch_of_unregistered hreg]
  · rw [dispatch_of_registered hreg, dispatch_of_registered hreg, invokeAll_congr h]

theorem exec_dpHandle_congr {P Q : Packet} {s : State} (h : handle Config.params P s = handle Config.params Q s) :
    exec (.dpHandle P) s = exec (.dpHandle Q) s := by
  show execDpHandle P s = execDpHandle Q s
  rw [execDpHandle, execDpHandle, h]

/-- Settles O39: sender and decoders read the data part alone, so both telegrams are dispatched alike. -/
theorem normalDispatchIgnoresOptionalData : Obligations.NormalDispatchIgnoresOptionalData := by
  intro P Q s hc hcQ hv hr hdl hpay hl
  have hsame : SameDataPart P Q := by
    refine ⟨⟨(Packet.viewOk_iff.1 hv).1, Packet.isRadio_iff.2 hr⟩, hdl, fun i hi => ?_⟩
    rw [← List.getElem?_take_of_lt hi, hpay, List.getElem?_take_of_lt (hdl ▸ hi)]
  obtain ⟨a, ha⟩ := Packet.exists_sender hc hv
  apply exec_dpHandle_congr
  rw [handle_of_disabled hc hv hl ha, handle_of_disabled hcQ (hsame.viewOk hv) hl ((hsame.sender hc hv).trans ha)]
  exact dispatch_congr (hsame.decodeFor hc hv) a s

/-! The teach-in test (R193). -/

/-- The signal strength is the negative of its magnitude byte, as a signed number (R141, D10). -/
theorem dbmOf_toInt (g : Byte) : (dbmOf g).toInt = -(g.toNat : Int) := by
  have hg := g.isLt
  simp only [dbmOf, BitVec.toInt_eq_toNat_cond, BitVec.toNat_sub, BitVec.toNat_setWidth, BitVec.ofNat_eq_ofNat, BitVec.toNat_ofNat]
  omega

theorem qualifies_of_not_rps {r : Byte} (h : r ≠ rorgCodeRps) (π : Config.Params) (d : Dbm) (P : Packet) :
    qualifies π d r P = .ok (π.explicitTeach P) := if_neg h

theorem qualifies_rps_of_no_optData {P : Packet} (h : ¬ 7 ≤ P.ol) (π : Config.Params) (d : Dbm) :
    qualifies π d rorgCodeRps P = .ok false := by
  rw [qualifies, if_pos rfl, if_neg (mt Packet.optValid_iff.1 h)]

/-- An RPS telegram with optional data qualifies by a signed comparison with the threshold, inclusive. -/
theorem qualifies_rps_of_optData {P : Packet} (hc : P.completed = true) (hr : P.isRadio = true) (h : 7 ≤ P.ol)
    (π : Config.Params) (d : Dbm) : ∃ g, P.pay[P.dl + 5]? = some g ∧
      qualifies π d rorgCodeRps P = .ok (decide (d.toInt ≤ -(g.toNat : Int))) := by
  obtain ⟨hlen, -⟩ := Packet.pay_length hc
  refine ⟨_, List.getElem?_eq_getElem (by omega), ?_⟩
  rw [qualifies, if_pos rfl, if_pos (Packet.optValid_iff.2 h), Packet.signalDbm_of hc hr h, Run.bind_ok,
    BitVec.sle_eq_decide, dbmOf_toInt]

/-- An RPS telegram qualifies exactly where it has valid optional data and enough signal. -/
theorem qualifies_rps_iff {P : Packet} (hc : P.completed = true) (hr : P.isRadio = true) {π : Config.Params} {d : Dbm}
    {q : Bool} (hq : qualifies π d rorgCodeRps P = .ok q) :
    q = true ↔ 7 ≤ P.ol ∧ ∃ g, P.pay[P.dl + 5]? = some g ∧ d.toInt ≤ -(g.toNat : Int) := by
  by_cases ho : 7 ≤ P.ol
  · obtain ⟨g, hg, hq'⟩ := qualifies_rps_of_optData hc hr ho π d
    obtain rfl := Except.ok.inj (hq.symm.trans hq')
    simp [ho, hg]
  · obtain rfl := Except.ok.inj (hq.symm.trans (qualifies_rps_of_no_optData ho π d))
    simp [ho]

/-- Settles O40: the test on the RORG byte read from the packet, by the two kinds of RORG; where it fails the telegram is
dropped. -/
theorem teachInQualification : Obligations.TeachInQualification := by
  intro P s hc hv
  have hr := (Packet.viewOk_iff.1 hv).1
  obtain ⟨r, -, h0, -⟩ := handleTelegram_eq Config.params hc hv s
  have hrorg := rorg_of_getElem? hc hv h0
  obtain ⟨q, hq⟩ := qualifies_spec Config.params s.dbmMin r hc hr
  refine ⟨q, exec_dpTeachq_eq_next.2 ⟨r, hrorg, hq⟩, fun hrps => ?_, fun hrps => ?_, fun hl hno => ?_⟩
  · obtain rfl : r = rorgCodeRps := Option.some.inj (h0.symm.trans hrps)
    exact qualifies_rps_iff hc hr hq
  · have hne : r ≠ rorgCodeRps := fun h => hrps (h0.trans (congrArg some h))
    exact Except.ok.inj (hq.symm.trans (qualifies_of_not_rps hne _ _ _))
  · subst q
    rw [exec_dpHandle_of_handle (handle_of_not_qualifies hc hv hl hrorg hq)]

/-! Learn-in (R194) and the single shot (R196). -/

/-- The learn action of an unregistered sender is the learn-in, and ends learn mode. -/
theorem learnAction_of_not_has {π : Config.Params} {a : Addr} {P : Packet} {s : State}
    (h : Registry.has s.reg a = false) :
    learnAction π a P s = (learnIn π a P s >>= fun s' => .ok (s'.withLearn .disabled)) := by
  rw [learnAction, h]
  rfl

theorem learnIn_of_no_family {π : Config.Params} {P : Packet} (h : profileMatch (π.learnProfile P) = none) (a : Addr)
    (s : State) : learnIn π a P s = .ok (s.raise (.unsupportedProfile (π.learnProfile P))) := by
  rw [learnIn, h]

theorem learnIn_of_family {π : Config.Params} {P : Packet} {f : Family} (h : profileMatch (π.learnProfile P) = some f)
    (hu : π.regCapacity = none) (a : Addr) (s : State) :
    learnIn π a P s = .ok ((s.withReg (registerAll s.reg (makeHandlers π f (π.learnProfile P) a P))).emit
      (.learnEvt .learnIn a)) := by
  simp only [learnIn, h, hu, Registry.enter_none, Run.bind_ok]

theorem mem_tags_familyOf (t : RuleTag) : t ∈ (familyOf t).tags := by
  cases t <;> decide

/-- A record whose rule is of its profile's family has one of the family's tags. -/
theorem rule_mem_tags {h : Handler} {f : Family} (hok : recordOk h = true) (hf : profileMatch h.profileId = some f) :
    h.rule ∈ f.tags := by
  rw [recordOk, hf, beq_iff_eq, Option.some.injEq] at hok
  exact hok ▸ mem_tags_familyOf h.rule

/-- Settles O41: the sender has no handlers, so the learn action is the learn-in, which registers what `MAKE_HANDLERS`
builds or reports that the profile has no family. -/
theorem learnInRegistersHandlers : Obligations.LearnInRegistersHandlers := by
  intro P s a hc hv hl hi ha hq hreg
  obtain ⟨r, hr, hq⟩ := exec_dpTeachq_eq_next.1 hq
  have hhas : Registry.has s.reg a = false := Bool.eq_false_iff.2 fun h => (Registry.has_eq hi a).1 h hreg
  have hhandle := (handle_of_qualifies hc hv hl (exec_tvSender_eq_next.1 ha) hr hq).trans (learnAction_of_not_has hhas)
  refine ⟨fun hnone => ?_, fun f hf => ?_⟩
  · rw [learnIn_of_no_family hnone, Run.bind_ok] at hhandle
    rw [exec_dpHandle_of_handle hhandle]
    rfl
  · rw [learnIn_of_family hf params_regCapacity, Run.bind_ok] at hhandle
    obtain ⟨hne, hrec, hnd⟩ := makeHandlers_spec (π := Config.params) hf a P
    have haddr := fun h hh => (hrec h hh).1
    have hlookup := lookup_registerAll (r := s.reg) haddr (by simpa [hreg] using hnd)
    rw [hreg, List.nil_append] at hlookup
    refine ⟨_, _, exec_dpHandle_of_handle hhandle, hlookup, hne,
      fun b hb => lookup_registerAll_of_ne fun h hh => haddr h hh ▸ hb.symm, fun h hh => ?_, hnd⟩
    obtain ⟨ha', hp, hok⟩ := hrec h hh
    exact ⟨ha', hp, rule_mem_tags hok (hp ▸ hf)⟩

/-- A packet in learn mode that is no telegram leaves the mode. -/
theorem handle_learn_of_not_viewOk {π : Config.Params} {P : Packet} {s s' : State} (hv : P.viewOk = false)
    (he : handle π P s = .ok s') : s'.learn = s.learn := by
  by_cases hr : P.hdr.ptype = 0x01
  · rw [handle_of_short hr hv] at he
    cases he
    rfl
  · rw [handle_of_not_radio hr] at he
    cases he
    unfold ignoreType
    split <;> rfl

/-- In learn mode a telegram ends the mode exactly where it qualifies. -/
theorem handle_learn_of_viewOk {P : Packet} {s s' : State} (hc : P.completed = true) (hv : P.viewOk = true)
    (hl : s.learn = .enabled) (he : handle Config.params P s = .ok s') :
    s'.learn = .disabled ↔ exec (.dpTeachq P) s = .next { s with result := .bit true } := by
  obtain ⟨a, ha⟩ := Packet.exists_sender hc hv
  obtain ⟨r, -, h0, -⟩ := handleTelegram_eq Config.params hc hv s
  have hr := rorg_of_getElem? hc hv h0
  obtain ⟨q, hq⟩ := qualifies_spec Config.params s.dbmMin r hc (Packet.viewOk_iff.1 hv).1
  have hanswer := exec_dpTeachq_eq_next.2 ⟨r, hr, hq⟩
  cases q with
  | false =>
    rw [handle_of_not_qualifies hc hv hl hr hq] at he
    cases he
    simp [hl, hanswer]
  | true =>
    rw [handle_of_qualifies hc hv hl ha hr hq] at he
    exact iff_of_true (learnAction_kept he).2.1 hanswer

/-- Settles O43: only a telegram that qualifies ends the mode, and with the mode off nothing changes mode or registry. -/
theorem learnModeIsSingleShot : Obligations.LearnModeIsSingleShot := by
  refine ⟨fun P s hc hl => ?_, fun P Q s t hc hcQ hl he hoff => ?_⟩
  · obtain ⟨s', hs', -, -⟩ := handle_spec params_regCapacity hc s
    refine ⟨_, exec_dpHandle_of_handle hs', ?_⟩
    by_cases hv : P.viewOk = true
    · simpa [hv] using handle_learn_of_viewOk hc hv hl hs'
    · have hkeep := handle_learn_of_not_viewOk (Bool.eq_false_iff.2 hv) hs'
      simp [hv, hkeep, hl]
  · obtain ⟨u, hu, -, -⟩ := handle_spec params_regCapacity hcQ t
    obtain ⟨hul, hur⟩ := handle_learn_of_disabled hu hoff
    exact ⟨_, exec_dpHandle_of_handle hu, hul, hur⟩

/-! Registration (R198). -/

/-- `DP.REGISTER` of a record of its profile's family is `Registry.register` (D20). -/
theorem exec_dpRegister_of_ok {h : Handler} (hok : recordOk h = true) (s : State) :
    exec (.dpRegister h) s = .next { s with reg := Registry.register s.reg h, result := .none } := by
  show execDpRegister h s = _
  rw [execDpRegister, if_pos hok, params_regCapacity]
  rfl

theorem exec_dpRegister_of_not_ok {h : Handler} (hok : recordOk h = false) (s : State) :
    exec (.dpRegister h) s = .refused .recordNotOfFamily := by
  show execDpRegister h s = _
  rw [execDpRegister, hok]
  rfl

/-- Settles O45: the list of the record's address is the one the record joins. -/
theorem registerReplacesAndAppends : Obligations.RegisterReplacesAndAppends := by
  refine fun h s => ⟨fun hok => ⟨_, exec_dpRegister_of_ok hok s, fun b => ?_⟩, fun hno => exec_dpRegister_of_not_ok hno s⟩
  rw [Registry.lookup_register]
  exact if_congr eq_comm rfl rfl

end Sys2Proof.Machine
end

section
/-! PROOFS. The profile decoders' family (43_profile_decoders.md), continued: the match table by bytes, what the gate lets
through, the rocker's events, and the statements O30 to O32. -/

namespace Sys2Proof.Machine

open Sys2Proof

/-! The match table by bytes (R160). -/

theorem profileOf_inj {r f t r' f' t' : Byte} : profileOf r f t = profileOf r' f' t' ↔ r = r' ∧ f = f' ∧ t = t' := by
  refine ⟨fun h => ?_, by rintro ⟨rfl, rfl, rfl⟩; rfl⟩
  have hnat := congrArg BitVec.toNat h
  rw [profileOf_toNat, profileOf_toNat] at hnat
  bv_omega

/-- The mask 0xFFFF00 clears the TYPE byte. -/
theorem profileOf_and_mask (r f t : Byte) : profileOf r f t &&& 0xFFFF00 = profileOf r f 0 := by
  rw [profileOf, show (0xFFFF00 : ProfileId) = (BitVec.allOnes 8 ++ BitVec.allOnes 8) ++ 0#8 from rfl,
    BitVec.and_append, BitVec.and_append, BitVec.and_allOnes, BitVec.and_allOnes, BitVec.and_zero]
  rfl

theorem profileMatch_profileOf (r f t : Byte) :
    profileMatch (profileOf r f t) = if r ≠ 0xF6 then none
      else if f = 0x02 ∨ f = 0x03 then some .rocker
      else if f = 0x10 ∧ t = 0x00 then some .window
      else if f = 0x04 ∧ t = 0x02 then some .cardKeyErp2
      else if f = 0x04 then some .cardKeyErp1
      else if f = 0x05 ∧ t = 0xC0 then some .smoke
      else none := by
  rw [profileMatch, profileOf_and_mask, show (0xF60200 : ProfileId) = profileOf 0xF6 0x02 0 from rfl,
    show (0xF60300 : ProfileId) = profileOf 0xF6 0x03 0 from rfl,
    show (0xF61000 : ProfileId) = profileOf 0xF6 0x10 0 from rfl,
    show (0xF60402 : ProfileId) = profileOf 0xF6 0x04 0x02 from rfl,
    show (0xF60400 : ProfileId) = profileOf 0xF6 0x04 0 from rfl,
    show (0xF605C0 : ProfileId) = profileOf 0xF6 0x05 0xC0 from rfl]
  simp only [profileOf_inj]
  by_cases hr : r = 0xF6
  · simp [hr]
  · simp only [hr, ne_eq, not_false_eq_true, if_true, false_and, or_self, if_false]

/-- Settles O30: `PD.MATCH` answers `profileMatch`, which the bytes decide. -/
theorem profileMatchByBytes : Obligations.ProfileMatchByBytes := by
  intro r f t s
  rw [← profileMatch_profileOf]
  rfl

/-! The gate (R161). -/

/-- Every decoder is a rule behind the gate. -/
theorem decoder_eq_behindGate {P : Packet} {i : Instr} (hi : i ∈ decodersOn P) :
    ∃ rule, ∀ s, exec i s = answerEvents (behindGate rule P) s := by
  simp only [decodersOn, List.mem_cons, List.not_mem_nil, or_false] at hi
  rcases hi with rfl | rfl | rfl | rfl | rfl | rfl | rfl | rfl | rfl | rfl <;> exact ⟨_, fun _ => rfl⟩

theorem exec_decoder_of_events {P : Packet} {i : Instr} {rule : RpsInputs → List Event} {es : List Event}
    (hi : ∀ s, exec i s = answerEvents (behindGate rule P) s) (hes : behindGate rule P = .ok es) (s : State) :
    exec i s = .next { s with result := .events es } := by
  rw [hi, answerEvents_eq_next.2 hes]

/-- A telegram of another RORG than RPS, or without user data, does not pass the gate. -/
theorem rpsInputs_of_gate {P : Packet} {r : Byte} (hr : P.isRadio = true) (h0 : P.pay[0]? = some r)
    (h : r ≠ rorgCodeRps ∨ P.userDataLength = 0) : rpsInputs P = .ok none := by
  rw [rpsInputs, Packet.radio_of hr, Run.bind_ok, show P.byteAt 0 = .ok r from Packet.byteAt_of_getElem? h0,
    Run.bind_ok, if_pos h]

theorem behindGate_of_none {P : Packet} (h : rpsInputs P = .ok none) (rule : RpsInputs → List Event) :
    behindGate rule P = .ok [] := by
  rw [behindGate, h]
  rfl

/-- Settles O31: on a completed radio packet the gate answers the same inputs from every state, and none where it
closes. -/
theorem decodersArePureBehindGate : Obligations.DecodersArePureBehindGate := by
  intro P hc ht i hi
  have hr := Packet.isRadio_iff.2 ht
  obtain ⟨rule, hi⟩ := decoder_eq_behindGate hi
  obtain ⟨es, hes⟩ := behindGate_of_completed rule hc hr
  refine ⟨es, exec_decoder_of_events hi hes, fun hv hgate => ?_⟩
  obtain ⟨r, -, h0, -⟩ := handleTelegram_eq Config.params hc hv State.reset
  have hudl := Packet.userDataLength_of_viewOk hv
  have hnone : rpsInputs P = .ok none := by
    refine rpsInputs_of_gate hr h0 (hgate.imp (fun hne h => hne ?_) fun hdl => by omega)
    rw [h0, h]
    rfl
  exact Except.ok.inj (hes.symm.trans (behindGate_of_none hnone rule))

/-! The rocker (R162, R163). -/

theorem actionRocker_toNat (a : BitVec 3) : (actionRocker a).toNat = a.toNat / 2 := by
  have ha := a.isLt
  rw [actionRocker, BitVec.extractLsb'_toNat, Nat.shiftRight_eq_div_pow]
  omega

/-- The rocker index of action `i` is two bits of the data byte, above the side bit. -/
theorem actionAt_rocker_toNat (data : Byte) (i : Nat) :
    (actionAt data i).rocker.toNat = data.toNat / 2 ^ (4 * i + 1) % 8 / 2 := by
  rw [actionAt, actionRocker_toNat, actionCode, BitVec.extractLsb'_toNat, Nat.shiftRight_eq_div_pow]

/-- The side of action `i` is the data byte's bit at the action code's offset. -/
theorem actionAt_side (data : Byte) (i : Nat) :
    (actionAt data i).side = if data.getLsbD (4 * i + 1) then .upOff else .downOn := by
  simp [actionAt, actionUpOff, actionCode]

/-- The event of an action on the channel it addresses. -/
def actionEvents (ch : Channel) (x : Action) : List Event :=
  if x.rocker.toNat = ch.toNat then [.button x.side x.pressed] else []

/-- An N-message yields its first action's event and then, where it is present, its second action's. -/
theorem rockerN_eq (ch : Channel) (data : Byte) :
    rockerN ch data = actionEvents ch (actionAt data 1) ++
      if secondPresent data then actionEvents ch (actionAt data 0) else [] := by
  have hone : ∀ x : Action, ([x].filter fun a => a.rocker == ch).map (fun a => Event.button a.side a.pressed) =
      actionEvents ch x := fun x => by
    by_cases hx : x.rocker = ch
    · simp [actionEvents, hx]
    · simp [actionEvents, hx, BitVec.toNat_inj]
  rw [rockerN, actionsOf]
  split
  · rw [← List.singleton_append, List.filter_append, List.map_append, hone, hone]
  · rw [hone, List.append_nil]

/-- A U-message yields a release of all buttons where none is left pressed and the bow is clear. -/
theorem rockerU_eq (data : Byte) :
    rockerU data = if data.toNat / 32 = 0 ∧ data.getLsbD 4 = false then [.releaseAll] else [] := by
  have hcount : buttonCount data = 0 ↔ data.toNat / 32 = 0 := by
    have hlt := data.isLt
    rw [buttonCount, ← BitVec.toNat_inj, BitVec.extractLsb'_toNat, Nat.shiftRight_eq_div_pow]
    show _ = 0 ↔ _
    omega
  rw [rockerU]
  simp only [Bool.and_eq_true, Bool.not_eq_true', beq_iff_eq, hcount, bowPressed, and_comm]

theorem rockerRule_of_nu {status : Byte} (h : nuSet status = true) (ch : Channel) (data : Byte) :
    rockerRule ch ⟨status, data⟩ = rockerN ch data := if_pos h

theorem rockerRule_of_not_nu {status : Byte} (h : nuSet status = false) (ch : Channel) (data : Byte) :
    rockerRule ch ⟨status, data⟩ = rockerU data := if_neg (Bool.eq_false_iff.1 h)

/-- Settles O32: the rocker's rule on the two bytes, by NU. -/
theorem rockerMessageEvents : Obligations.RockerMessageEvents := by
  intro P status data ch s h
  have hexec : exec (.pdRocker P ch) s = .next { s with result := .events (rockerRule ch ⟨status, data⟩) } :=
    answerEvents_behindGate_of_rps h (rockerRule ch) s
  refine ⟨fun hnu => ⟨actionEvents ch (actionAt data 1),
    if secondPresent data then actionEvents ch (actionAt data 0) else [], ?_, ?_, ?_⟩, fun hnu => ?_⟩
  · rw [actionEvents, actionAt_rocker_toNat, actionAt_side]
    refine if_congr ?_ rfl rfl
    omega
  · rw [actionEvents, actionAt_rocker_toNat, actionAt_side, ite_and]
    refine if_congr Iff.rfl (if_congr ?_ rfl rfl) rfl
    omega
  · rw [hexec, rockerRule_of_nu hnu, rockerN_eq]
  · rw [hexec, rockerRule_of_not_nu hnu, rockerU_eq]

end Sys2Proof.Machine
end

section
/-! PROOFS. The telegram view's family (42_telegram_view.md), continued: how the bytes of a payload are laid out, each
accessor as an operation on the state, and the statements O25 to O29. -/

namespace Sys2Proof

open Sys2Proof.Machine

namespace Machine

/-- What a computation answers is what its operation answers, from every state. -/
theorem Run.outcome_answer_of_ok {α : Type} {x : Run α} {a : α} (h : x = .ok a) (f : α → Result) (s : State) :
    Run.outcome (x >>= fun a => .ok (s.answer (f a))) = .next { s with result := f a } := by
  rw [h]
  rfl

end Machine

/-! The gate of R143. -/

theorem Packet.viewOk_iff_length (P : Packet) :
    P.viewOk = true ↔ P.hdr.ptype = 0x01 ∧ 6 ≤ P.dl ∧ (P.pay[0]? = some 0xD2 → 7 ≤ P.dl) := by
  rw [Packet.viewOk_iff, Packet.isRadio_iff, Packet.v_eq_ite]
  refine and_congr_right fun _ => ?_
  split
  · rename_i hvld
    simp only [hvld, forall_const]
    omega
  · rename_i hvld
    simp only [hvld, false_imp_iff, and_true, Nat.add_zero]

theorem exec_tvOk (P : Packet) (s : State) : exec (.tvOk P) s = .next { s with result := .bit P.viewOk } := rfl

/-- Settles O29: `TV.OK` answers `viewOk`. -/
theorem viewOkIsTheLengthGate : Obligations.ViewOkIsTheLengthGate :=
  fun P s => ⟨P.viewOk, exec_tvOk P s, P.viewOk_iff_length⟩

/-! The tiles of the data part (R45, R143). -/

/-- A list from index `i` on begins with its five elements there. -/
theorem drop_eq_five {l : List Byte} {i : Nat} (h : i + 4 < l.length) :
    l.drop i = [l[i], l[i + 1], l[i + 2], l[i + 3], l[i + 4]] ++ l.drop (i + 5) := by
  rw [List.drop_eq_getElem_cons (show i < l.length by omega),
    List.drop_eq_getElem_cons (show i + 1 < l.length by omega),
    List.drop_eq_getElem_cons (show i + 2 < l.length by omega),
    List.drop_eq_getElem_cons (show i + 3 < l.length by omega), List.drop_eq_getElem_cons h]
  rfl

theorem take_one_add {l : List Byte} (h : 0 < l.length) (n : Nat) : l.take (1 + n) = l[0] :: (l.drop 1).take n := by
  cases l with
  | nil => exact absurd h (Nat.lt_irrefl 0)
  | cons b l =>
    rw [Nat.add_comm]
    rfl

theorem Packet.v_eq_ite_getElem {P : Packet} (h : 0 < P.pay.length) : P.v = if P.pay[0] = 0xD2 then 1 else 0 := by
  rw [Packet.v_eq_ite, List.getElem?_eq_getElem h]
  exact if_congr Option.some_inj rfl rfl

/-- Under `view_ok` the data part is RORG, user data, sender, status and, for VLD, one extra byte. -/
theorem Packet.take_dl_of_viewOk {P : Packet} (hv : P.viewOk = true) (hb : 5 + P.userDataLength < P.pay.length) :
    P.pay.take P.dl = P.pay[0] :: (P.pay.drop 1).take P.userDataLength ++
      [P.pay[1 + P.userDataLength], P.pay[1 + P.userDataLength + 1], P.pay[1 + P.userDataLength + 2],
        P.pay[1 + P.userDataLength + 3], P.pay[1 + P.userDataLength + 4]] ++
      (P.pay.drop (1 + P.userDataLength + 5)).take P.v := by
  have hdl : P.dl = 1 + P.userDataLength + (5 + P.v) := by
    rw [← Packet.userDataLength_of_viewOk hv]
    omega
  rw [hdl, List.take_add, take_one_add (by omega),
    drop_eq_five (i := 1 + P.userDataLength) (by omega), List.append_assoc]
  congr 1
  exact List.take_length_add_append (l₁ := [_, _, _, _, _]) P.v

/-- Settles O25: the tiles are those of `Packet.take_dl_of_viewOk`. -/
theorem accessorsTileDataPart : Obligations.AccessorsTileDataPart := by
  intro P s hc hok
  have hv : P.viewOk = true := by
    rw [exec_tvOk] at hok
    injection hok with hok
    exact Result.bit.inj (congrArg State.result hok)
  obtain ⟨hb, hlen⟩ := Packet.viewOk_bounds hc hv
  have hudl := Packet.userDataLength_of_viewOk hv
  have hr := (Packet.viewOk_iff.1 hv).1
  refine ⟨_, _, _, _, _, _, _, _, _, _, Packet.take_dl_of_viewOk hv (by omega), ?_, ?_, be32_toNat _ _ _ _,
    Run.outcome_answer_of_ok (Packet.rorg_of_viewOk hc hv) Result.byte s, exec_tvUdlen_of_radio hr s,
    Run.outcome_answer_of_ok (Packet.userData_of_viewOk hc hv) Result.bytes s,
    Run.outcome_answer_of_ok (Packet.sender_of_viewOk hv (Packet.addrAt_of_lt (by omega))) Result.word s, ?_, ?_⟩
  · rw [List.length_take, List.length_drop, ← Packet.v_eq_ite_getElem]
    omega
  · rw [Packet.toNat_userDataLength, List.length_take, List.length_drop]
    omega
  · rw [exec_tvStoff_of_radio hr, Packet.statusOffset_of_viewOk hv, List.length_take, List.length_drop]
    congr 3
    omega
  · rw [← getElem_congr_idx (show 5 + P.userDataLength = 1 + P.userDataLength + 4 by omega)]
    exact Run.outcome_answer_of_ok (Packet.status_of_viewOk hc hv) Result.byte s

/-! The accessors of short telegrams (93 U4). -/

/-- A payload byte is read, or its index is refused. -/
theorem Packet.byteAt_cases (P : Packet) (i : Int) :
    (∃ b, P.byteAt i = .ok b) ∨ P.byteAt i = .error (.refuse (.indexOutsidePayload i)) := by
  unfold Packet.byteAt
  split
  · exact .inr rfl
  · split
    · exact .inl ⟨_, rfl⟩
    · exact .inr rfl

/-- Four bytes of which one lies outside the payload are refused, at the first such index. -/
theorem Packet.addrAt_of_not {P : Packet} {i : Nat} (h : P.pay.length ≤ i + 3) :
    ∃ k, P.addrAt i = .error (.refuse (.indexOutsidePayload k)) := by
  unfold Packet.addrAt
  rcases P.byteAt_cases i with ⟨b0, h0⟩ | h0
  · rw [h0, Run.bind_ok]
    rcases P.byteAt_cases (i + 1 : Nat) with ⟨b1, h1⟩ | h1
    · rw [h1, Run.bind_ok]
      rcases P.byteAt_cases (i + 2 : Nat) with ⟨b2, h2⟩ | h2
      · rw [h2, Run.bind_ok, Packet.byteAt_of_not (i := (i + 3 : Nat)) (.inr (by omega))]
        exact ⟨_, rfl⟩
      · exact ⟨_, Run.bind_of_error h2 _⟩
    · exact ⟨_, Run.bind_of_error h1 _⟩
  · exact ⟨_, Run.bind_of_error h0 _⟩

/-- A radio packet that fails `view_ok` has no user data. -/
theorem Packet.userDataLength_of_short {P : Packet} (hr : P.isRadio = true) (hv : P.viewOk = false) :
    P.userDataLength = 0 := by
  have hshort : ¬ 6 + P.v ≤ P.dl := fun h => Bool.eq_false_iff.1 hv (Packet.viewOk_iff.2 ⟨hr, h⟩)
  rw [Packet.userDataLength]
  omega

theorem Packet.userData_of_short {P : Packet} (hc : P.completed = true) (hr : P.isRadio = true)
    (hv : P.viewOk = false) : P.userData = .ok [] := by
  obtain ⟨hlen, -⟩ := Packet.pay_length hc
  rw [Packet.userData, Packet.radio_of hr, Run.bind_ok, Packet.userDataLength_of_short hr hv, if_pos (by omega)]
  rfl

theorem Packet.rorg_of_getElem? {P : Packet} {r : Byte} (hr : P.isRadio = true) (h0 : P.pay[0]? = some r) :
    P.rorg = .ok (if 1 ≤ P.dl then r else Config.freeRorg P) := by
  rw [Packet.rorg, Packet.radio_of hr, Run.bind_ok, show P.byteAt 0 = .ok r from Packet.byteAt_of_getElem? h0]
  rfl

/-- A status byte inside the payload of a short packet is a free value. -/
theorem Packet.status_of_short {P : Packet} (hc : P.completed = true) (hr : P.isRadio = true)
    (hv : P.viewOk = false) (h : 0 ≤ P.statusOffset) : P.status = .ok (Config.freeStatus P) := by
  obtain ⟨hlen, -⟩ := Packet.pay_length hc
  have hoff : P.statusOffset = ((P.dl - 1 - P.v : Nat) : Int) := by
    simp only [Packet.statusOffset] at h ⊢
    omega
  rw [Packet.status, Packet.radio_of hr, Run.bind_ok, hoff, Packet.byteAt_of_lt (by omega), Run.bind_ok, hv]
  rfl

theorem Packet.status_of_negative {P : Packet} (hr : P.isRadio = true) (h : P.statusOffset < 0) :
    P.status = .error (.refuse (.indexOutsidePayload P.statusOffset)) := by
  rw [Packet.status, Packet.radio_of hr, Run.bind_ok, Packet.byteAt_of_not (.inl h), Run.bind_error]

/-- A sender inside the payload of a short packet is a free value. -/
theorem Packet.sender_of_short {P : Packet} (hr : P.isRadio = true) (hv : P.viewOk = false) (h : 5 ≤ P.pay.length) :
    P.sender = .ok (Config.freeSender P) := by
  rw [Packet.sender, Packet.radio_of hr, Run.bind_ok, Packet.userDataLength_of_short hr hv,
    Packet.addrAt_of_lt (by omega), Run.bind_ok, hv]
  rfl

theorem Packet.sender_of_outside {P : Packet} (hr : P.isRadio = true) (hv : P.viewOk = false) (h : P.pay.length < 5) :
    ∃ k, P.sender = .error (.refuse (.indexOutsidePayload k)) := by
  obtain ⟨k, hk⟩ := Packet.addrAt_of_not (P := P) (i := 1 + 0) (by omega)
  refine ⟨k, ?_⟩
  rw [Packet.sender, Packet.radio_of hr, Run.bind_ok, Packet.userDataLength_of_short hr hv, hk, Run.bind_error]

/-- Settles O26: no user data, and each byte by whether its index lies inside the payload. -/
theorem shortTelegramAccessorsAreFree : Obligations.ShortTelegramAccessorsAreFree := by
  intro P hc ht hv
  have hr := Packet.isRadio_iff.2 ht
  obtain ⟨hlen, -⟩ := Packet.pay_length hc
  have h0 : P.pay[0]? = some P.pay[0] := List.getElem?_eq_getElem (by omega)
  have hrorg := Packet.rorg_of_getElem? hr h0
  refine ⟨Run.outcome_answer_of_ok (Packet.userData_of_short hc hr hv) Result.bytes, fun hdl => ⟨_, h0, ?_⟩,
    fun _ => ⟨_, Run.outcome_answer_of_ok hrorg Result.byte⟩,
    fun h => ⟨_, Run.outcome_answer_of_ok (Packet.status_of_short hc hr hv h) Result.byte⟩,
    fun h s => Run.outcome_bind_of_refuse (Packet.status_of_negative hr h) _,
    fun h => ⟨_, Run.outcome_answer_of_ok (Packet.sender_of_short hr hv h) Result.word⟩, fun h => ?_⟩
  · rw [if_pos hdl] at hrorg
    exact Run.outcome_answer_of_ok hrorg Result.byte
  · obtain ⟨k, hk⟩ := Packet.sender_of_outside hr hv h
    exact ⟨k, fun s => Run.outcome_bind_of_refuse hk _⟩

/-! The optional data (R138 to R142). -/

/-- The first seven optional bytes. -/
theorem Packet.optional_of_seven {P : Packet} (ho : 7 ≤ P.ol) (hl : P.dl + 6 < P.pay.length) :
    (P.pay.drop P.dl).take P.ol = [P.pay[P.dl], P.pay[P.dl + 1], P.pay[P.dl + 2], P.pay[P.dl + 3], P.pay[P.dl + 4],
      P.pay[P.dl + 5], P.pay[P.dl + 6]] ++ (P.pay.drop (P.dl + 7)).take (P.ol - 7) := by
  rw [drop_eq_five (show P.dl + 4 < P.pay.length by omega),
    List.drop_eq_getElem_cons (show P.dl + 5 < P.pay.length by omega), List.drop_eq_getElem_cons hl]
  obtain ⟨n, hn⟩ := Nat.exists_eq_add_of_le ho
  rw [hn, Nat.add_sub_cancel_left]
  exact List.take_length_add_append (l₁ := [_, _, _, _, _, _, _]) _

/-- Settles O27: the accessors read the bytes of `Packet.optional_of_seven`. -/
theorem optionalDataAccessorsReadSevenBytes : Obligations.OptionalDataAccessorsReadSevenBytes := by
  intro P s hc ht ho
  have hr := Packet.isRadio_iff.2 ht
  obtain ⟨hlen, -⟩ := Packet.pay_length hc
  exact ⟨_, _, _, _, _, _, _, _, _, _, Packet.optional_of_seven ho (by omega), be32_toNat _ _ _ _, dbmOf_toInt _,
    Run.outcome_answer_of_ok (Packet.subtelegramCount_of hc hr ho) Result.byte s,
    Run.outcome_answer_of_ok (Packet.destination_of hc hr ho) Result.word s,
    Run.outcome_answer_of_ok (Packet.signalDbm_of hc hr ho) Result.dbm s,
    Run.outcome_answer_of_ok (Packet.securityLevel_of hc hr ho) Result.byte s⟩

/-! Outside the preconditions (93 U2, U3). -/

theorem Packet.withOptData_of_short {P : Packet} (hr : P.isRadio = true) (ho : P.ol < 7) :
    P.withOptData = .error (.refuse .optDataTooShort) := by
  rw [Packet.withOptData, Packet.radio_of hr, Run.bind_ok, if_neg fun h => absurd (Packet.optValid_iff.1 h) (by omega)]

theorem behindGate_of_not_radio {P : Packet} (h : P.hdr.ptype ≠ 0x01) (rule : RpsInputs → List Event) :
    behindGate rule P = .error (.refuse .notRadio) :=
  Run.bind_of_error (Run.bind_of_error (Packet.radio_of_ptype_ne h) _) _

theorem decodeFor_of_not_radio {P : Packet} (h : P.hdr.ptype ≠ 0x01) (x : Handler) :
    decodeFor x P = .error (.refuse .notRadio) := by
  unfold decodeFor
  cases x.rule <;> exact behindGate_of_not_radio h _

/-- Settles O28: the optional-data accessors stop at `withOptData`; the teach-in test, the gate and the invocation at the
packet type. -/
theorem preconditionsAreRefused : Obligations.PreconditionsAreRefused := by
  refine ⟨fun P s ht ho => ?_, fun P s ht => ⟨?_, fun x => ?_⟩⟩
  · have hopt := Packet.withOptData_of_short (Packet.isRadio_iff.2 ht) ho
    have hSubtel : P.subtelegramCount = _ := Run.bind_of_error hopt _
    have hDest : P.destination = _ := Run.bind_of_error hopt _
    have hDbm : P.signalDbm = _ := Run.bind_of_error hopt _
    have hSeclvl : P.securityLevel = _ := Run.bind_of_error hopt _
    simp only [List.forall_mem_cons]
    exact ⟨Run.outcome_bind_of_refuse hSubtel _, Run.outcome_bind_of_refuse hDest _, Run.outcome_bind_of_refuse hDbm _,
      Run.outcome_bind_of_refuse hSeclvl _, List.forall_mem_nil _⟩
  · have hrorg : P.rorg = _ := Run.bind_of_error (Packet.radio_of_ptype_ne ht) _
    refine List.forall_mem_cons.2 ⟨Run.outcome_bind_of_refuse hrorg _, fun i hi => ?_⟩
    obtain ⟨rule, hi⟩ := decoder_eq_behindGate hi
    exact (hi s).trans (Run.outcome_bind_of_refuse (behindGate_of_not_radio ht rule) _)
  · have hinvoke : invoke x P s = _ := Run.bind_of_error (decodeFor_of_not_radio ht x) _
    exact Run.outcome_bind_of_refuse hinvoke _

end Sys2Proof
end

section
/-! PROOFS. The channel's family (45_comm_channel.md): what a stretch of the stream makes of the framer, chunks as such
stretches, the answer that no computation reads, and the statements O48 to O52. -/

namespace Sys2Proof.Machine

open Sys2Proof

/-! A stretch of the stream that is consumed whole. -/

/-- The framer takes all the bytes, becomes `G`, and raises `ds`. -/
def Framer.Feeds (F : Framer) (bytes : List Byte) (G : Framer) (ds : List Diag) : Prop :=
  Framer.acceptLoop bytes F = .ok (bytes.length, G, ds)

theorem Framer.Feeds.append {F G K : Framer} {A B : List Byte} {ds ds' : List Diag} (hA : F.Feeds A G ds)
    (hG : G.isComplete = false) (hB : G.Feeds B K ds') : F.Feeds (A ++ B) K (ds ++ ds') := by
  rw [Framer.Feeds, List.length_append]
  exact Framer.acceptLoop_append hA hG hB

/-- What follows a stretch, from what both make together. -/
theorem Framer.Feeds.of_append {F G K : Framer} {A B : List Byte} {ds : List Diag} (hA : F.Feeds A G [])
    (hG : G.isComplete = false) (hAB : F.Feeds (A ++ B) K ds) : G.Feeds B K ds := by
  rw [Framer.Feeds, Framer.acceptLoop_append_of_not hA hG] at hAB
  obtain ⟨⟨m, K', ds'⟩, hB, hr⟩ := Run.bind_eq_ok.1 hAB
  simp only [List.nil_append, List.length_append, Except.ok.injEq, Prod.mk.injEq, Nat.add_left_cancel_iff] at hr
  obtain ⟨rfl, rfl, rfl⟩ := hr
  exact hB

theorem Framer.feeds_byte {F G : Framer} {b : Byte} {ds : List Diag} (hb : F.byte b = .ok (G, ds)) :
    F.Feeds [b] G ds := by
  by_cases hc : G.isComplete = true
  · exact Framer.acceptLoop_cons_of_completes hb hc []
  · rw [Framer.Feeds, Framer.acceptLoop_cons_of_not hb (Bool.eq_false_iff.2 hc)]
    simp [Framer.acceptLoop]

theorem Framer.isComplete_of_state {F : Framer} {p : ParseState} (h : F.state = p) (hp : p ≠ .complete) :
    F.isComplete = false := Framer.isComplete_eq_false_iff.2 (h ▸ hp)

/-- Bytes without a sync byte are skipped while scanning. -/
theorem Framer.feeds_noise {F : Framer} {noise : List Byte} (hst : F.state = .syncWait)
    (h : ∀ b ∈ noise, b ≠ Config.sync) : F.Feeds noise F [] := by
  induction noise with
  | nil => rfl
  | cons b noise ih =>
    obtain ⟨hb, hnoise⟩ := List.forall_mem_cons.1 h
    have hbyte : F.byte b = .ok (F, []) := by rw [Framer.byte_of_syncWait hst, Framer.syncByte_of_ne hb]
    exact (Framer.feeds_byte hbyte).append (Framer.isComplete_of_state hst (by decide)) (ih hnoise)

/-! A header that arrives while the framer scans. -/

/-- The framer after the five bytes before a header's CRC. -/
def Framer.awaiting (F : Framer) (H : Header) : Framer :=
  [H.sync, H.lenHi, H.lenLo, H.optLen, H.ptype].foldl Framer.hunt F

theorem Framer.awaiting_awaitsCrc {F : Framer} {H : Header} (hst : F.state = .syncWait) (hs : H.sync = Config.sync) :
    (F.awaiting H).awaitsCrc H := by
  obtain ⟨hst', hidx, hat⟩ := Framer.foldl_hunt_spec (F := F) (j := 0)
    (bs := [H.sync, H.lenHi, H.lenLo, H.optLen, H.ptype]) hst (congrArg some hs) (fun k hk => absurd hk (Nat.not_lt_zero k))
  exact ⟨hst', hidx, hat 0, hat 1, hat 2, hat 3, hat 4⟩

theorem Framer.feeds_header {F G : Framer} {H : Header} {ds : List Diag} (hst : F.state = .syncWait)
    (hb : (F.awaiting H).byte H.crc = .ok (G, ds)) : F.Feeds H.bytes G ds := by
  have hhunts : F.HuntsFor [H.sync, H.lenHi, H.lenLo, H.optLen, H.ptype].length := .inl ⟨hst, Nat.le_refl 5⟩
  have hfive : F.Feeds [H.sync, H.lenHi, H.lenLo, H.optLen, H.ptype] (F.awaiting H) [] := hhunts.acceptLoop
  exact hfive.append hhunts.foldl.isComplete (Framer.feeds_byte hb)

/-- A valid header is held and its payload awaited. -/
theorem Framer.feeds_valid_header {F : Framer} {H : Header} (hst : F.state = .syncWait) (hs : H.sync = Config.sync)
    (hc : H.crcOk = true) (hsz : H.paySize ≤ 300) :
    ∃ G, F.Feeds H.bytes G [] ∧ G.state = .dataRead ∧ G.idx = 0 ∧ G.holds H ∧ ∀ i, G.payAt i = none := by
  have hawaits := Framer.awaiting_awaitsCrc hst hs
  exact ⟨_, Framer.feeds_header hst (Framer.byte_of_valid_header hawaits hc hsz), rfl, rfl,
    (Framer.byte_of_awaitsCrc hawaits).2, fun _ => rfl⟩

theorem Framer.feeds_oversize_header {F : Framer} {H : Header} (hst : F.state = .syncWait) (hs : H.sync = Config.sync)
    (hc : H.crcOk = true) (hsz : 300 < H.paySize) :
    ∃ G, F.Feeds H.bytes G [.oversize H.paySize] ∧ G.state = .syncWait :=
  ⟨_, Framer.feeds_header hst (Framer.byte_of_oversize_header (Framer.awaiting_awaitsCrc hst hs) hc hsz), rfl⟩

/-- A failed header: what follows it is received as if the header's last five bytes came first, while scanning. -/
theorem Framer.feeds_failed_header {F : Framer} {H : Header} (hst : F.state = .syncWait) (hs : H.sync = Config.sync)
    (hc : H.crcOk = false) : ∃ G G' : Framer, G.state = .syncWait ∧ F.Feeds H.bytes G' [.headerCrcMismatch H] ∧ G'.hunting ∧
      ∀ rest K ds, G.Feeds (H.replayed ++ rest) K ds → F.Feeds (H.bytes ++ rest) K (.headerCrcMismatch H :: ds) := by
  obtain ⟨hb, hhunts⟩ := Framer.byte_of_mismatch (Framer.awaiting_awaitsCrc hst hs) hc
  have hheader := Framer.feeds_header hst hb
  have hnext := hhunts.foldl
  refine ⟨((F.awaiting H).putHeader H.crc).toSync, _, rfl, hheader, hnext.hunting, fun rest K ds hrest => ?_⟩
  exact hheader.append hnext.isComplete (Framer.Feeds.of_append hhunts.acceptLoop hnext.isComplete hrest)

/-! A payload that arrives after its header. -/

/-- The framer has gathered the payload bytes `bytes` of `H`. -/
structure Framer.Gathered (F : Framer) (H : Header) (bytes : List Byte) : Prop where
  state  : F.state = .dataRead
  holds  : F.holds H
  length : bytes.length = F.idx
  payAt  : ∀ i, i < F.idx → F.payAt i = bytes[i]?

theorem Framer.Gathered.putPayload {F : Framer} {H : Header} {bytes : List Byte} (h : F.Gathered H bytes) (b : Byte) :
    (F.putPayload b).Gathered H (bytes ++ [b]) where
  state := h.state
  holds := h.holds
  length := by rw [List.length_append, h.length]; rfl
  payAt i hi := by
    refine Framer.putPayload_payAt_of_gathered b h.length h.payAt i ?_
    rw [List.length_append, h.length]
    exact hi

/-- Payload bytes before the last are gathered. -/
theorem Framer.Gathered.feeds {F : Framer} {H : Header} {bytes : List Byte} (h : F.Gathered H bytes)
    (hsz : H.paySize ≤ 300) {more : List Byte} (hlt : bytes.length + more.length < H.paySize) :
    ∃ G, F.Feeds more G [] ∧ G.Gathered H (bytes ++ more) := by
  induction more generalizing F bytes with
  | nil => exact ⟨F, rfl, by rwa [List.append_nil]⟩
  | cons b more ih =>
    rw [List.length_cons] at hlt
    have hb := Framer.byte_of_filling h.state h.holds hsz (by rw [← h.length]; omega) b
    obtain ⟨G, hG, hGat⟩ := ih (h.putPayload b) (by rw [List.length_append, List.length_singleton]; omega)
    refine ⟨G, (Framer.feeds_byte hb).append (Framer.isComplete_of_state h.state (by decide)) hG, ?_⟩
    rwa [List.append_assoc] at hGat

/-- A complete framer hands over the header it holds and the payload it reads (R115). -/
theorem Framer.take_of_complete {F : Framer} {H : Header} {bytes : List Byte} (hst : F.state = .complete)
    (hH : F.holds H) (hbytes : F.payload H.paySize = .ok bytes) : F.take = .ok ⟨H, bytes⟩ := by
  rw [Framer.take, if_pos (Framer.isComplete_iff.2 hst), Framer.header_eq_ok.2 hH, Run.bind_ok, hbytes, Run.bind_ok]

/-- The last payload byte completes the packet, which can then be taken, or drops it (R108, R109). -/
theorem Framer.Gathered.last {F : Framer} {H : Header} {bytes : List Byte} (h : F.Gathered H bytes)
    (hsz : H.paySize ≤ 300) (hlast : bytes.length + 1 = H.paySize) (b : Byte) :
    (payCrcOk (bytes ++ [b]) = true → ∃ G, F.byte b = .ok (G, []) ∧ G.state = .complete ∧
      G.take = .ok ⟨H, bytes ++ [b]⟩) ∧
    (payCrcOk (bytes ++ [b]) = false → ∃ G, F.byte b = .ok (G, [.payloadCrcMismatch H (bytes ++ [b])]) ∧
      G.state = .syncWait ∧ G.idx = 0) := by
  have hbyte := Framer.byte_of_last b h.state h.holds hsz (by rw [← h.length, hlast]) h.length h.payAt
  have hlen : (bytes ++ [b]).length = H.paySize := by rw [List.length_append, List.length_singleton, hlast]
  have hput := h.putPayload b
  have hread : (F.putPayload b).payload H.paySize = .ok (bytes ++ [b]) := by
    rw [← hlen]
    exact Framer.payload_eq_ok_of_payAt (hlen ▸ hsz) fun i hi => hput.payAt i (hput.length ▸ hi)
  refine ⟨fun hc => ?_, fun hc => ?_⟩
  · rw [if_pos ((payCrcOk_concat bytes b).1 hc)] at hbyte
    exact ⟨_, hbyte, rfl, Framer.take_of_complete rfl h.holds hread⟩
  · rw [if_neg fun h => Bool.eq_false_iff.1 hc ((payCrcOk_concat bytes b).2 h)] at hbyte
    exact ⟨_, hbyte, rfl, rfl⟩

/-- A payload of its header's size completes the packet where its CRC matches, and is dropped where it does not. -/
theorem Framer.feeds_payload {F : Framer} {H : Header} {pay : List Byte} (hst : F.state = .dataRead) (hi : F.idx = 0)
    (hH : F.holds H) (hsz : H.paySize ≤ 300) (hlen : pay.length = H.paySize) :
    (payCrcOk pay = true → ∃ G, F.Feeds pay G [] ∧ G.state = .complete ∧ G.take = .ok ⟨H, pay⟩) ∧
    (payCrcOk pay = false → ∃ G, F.Feeds pay G [.payloadCrcMismatch H pay] ∧ G.state = .syncWait ∧ G.idx = 0) := by
  have hstart : F.Gathered H [] := ⟨hst, hH, hi.symm, fun i hlt => absurd hlt (by omega)⟩
  rcases List.eq_nil_or_concat pay with rfl | ⟨bytes, b, rfl⟩
  · exact absurd hlen (by simp [Header.paySize])
  · rw [List.concat_eq_append, List.length_append, List.length_singleton] at hlen
    rw [List.concat_eq_append]
    obtain ⟨G, hG, hGat⟩ := hstart.feeds hsz (more := bytes) (by rw [List.length_nil]; omega)
    have hnc : G.isComplete = false := Framer.isComplete_of_state hGat.state (by decide)
    obtain ⟨hok, hbad⟩ := hGat.last hsz hlen b
    refine ⟨fun hc => ?_, fun hc => ?_⟩
    · obtain ⟨K, hb, hK⟩ := hok hc
      exact ⟨K, hG.append hnc (Framer.feeds_byte hb), hK⟩
    · obtain ⟨K, hb, hK⟩ := hbad hc
      exact ⟨K, hG.append hnc (Framer.feeds_byte hb), hK⟩

/-- A completed packet that arrives while the framer scans, after bytes without a sync byte, can be taken. -/
theorem Framer.feeds_packet {F : Framer} {P : Packet} {noise : List Byte} (hst : F.state = .syncWait)
    (hnoise : ∀ b ∈ noise, b ≠ Config.sync) (hc : P.completed = true) :
    ∃ G, F.Feeds (noise ++ (P.hdr.bytes ++ P.pay)) G [] ∧ G.state = .complete ∧ G.take = .ok P := by
  obtain ⟨hs, hcrc, hsz, hlen, hpay⟩ := Packet.completed_iff.1 hc
  obtain ⟨G, hG, hGst, hGi, hGH, -⟩ := Framer.feeds_valid_header hst hs hcrc hsz
  obtain ⟨K, hK, hKst, htake⟩ := (Framer.feeds_payload hGst hGi hGH hsz hlen).1 hpay
  refine ⟨K, ?_, hKst, htake⟩
  exact (Framer.feeds_noise hst hnoise).append (Framer.isComplete_of_state hst (by decide))
    (hG.append (Framer.isComplete_of_state hGst (by decide)) hK)

/-! A chunk as a stretch of the stream (R222). -/

theorem rxChunk_of_feeds {π : Config.Params} {s : State} {bytes : List Byte} {G : Framer} {ds : List Diag}
    (hnc : s.fr.isComplete = false) (h : s.fr.Feeds bytes G ds) :
    rxChunk π bytes s = deliver π ((s.withFramer G).raiseAll ds) := by
  rw [rxChunk_of_not π bytes hnc, rxFold_eq_acceptLoop π bytes hnc, show Framer.acceptLoop bytes s.fr = _ from h,
    Run.bind_ok]
  simp only [List.drop_length, rxFold]
  exact Run.bind_eta _

theorem deliver_of_take {π : Config.Params} {s : State} {P : Packet} (hst : s.fr.state = .complete)
    (htake : s.fr.take = .ok P) : deliver π s = handle π P (s.withFramer Framer.fresh) := by
  rw [deliver, if_pos (Framer.isComplete_iff.2 hst), htake, Run.bind_ok]

/-- A chunk that ends with a packet is the packet handled with a fresh framer. -/
theorem rxChunk_of_feeds_packet {π : Config.Params} {s : State} {bytes : List Byte} {G : Framer} {P : Packet}
    {ds : List Diag} (hnc : s.fr.isComplete = false) (h : s.fr.Feeds bytes G ds) (hst : G.state = .complete)
    (htake : G.take = .ok P) :
    rxChunk π bytes s = handle π P { s with fr := Framer.fresh, outputs := s.outputs ++ ds.map Output.diag } :=
  (rxChunk_of_feeds hnc h).trans (deliver_of_take hst htake)

theorem exec_chRx_of_feeds_packet {s : State} {bytes : List Byte} {G : Framer} {P : Packet} {ds : List Diag}
    (hnc : s.fr.isComplete = false) (h : s.fr.Feeds bytes G ds) (hst : G.state = .complete) (htake : G.take = .ok P) :
    exec (.chRx bytes none) s =
      exec (.dpHandle P) { s with fr := Framer.fresh, outputs := s.outputs ++ ds.map Output.diag } := by
  have hrx : rx Config.params bytes none s = _ := rxChunk_of_feeds_packet hnc h hst htake
  show execChRx bytes none s = execDpHandle P _
  rw [execChRx, hrx]
  rfl

/-- Settles O50: `Framer.feeds_packet` in a chunk. -/
theorem wholePacketIsDelivered : Obligations.WholePacketIsDelivered := by
  intro noise P s hnoise hc hst
  obtain ⟨G, hG, hGst, htake⟩ := Framer.feeds_packet hst hnoise hc
  rw [List.append_assoc, exec_chRx_of_feeds_packet (Framer.isComplete_of_state hst (by decide)) hG hGst htake]
  simp

/-- Settles O51: after each kind of drop the framer scans, and the packet follows. -/
theorem nextPacketSurvivesDrop : Obligations.NextPacketSurvivesDrop := by
  intro H P s hs hc hst
  have hnc := Framer.isComplete_of_state hst (by decide)
  refine ⟨fun hcrc hno => ?_, fun hcrc hsz => ?_, fun hcrc hsz bad hlen hbad => ?_⟩
  · obtain ⟨G, -, hGst, -, -, hrest⟩ := Framer.feeds_failed_header hst hs hcrc
    obtain ⟨K, hK, hKst, htake⟩ := Framer.feeds_packet hGst hno hc
    rw [List.append_assoc, exec_chRx_of_feeds_packet hnc (hrest _ _ _ hK) hKst htake]
    rfl
  · obtain ⟨G, hG, hGst⟩ := Framer.feeds_oversize_header hst hs hcrc hsz
    obtain ⟨K, hK, hKst, htake⟩ := Framer.feeds_packet (noise := []) hGst (List.forall_mem_nil _) hc
    have hall : s.fr.Feeds (H.bytes ++ (P.hdr.bytes ++ P.pay)) K [.oversize H.paySize] :=
      hG.append (Framer.isComplete_of_state hGst (by decide)) hK
    rw [List.append_assoc, exec_chRx_of_feeds_packet hnc hall hKst htake]
    rfl
  · obtain ⟨G, hG, hGst, hGi, hGH, -⟩ := Framer.feeds_valid_header hst hs hcrc hsz
    obtain ⟨J, hJ, hJst, -⟩ := (Framer.feeds_payload hGst hGi hGH hsz hlen).2 hbad
    obtain ⟨K, hK, hKst, htake⟩ := Framer.feeds_packet (noise := []) hJst (List.forall_mem_nil _) hc
    have hdrop : s.fr.Feeds (H.bytes ++ bad) J [.payloadCrcMismatch H bad] :=
      hG.append (Framer.isComplete_of_state hGst (by decide)) hJ
    have hall : s.fr.Feeds (H.bytes ++ bad ++ (P.hdr.bytes ++ P.pay)) K [.payloadCrcMismatch H bad] :=
      hdrop.append (Framer.isComplete_of_state hJst (by decide)) hK
    rw [List.append_assoc, exec_chRx_of_feeds_packet hnc hall hKst htake]
    rfl

/-- Settles O52: the failed header's last five bytes and what follows are the bytes before the packet and the packet. -/
theorem packetInsideFailedHeaderSurvives : Obligations.PacketInsideFailedHeaderSurvives := by
  intro H noise rest P s hst hc _ hnoise hbytes hcrc
  have hcons : (0x55 : Byte) :: (noise ++ P.hdr.bytes) = H.sync :: (H.replayed ++ rest) := hbytes
  obtain ⟨hs, hsplit⟩ := List.cons.inj hcons
  obtain ⟨G, -, hGst, -, -, hrest⟩ := Framer.feeds_failed_header hst hs.symm hcrc
  obtain ⟨K, hK, hKst, htake⟩ := Framer.feeds_packet hGst hnoise hc
  rw [← List.append_assoc, hsplit, List.append_assoc] at hK
  rw [hbytes, List.append_assoc,
    exec_chRx_of_feeds_packet (Framer.isComplete_of_state hst (by decide)) (hrest _ _ _ hK) hKst htake]
  rfl

/-! No computation reads the answer (log 3). -/

/-- A computation that answers a state, with the answer set after it. -/
def Run.answered (r : Result) (x : Run State) : Run State := x >>= fun s => .ok (s.answer r)

@[simp] theorem Run.answered_ok (r : Result) (s : State) : Run.answered r (.ok s) = .ok (s.answer r) := rfl

theorem Run.answered_bind (r : Result) {α : Type} (x : Run α) (f : α → Run State) :
    Run.answered r (x >>= f) = x >>= fun a => Run.answered r (f a) := by
  cases x <;> rfl

theorem Run.bind_answered (r : Result) (x : Run State) (f : State → Run State) :
    Run.answered r x >>= f = x >>= fun s => f (s.answer r) := by
  cases x <;> rfl

theorem invokeAll_answer (r : Result) (hs : List Handler) (P : Packet) (s : State) :
    invokeAll hs P (s.answer r) = Run.answered r (invokeAll hs P s) := by
  induction hs generalizing s with
  | nil => rfl
  | cons h hs ih =>
    have hinvoke : invoke h P (s.answer r) = Run.answered r (invoke h P s) := by
      rw [invoke, invoke, Run.answered_bind]
      rfl
    rw [invokeAll, hinvoke, Run.bind_answered, invokeAll, Run.answered_bind]
    simp only [ih]

theorem dispatch_answer (r : Result) (a : Addr) (P : Packet) (s : State) :
    dispatch a P (s.answer r) = Run.answered r (dispatch a P s) := by
  by_cases hreg : Registry.lookup s.reg a = []
  · rw [dispatch_of_unregistered hreg, dispatch_of_unregistered (s := s.answer r) hreg]
    rfl
  · rw [dispatch_of_registered hreg, dispatch_of_registered (s := s.answer r) hreg]
    exact invokeAll_answer r _ P s

theorem learnIn_answer (r : Result) (π : Config.Params) (a : Addr) (P : Packet) (s : State) :
    learnIn π a P (s.answer r) = Run.answered r (learnIn π a P s) := by
  unfold learnIn
  split
  · rfl
  · rw [Run.answered_bind]
    rfl

theorem learnAction_answer (r : Result) (π : Config.Params) (a : Addr) (P : Packet) (s : State) :
    learnAction π a P (s.answer r) = Run.answered r (learnAction π a P s) := by
  cases hhas : Registry.has s.reg a with
  | true =>
    rw [learnAction_of_has hhas, learnAction_of_has (s := s.answer r) hhas]
    rfl
  | false =>
    rw [learnAction_of_not_has hhas, learnAction_of_not_has (s := s.answer r) hhas, learnIn_answer, Run.bind_answered,
      Run.answered_bind]
    rfl

theorem learnMode_answer (r : Result) (π : Config.Params) (rorg : Byte) (a : Addr) (P : Packet) (s : State) :
    learnMode π rorg a P (s.answer r) = Run.answered r (learnMode π rorg a P s) := by
  rw [learnMode, learnMode, Run.answered_bind]
  refine congrArg _ (funext fun q => ?_)
  cases q with
  | false => rfl
  | true => exact learnAction_answer r π a P s

/-- `DP.HANDLE` does the same whatever the answer before it. -/
theorem handle_answer (r : Result) (π : Config.Params) (P : Packet) (s : State) :
    handle π P (s.answer r) = Run.answered r (handle π P s) := by
  unfold handle
  split
  · unfold ignoreType
    split <;> rfl
  · split
    · rfl
    · unfold handleTelegram
      rw [Run.answered_bind]
      refine congrArg _ (funext fun rorg => ?_)
      rw [Run.answered_bind]
      refine congrArg _ (funext fun a => ?_)
      rw [State.answer_learn]
      cases s.learn with
      | disabled => exact dispatch_answer r a P s
      | enabled => exact learnMode_answer r π rorg a P s

theorem deliver_answer (r : Result) (π : Config.Params) (s : State) :
    deliver π (s.answer r) = Run.answered r (deliver π s) := by
  unfold deliver
  rw [State.answer_fr]
  split
  · rw [Run.answered_bind]
    exact congrArg _ (funext fun P => handle_answer r π P (s.withFramer Framer.fresh))
  · rfl

theorem rxFold_answer (r : Result) (π : Config.Params) (bs : List Byte) (s : State) :
    rxFold π bs (s.answer r) = Run.answered r (rxFold π bs s) := by
  induction bs generalizing s with
  | nil => rfl
  | cons b bs ih =>
    have hbyte : rxByte π b (s.answer r) = Run.answered r (rxByte π b s) := by
      rw [rxByte, rxByte, Run.answered_bind]
      exact congrArg _ (funext fun x => deliver_answer r π ((s.withFramer x.1).raiseAll x.2))
    rw [rxFold, hbyte, Run.bind_answered, rxFold, Run.answered_bind]
    simp only [ih]

/-- A chunk does the same whatever the answer before it. -/
theorem rxChunk_answer (r : Result) (π : Config.Params) (bs : List Byte) (s : State) :
    rxChunk π bs (s.answer r) = Run.answered r (rxChunk π bs s) := by
  rw [rxChunk_eq, rxChunk_eq]
  split
  · rfl
  · rw [deliver_answer, Run.bind_answered, Run.answered_bind]
    simp only [rxFold_answer]

theorem exec_chRx_eq (bytes : List Byte) (s : State) :
    exec (.chRx bytes none) s = Run.outcome (Run.answered .none (rxChunk Config.params bytes s)) := rfl

theorem exec_dpHandle_eq (P : Packet) (s : State) :
    exec (.dpHandle P) s = Run.outcome (Run.answered .none (handle Config.params P s)) := rfl

theorem Run.answered_answered (r r' : Result) (x : Run State) :
    Run.answered r (Run.answered r' x) = Run.answered r x := by
  cases x <;> rfl

theorem exec_dpHandle_answer (r : Result) (P : Packet) (s : State) :
    exec (.dpHandle P) (s.answer r) = exec (.dpHandle P) s := by
  rw [exec_dpHandle_eq, handle_answer, Run.answered_answered, exec_dpHandle_eq]

/-- Settles O48: one byte is a stretch of the stream; a packet it completes is handed over. -/
theorem rxFramesThenDispatches : Obligations.RxFramesThenDispatches := by
  intro b s t hnc ht
  have hnc := Framer.isComplete_eq_false_iff.2 hnc
  obtain ⟨G, ds, hb, rfl⟩ := exec_frByte_eq_next ht
  have hfeeds := Framer.feeds_byte hb
  refine ⟨fun hst => ?_, fun hst P htake => ?_⟩
  · have hdeliver : deliver Config.params ((s.withFramer G).raiseAll ds) = .ok ((s.withFramer G).raiseAll ds) :=
      deliver_of_not (Framer.isComplete_eq_false_iff.2 hst)
    exact exec_chRx_of_rx (err := none) ((rxChunk_of_feeds hnc hfeeds).trans hdeliver)
  · have htake : G.take = .ok P := by
      obtain ⟨P', hP', heq⟩ := Run.bind_eq_ok.1 ((Run.outcome_eq_next _ _).1 htake)
      cases heq
      exact hP'
    rw [exec_chRx_of_feeds_packet hnc hfeeds hst htake]
    exact (exec_dpHandle_answer .none P _).symm

/-- Chunks one after the other are one chunk (R223): what they leave is the same, and none reads the answer before it. -/
theorem rxAll_cons (c : List Byte) (cs : List (List Byte)) (s : State) :
    rxAll (c :: cs) s = exec (.chRx (c :: cs).flatten none) s := by
  induction cs generalizing c s with
  | nil =>
    rw [rxAll, List.flatten_singleton]
    cases exec (.chRx c none) s <;> rfl
  | cons d ds ih =>
    rw [rxAll, List.flatten_cons, exec_chRx_eq, exec_chRx_eq, rxChunk_append]
    rcases rxChunk Config.params c s with (f | r) | s'
    · rfl
    · rfl
    · show rxAll (d :: ds) (s'.answer .none) = Run.outcome (Run.answered .none (rxChunk _ _ s'))
      rw [ih, exec_chRx_eq, rxChunk_answer, Run.answered_answered]

/-- Settles O49: any list of chunks is the one chunk of its bytes. -/
theorem chunkingInvariance : Obligations.ChunkingInvariance := by
  intro cs ds s hcs hds hflat
  obtain ⟨c, cs, rfl⟩ := List.exists_cons_of_ne_nil hcs
  obtain ⟨d, ds, rfl⟩ := List.exists_cons_of_ne_nil hds
  rw [rxAll_cons, rxAll_cons, hflat]

end Sys2Proof.Machine
end

section
/-! PROOFS. The rows of the byte stream (30_encoding.md section 1, log 15): a header and a payload as stretches of the
stream that arrive in one chunk, and the statements O54 and O55. -/

namespace Sys2Proof.Machine

open Sys2Proof

theorem arrive_of_rxChunk {bytes : List Byte} {s s' : State} (h : rxChunk Config.params bytes s = .ok s') (r : Result) :
    arrive bytes r s = .next { s' with result := r } := by
  rw [arrive, h]
  rfl

/-- Bytes that leave the framer without a packet have the framer's effect alone. -/
theorem arrive_of_feeds {bytes : List Byte} {s : State} {G : Framer} {ds : List Diag} (hnc : s.fr.isComplete = false)
    (h : s.fr.Feeds bytes G ds) (hG : G.isComplete = false) (r : Result) :
    arrive bytes r s = .next { s with fr := G, outputs := s.outputs ++ ds.map Output.diag, result := r } := by
  have hdeliver : deliver Config.params ((s.withFramer G).raiseAll ds) = .ok ((s.withFramer G).raiseAll ds) :=
    deliver_of_not hG
  exact arrive_of_rxChunk ((rxChunk_of_feeds hnc h).trans hdeliver) r

/-- A header that arrives while scanning leaves no packet; a valid one is held, any other raises one diagnostic. -/
theorem Framer.feeds_header_by_validity {F : Framer} {H : Header} (hst : F.state = .syncWait)
    (hs : H.sync = Config.sync) : ∃ G ds, F.Feeds H.bytes G ds ∧ G.isComplete = false ∧
      (H.valid = true → G.state = .dataRead ∧ G.idx = 0 ∧ G.holds H ∧ (∀ i, G.payAt i = none) ∧ ds = []) ∧
      (H.valid = false → G.hunting ∧ ds.length = 1) := by
  by_cases hc : H.crcOk = true
  · by_cases hsz : H.paySize ≤ 300
    · have hv : H.valid = true := (Header.valid_iff H).2 ⟨hc, hsz⟩
      obtain ⟨G, hG, hGst, hGi, hGH, hpay⟩ := Framer.feeds_valid_header hst hs hc hsz
      exact ⟨G, [], hG, Framer.isComplete_of_state hGst (by decide), fun _ => ⟨hGst, hGi, hGH, hpay, rfl⟩,
        fun hno => absurd (hv.symm.trans hno) (by decide)⟩
    · have hv : ¬ H.valid = true := fun hv => hsz ((Header.valid_iff H).1 hv).2
      obtain ⟨G, hG, hGst⟩ := Framer.feeds_oversize_header hst hs hc (Nat.lt_of_not_le hsz)
      exact ⟨G, _, hG, Framer.isComplete_of_state hGst (by decide), fun h => absurd h hv, fun _ => ⟨.inl hGst, rfl⟩⟩
  · have hv : ¬ H.valid = true := fun hv => hc ((Header.valid_iff H).1 hv).1
    obtain ⟨-, G, -, hG, hGh, -⟩ := Framer.feeds_failed_header hst hs (Bool.eq_false_iff.2 hc)
    exact ⟨G, _, hG, Framer.isComplete_of_hunting hGh, fun h => absurd h hv, fun _ => ⟨hGh, rfl⟩⟩

/-- Settles O54: the header's bytes as a stretch of the stream, and its validity in numbers. -/
theorem headerRowArrives : Obligations.HeaderRowArrives := by
  intro h l o t c s hst
  obtain ⟨G, ds, hG, hnc, hvalid, hinvalid⟩ := Framer.feeds_header_by_validity (H := ⟨0x55, h, l, o, t, c⟩) hst rfl
  refine ⟨G, ds, _, ?_, arrive_of_feeds (Framer.isComplete_of_state hst (by decide)) hG hnc _, hvalid, hinvalid⟩
  rw [Header.valid_iff, Header.crcOk_iff, Header.paySize_eq]

/-- Settles O55: the payload completes the packet, which is handled, or is dropped. -/
theorem payloadRowArrives : Obligations.PayloadRowArrives := by
  intro data opt c H s hst hi hacc hdl hol
  obtain ⟨hH, hs, hcrc, hsz⟩ := hacc
  have hnc := Framer.isComplete_of_state hst (by decide)
  have hlen : (data ++ opt ++ [c]).length = H.paySize := by
    rw [List.length_append, List.length_append, ← hdl, ← hol]
    rfl
  have hexec : exec (.esp3Payload data opt c) s =
    arrive (data ++ opt ++ [c]) (.bit (payCrcOk (data ++ opt ++ [c]))) s := rfl
  obtain ⟨hok, hbad⟩ := Framer.feeds_payload hst hi hH hsz hlen
  refine ⟨fun hc => ?_, fun hc => ?_⟩
  · have hpay : payCrcOk (data ++ opt ++ [c]) = true := (payCrcOk_concat (data ++ opt) c).2 hc
    obtain ⟨G, hG, hGst, htake⟩ := hok hpay
    have hP : Packet.completed ⟨H, data ++ opt ++ [c]⟩ = true := Packet.completed_iff.2 ⟨hs, hcrc, hsz, hlen, hpay⟩
    obtain ⟨s', hs', -, -⟩ := handle_spec params_regCapacity hP { s with fr := Framer.fresh }
    have hrx : rxChunk Config.params (data ++ opt ++ [c]) s = .ok s' := by
      rw [rxChunk_of_feeds_packet hnc hG hGst htake, List.map_nil, List.append_nil, hs']
    refine ⟨_, exec_dpHandle_of_handle hs', ?_⟩
    rw [hexec, hpay]
    exact arrive_of_rxChunk hrx _
  · have hpay : payCrcOk (data ++ opt ++ [c]) = false :=
      Bool.eq_false_iff.2 fun hok => hc ((payCrcOk_concat (data ++ opt) c).1 hok)
    obtain ⟨G, hG, hGst, hGi⟩ := hbad hpay
    refine ⟨G, hGst, hGi, ?_⟩
    rw [hexec, hpay]
    exact arrive_of_feeds hnc hG (Framer.isComplete_of_state hGst (by decide)) _

end Sys2Proof.Machine
end

section
/-! PROOFS. The rows of the wire formats (30_encoding.md section 3; log 15): codes, status and data bytes, profile ids and
the optional data, and the statements O56 to O58. -/

namespace Sys2Proof.Machine

open Sys2Proof

/-! Packet types (R64, R65). -/

theorem readPtype_of_listed {t : Byte} (h : isListedType t = true) (s : State) :
    readPtype t s = .next { s with result := .bit (isRadioType t) } := by
  rw [readPtype, ignoreType_of_listed h, ite_self]
  rfl

/-- The types 0x80 to 0xFF are listed, and none is radio. -/
theorem ptypeManufacturerSpecific_listed (low : BitVec 7) :
    isListedType (1#1 ++ low) = true ∧ isRadioType (1#1 ++ low) = false := by
  have hbound : 0x80 ≤ (1#1 ++ low : Byte).toNat := by
    rw [BitVec.toNat_append]
    exact Nat.left_le_or
  refine ⟨(isListedType_iff _).2 (.inr hbound), beq_false_of_ne fun h => ?_⟩
  rw [h] at hbound
  exact absurd hbound (by decide)

theorem exec_ptypeManufacturerSpecific (low : BitVec 7) (s : State) :
    exec (.ptypeManufacturerSpecific low) s = .next { s with result := .bit false } := by
  obtain ⟨hlisted, hradio⟩ := ptypeManufacturerSpecific_listed low
  show readPtype _ s = _
  rw [readPtype_of_listed hlisted, hradio]

/-- A reserved type is not radio and raises `UnknownPacketType` (R65). -/
theorem exec_ptypeReserved_of_reserved {t : Byte} (h : t = 0x00 ∨ 8 ≤ t.toNat ∧ t.toNat ≤ 0x7F) (s : State) :
    exec (.ptypeReserved t) s =
      .next { s with outputs := s.outputs ++ [.diag (.unknownPacketType t)], result := .bit false } := by
  have hradio : isRadioType t = false := beq_false_of_ne (by bv_omega)
  have hlisted : ¬ isListedType t = true := by
    rw [isListedType_iff]
    bv_omega
  show readPtype t s = _
  rw [readPtype, hradio, ignoreType_of_not_listed hlisted]
  rfl

/-- Settles O56: the listed types and the RORG codes by their rows, the reserved types by
`exec_ptypeReserved_of_reserved`. -/
theorem packetTypeAndRorgRows : Obligations.PacketTypeAndRorgRows := by
  intro s
  refine ⟨rfl, ?_, fun low => exec_ptypeManufacturerSpecific low s,
    fun t ht => exec_ptypeReserved_of_reserved ht s, rfl, rfl, ?_⟩
  · simp only [List.forall_mem_cons]
    exact ⟨rfl, rfl, rfl, rfl, rfl, rfl, List.forall_mem_nil _⟩
  · simp only [List.forall_mem_cons]
    exact ⟨rfl, rfl, rfl, rfl, rfl, rfl, rfl, rfl, rfl, rfl, List.forall_mem_nil _⟩

/-! Status and RPS data bytes (R67, R68). -/

/-- The action of an action code, with the pressed bit of its data byte (R68). -/
def actionOf (pressed : BitVec 1) (code : BitVec 3) : Action :=
  { rocker := actionRocker code
    side := if actionUpOff code then .upOff else .downOn
    pressed := decide (pressed = 1) }

/-- The actions of an N-message data byte, from its fields. -/
theorem actionsOf_append (a : BitVec 3) (p : BitVec 1) (b : BitVec 3) (sec : BitVec 1) :
    actionsOf (a ++ p ++ b ++ sec) = actionOf p a :: if sec = 1 then [actionOf p b] else [] := by
  revert a p b sec
  decide +kernel

/-- The count and the bow of a U-message data byte, from its fields. -/
theorem buttons_append (b : BitVec 3) (p : BitVec 1) (low : BitVec 4) :
    buttonCount (b ++ p ++ low) = b ∧ bowPressed (b ++ p ++ low) = decide (p = 1) := by
  revert b p low
  decide +kernel

theorem toNat_append_nibble (p low : BitVec 4) : (p ++ low : Byte).toNat / 16 = p.toNat := by
  have := low.isLt
  rw [BitVec.toNat_append, Nat.shiftLeft_eq, Nat.mul_comm, ← Nat.two_pow_add_eq_or_of_lt (by omega)]
  omega

/-- The position of a window handle is its data byte's high nibble. -/
theorem windowPosition_append (p low : BitVec 4) :
    windowPosition (p ++ low) = if p = 0xD then .tilted else if p = 0xF then .closed else .fullyOpen := by
  rw [windowPosition, windowTiltedBit_eq, windowClosedBit_eq, toNat_append_nibble]
  simp only [decide_eq_true_eq, ← BitVec.toNat_inj]
  rfl

theorem erp2Inserted_append (hi : BitVec 5) (i : BitVec 1) (low : BitVec 2) :
    erp2Inserted (hi ++ i ++ low) = decide (i = 1) := by
  revert hi i low
  decide +kernel

theorem smokeBits_append (hi st : BitVec 2) (low : BitVec 4) :
    smokeAlarmBit (hi ++ st ++ low) = decide (st = 1) ∧ smokeBatteryBit (hi ++ st ++ low) = decide (st = 3) := by
  revert hi st low
  decide +kernel

/-- Settles O57: each row answers its fields, put together into a byte and taken apart again. -/
theorem statusAndDataRows : Obligations.StatusAndDataRows := by
  intro s
  refine ⟨fun b => rfl, fun b => rfl, fun a p b sec => ⟨actionOf p, fun x => ⟨actionRocker_toNat x, rfl, rfl⟩, ?_⟩,
    fun b p low => ?_, fun p low => ?_, fun hi i low => ?_, rfl, fun hi st low => ?_⟩
  · rw [← actionsOf_append]
    rfl
  · obtain ⟨hcount, hbow⟩ := buttons_append b p low
    show Host.Outcome.next (s.answer (.buttons (buttonCount (b ++ p ++ low)) (bowPressed (b ++ p ++ low)))) = _
    rw [hcount, hbow]
    rfl
  · rw [← windowPosition_append p low]
    rfl
  · rw [← erp2Inserted_append hi i low]
    rfl
  · obtain ⟨halarm, hbattery⟩ := smokeBits_append hi st low
    rw [← halarm, ← hbattery]
    rfl

/-! Profile ids and the optional data (R69, R73). -/

/-- A profile id's row is its family and the family's tags. -/
theorem readProfile_of_family {p : ProfileId} {f : Family} (h : profileMatch p = some f) (s : State) :
    readProfile p s = .next { s with result := .eepRow (some f) f.tags } := by
  rw [readProfile, h]
  rfl

/-- Settles O58: the families by `profileMatch_profileOf`. -/
theorem profileAndOptionalDataRows : Obligations.ProfileAndOptionalDataRows := by
  intro s
  refine ⟨fun ty => ?_, fun ty => ?_, rfl, rfl, fun ty hty => ?_, rfl, fun c d g v => ⟨_, dbmOf_toInt g, rfl⟩⟩
  · exact readProfile_of_family (profileMatch_profileOf 0xF6 0x02 ty) s
  · exact readProfile_of_family (profileMatch_profileOf 0xF6 0x03 ty) s
  · refine readProfile_of_family (f := .cardKeyErp1) ?_ s
    rw [profileMatch_profileOf]
    simpa using hty

end Sys2Proof.Machine
end

section
/-! PROOFS. The machine as a whole (10_state.md, 20_memory.md, 60_exceptions.md, 70_reset_and_hazards.md): which
instructions only read, what each of the others does to the invariant and to each field, and the statements O5 to O8, O53,
O59 and O60. -/

namespace Sys2Proof.Machine

open Sys2Proof

/-! Instructions that only read. -/

/-- An outcome from `s` that changes nothing but the answer: an answer, a refusal, or the fault of a framer that does not
meet its invariant. -/
def ReadsOnly (s : State) (o : Host.Outcome State Fault Refusal) : Prop :=
  (∃ v, o = .next { s with result := v }) ∨ (∃ r, o = .refused r) ∨ ((∃ f, o = .fault f) ∧ ¬ s.fr.Inv)

theorem ReadsOnly.answer (s : State) (v : Result) : ReadsOnly s (.next (s.answer v)) := .inl ⟨v, rfl⟩

/-- A computation that does not fault, and an answer made of its value. -/
theorem ReadsOnly.of_faultless {α : Type} {x : Run α} (hx : Run.Faultless x) (f : α → Result) (s : State) :
    ReadsOnly s (Run.outcome (x >>= fun a => .ok (s.answer (f a)))) := by
  rcases hx.answers_or_refuses f with ⟨v, h⟩ | ⟨r, h⟩
  · exact .inl ⟨v, h s⟩
  · exact .inr (.inl ⟨r, h s⟩)

/-- The answer where there is a next state. -/
theorem ReadsOnly.of_next {s t : State} (h : ReadsOnly s (.next t)) : t = { s with result := t.result } := by
  rcases h with ⟨v, h⟩ | ⟨r, h⟩ | ⟨⟨f, h⟩, -⟩
  · cases h
    rfl
  · cases h
  · cases h

theorem frTake_readsOnly (s : State) : ReadsOnly s (exec .frTake s) := by
  by_cases hc : s.fr.isComplete = true
  · cases ht : s.fr.take with
    | ok P => exact .inl ⟨_, exec_frTake_of_take ht⟩
    | error e =>
      have hno : ¬ s.fr.Inv := fun hi => by
        obtain ⟨P, hP, -⟩ := Framer.take_spec hi hc
        exact absurd (ht.symm.trans hP) (by simp)
      have hexec : exec .frTake s = Run.outcome (.error e : Run State) := by
        show execFrTake s = _
        rw [execFrTake, ht, Run.bind_error]
      rcases e with f | r
      · exact .inr (.inr ⟨⟨f, hexec⟩, hno⟩)
      · exact .inr (.inl ⟨r, hexec⟩)
  · exact .inr (.inl ⟨_, exec_frTake_of_not_complete (Bool.eq_false_iff.2 hc)⟩)

theorem dpTeachq_readsOnly (P : Packet) (s : State) : ReadsOnly s (exec (.dpTeachq P) s) := by
  have hx : Run.Faultless (P.rorg >>= fun r => qualifies Config.params s.dbmMin r P) :=
    P.rorg_faultless.bind fun r _ => qualifies_faultless _ _ r P
  have heq : exec (.dpTeachq P) s = Run.outcome
      ((P.rorg >>= fun r => qualifies Config.params s.dbmMin r P) >>= fun q => .ok (s.answer (.bit q))) := by
    show execDpTeachq P s = _
    rw [execDpTeachq]
    cases P.rorg <;> rfl
  rw [heq]
  exact .of_faultless hx Result.bit s

/-- An instruction outside the operations with effects only reads. -/
theorem exec_readsOnly {i : Instr} (h : ¬ hasEffect i) (s : State) : ReadsOnly s (exec i s) := by
  cases i with
  | coreReset | frNew => exact (h (by simp [hasEffect, touchesFramer])).elim
  | frByte b | frAccept b => exact (h (by simp [hasEffect, touchesFramer])).elim
  | chRx bytes err => exact (h (by simp [hasEffect, touchesFramer])).elim
  | esp3Header hi lo o t c => exact (h (by simp [hasEffect, touchesFramer])).elim
  | esp3Payload data opt c => exact (h (by simp [hasEffect, touchesFramer])).elim
  | dpHandle x | dpSetlearn x | dpRegister x | dpUnregister x | ptypeReserved x =>
    exact (h (by simp [hasEffect])).elim
  | pdInvoke x P => exact (h (by simp [hasEffect])).elim
  | ptypeManufacturerSpecific low => exact .inl ⟨_, exec_ptypeManufacturerSpecific low s⟩
  | frTake => exact frTake_readsOnly s
  | dpTeachq P => exact dpTeachq_readsOnly P s
  | tvRorg P => exact .of_faultless P.rorg_faultless Result.byte s
  | tvStoff P => exact .of_faultless P.radio_faultless (fun _ => .offset P.statusOffset) s
  | tvStatus P => exact .of_faultless P.status_faultless Result.byte s
  | tvUdlen P => exact .of_faultless P.radio_faultless (fun _ => .half (BitVec.ofNat 16 P.userDataLength)) s
  | tvUdata P => exact .of_faultless P.userData_faultless Result.bytes s
  | tvSender P => exact .of_faultless P.sender_faultless Result.word s
  | tvSubtel P => exact .of_faultless P.subtelegramCount_faultless Result.byte s
  | tvDest P => exact .of_faultless P.destination_faultless Result.word s
  | tvDbm P => exact .of_faultless P.signalDbm_faultless Result.dbm s
  | tvSeclvl P => exact .of_faultless P.securityLevel_faultless Result.byte s
  | pdRocker P ch => exact .of_faultless (behindGate_faultless _ P) Result.events s
  | pdWinopen P | pdWintilt P | pdCardkey2 P | pdCardkey1 P | pdSmokealm P | pdSmokebat P =>
    exact .of_faultless (behindGate_faultless _ P) Result.events s
  | _ => exact ReadsOnly.answer s _

/-- An accessor of the telegram view answers one value, or one refusal, from every state (R144). -/
theorem accessor_answers_or_refuses {P : Packet} {i : Instr} (hi : i ∈ accessorsOn P) :
    (∃ v, ∀ s : State, exec i s = .next { s with result := v }) ∨ ∃ r, ∀ s : State, exec i s = .refused r := by
  simp only [accessorsOn, List.mem_cons, List.not_mem_nil, or_false] at hi
  rcases hi with rfl | rfl | rfl | rfl | rfl | rfl | rfl | rfl | rfl | rfl | rfl | rfl | rfl | rfl
  · exact .inl ⟨_, fun s => rfl⟩
  · exact .inl ⟨_, fun s => rfl⟩
  · exact .inl ⟨_, fun s => rfl⟩
  · exact P.rorg_faultless.answers_or_refuses Result.byte
  · exact P.radio_faultless.answers_or_refuses fun _ => .offset P.statusOffset
  · exact P.status_faultless.answers_or_refuses Result.byte
  · exact P.radio_faultless.answers_or_refuses fun _ => .half (BitVec.ofNat 16 P.userDataLength)
  · exact P.userData_faultless.answers_or_refuses Result.bytes
  · exact P.sender_faultless.answers_or_refuses Result.word
  · exact P.subtelegramCount_faultless.answers_or_refuses Result.byte
  · exact P.destination_faultless.answers_or_refuses Result.word
  · exact P.signalDbm_faultless.answers_or_refuses Result.dbm
  · exact P.securityLevel_faultless.answers_or_refuses Result.byte
  · exact .inl ⟨_, fun s => rfl⟩

/-- Settles O59: the two lemmas on reading. -/
theorem readersChangeNothing : Obligations.ReadersChangeNothing :=
  ⟨fun _ s _ h he => (he ▸ exec_readsOnly h s : ReadsOnly s (.next _)).of_next, fun _ _ hi => accessor_answers_or_refuses hi⟩

/-! The operations with effects, and the invariant. -/

/-- An outcome that keeps the invariant: a next state that meets it, or a refusal. -/
def KeepsInv (o : Host.Outcome State Fault Refusal) : Prop := (∃ t, o = .next t ∧ t.Inv) ∨ ∃ r, o = .refused r

theorem KeepsInv.of_next {t : State} (h : KeepsInv (.next t)) : t.Inv := by
  rcases h with ⟨u, hu, hi⟩ | ⟨r, hr⟩
  · cases hu
    exact hi
  · cases hr

theorem KeepsInv.ne_fault {o : Host.Outcome State Fault Refusal} (h : KeepsInv o) (f : Fault) : o ≠ .fault f := by
  rcases h with ⟨t, rfl, -⟩ | ⟨r, rfl⟩ <;> simp

theorem ReadsOnly.keepsInv {s : State} {o : Host.Outcome State Fault Refusal} (h : ReadsOnly s o) (hi : s.Inv) :
    KeepsInv o := by
  rcases h with ⟨v, rfl⟩ | ⟨r, rfl⟩ | ⟨-, hno⟩
  · exact .inl ⟨_, rfl, hi⟩
  · exact .inr ⟨r, rfl⟩
  · exact absurd hi.1 hno

theorem exec_coreReset (s : State) :
    exec .coreReset s = .next { State.reset with outputs := s.outputs, issue := s.issue } := rfl

/-- Settles O5: a fresh framer and an empty registry. -/
theorem resetMeetsInvariant : Obligations.ResetMeetsInvariant := ⟨Framer.fresh_inv, Registry.inv_nil⟩

/-- Settles O53: reset gives the fields of `State.reset`. -/
theorem coreResetRestoresStart : Obligations.CoreResetRestoresStart :=
  ⟨exec_coreReset, rfl, rfl, fun _ => ⟨rfl, rfl⟩, rfl, rfl, by decide⟩

theorem frByte_keepsInv (b : Byte) {s : State} (hi : s.Inv) : KeepsInv (exec (.frByte b) s) := by
  obtain ⟨F, ds, hb, hF, -⟩ := Framer.byte_spec b hi.1
  exact .inl ⟨_, exec_frByte_of_byte hb, hF, hi.2⟩

theorem frAccept_keepsInv (buffer : List Byte) {s : State} (hi : s.Inv) : KeepsInv (exec (.frAccept buffer) s) := by
  by_cases hc : s.fr.isComplete = true
  · exact .inl ⟨_, exec_frAccept_of_accept (Framer.accept_of_complete hc buffer), hi⟩
  · obtain ⟨n, F, ds, ha, hF, -⟩ := Framer.acceptLoop_spec (bs := buffer) hi.1
    rw [← Framer.accept_of_not_complete (Bool.eq_false_iff.2 hc)] at ha
    exact .inl ⟨_, exec_frAccept_of_accept ha, hF, hi.2⟩

theorem dpHandle_keepsInv {P : Packet} (hc : P.completed = true) {s : State} (hi : s.Inv) :
    KeepsInv (exec (.dpHandle P) s) := by
  obtain ⟨s', hs', hk, hreg⟩ := handle_spec params_regCapacity hc s
  exact .inl ⟨_, exec_dpHandle_of_handle hs', by rw [hk.fr]; exact hi.1, hreg hi.2⟩

theorem dpRegister_keepsInv (h : Handler) {s : State} (hi : s.Inv) : KeepsInv (exec (.dpRegister h) s) := by
  by_cases hok : recordOk h = true
  · exact .inl ⟨_, exec_dpRegister_of_ok hok s, hi.1, Registry.register_inv hi.2 hok⟩
  · exact .inr ⟨_, exec_dpRegister_of_not_ok (Bool.eq_false_iff.2 hok) s⟩

theorem pdInvoke_keepsInv (h : Handler) (P : Packet) {s : State} (hi : s.Inv) :
    KeepsInv (exec (.pdInvoke h P) s) := by
  cases hd : decodeFor h P with
  | ok es => exact .inl ⟨_, exec_pdInvoke_of_decodeFor hd s, hi⟩
  | error e =>
    rcases e with f | r
    · exact absurd hd (decodeFor_faultless h P f)
    · refine .inr ⟨r, ?_⟩
      show execPdInvoke h P s = _
      rw [execPdInvoke, invoke, hd]
      rfl

/-- Bytes that arrive keep the invariant, and leave no complete framer where there was none (R222). -/
theorem rxChunk_keepsInv (bytes : List Byte) {s : State} (hi : s.Inv) :
    ∃ s', rxChunk Config.params bytes s = .ok s' ∧ s'.Inv ∧ (s.fr.state ≠ .complete → s'.fr.state ≠ .complete) := by
  obtain ⟨s', hs', hF, hreg⟩ := rxChunk_inv params_regCapacity bytes hi.1
  obtain ⟨hnc, -⟩ := rxChunk_spec hs'
  exact ⟨s', hs', ⟨hF, hreg hi.2⟩, fun h =>
    Framer.isComplete_eq_false_iff.1 (hnc (.inr (Framer.isComplete_eq_false_iff.2 h)))⟩

/-- `CH.RX` goes on with the invariant kept, whatever arrives. -/
theorem chRx_goes_on (bytes : List Byte) (err : Option Nat) {s : State} (hi : s.Inv) :
    ∃ t, exec (.chRx bytes err) s = .next t ∧ t.Inv ∧ (s.fr.state ≠ .complete → t.fr.state ≠ .complete) := by
  cases err with
  | none =>
    obtain ⟨s', hs', hi', hnc⟩ := rxChunk_keepsInv bytes hi
    exact ⟨_, exec_chRx_of_rx (err := none) hs', hi', hnc⟩
  | some e => exact ⟨_, exec_chRx_of_rx (rx_of_error Config.params bytes e s), hi, id⟩

theorem arrive_keepsInv (bytes : List Byte) (r : Result) {s : State} (hi : s.Inv) : KeepsInv (arrive bytes r s) := by
  obtain ⟨s', hs', hi', -⟩ := rxChunk_keepsInv bytes hi
  exact .inl ⟨_, arrive_of_rxChunk hs' r, hi'⟩

theorem ptypeReserved_keepsInv (t : Byte) {s : State} (hi : s.Inv) : KeepsInv (exec (.ptypeReserved t) s) := by
  refine .inl ⟨_, rfl, ?_⟩
  unfold ignoreType
  split
  · exact hi
  · split <;> exact hi

/-- A well-formed instruction keeps the invariant, or is refused. -/
theorem exec_keepsInv {i : Instr} (hw : i.wf = true) {s : State} (hi : s.Inv) : KeepsInv (exec i s) := by
  by_cases h : hasEffect i
  · rcases h with (rfl | rfl | ⟨b, rfl⟩ | ⟨buffer, rfl⟩ | ⟨bytes, err, rfl⟩ | ⟨h, l, o, t, c, rfl⟩ |
      ⟨data, opt, c, rfl⟩) | ⟨P, rfl⟩ | ⟨e, rfl⟩ | ⟨h, rfl⟩ | ⟨a, rfl⟩ | ⟨h, P, rfl⟩ | ⟨t, rfl⟩
    · exact .inl ⟨_, exec_coreReset s, resetMeetsInvariant⟩
    · exact .inl ⟨_, rfl, Framer.fresh_inv, hi.2⟩
    · exact frByte_keepsInv b hi
    · exact frAccept_keepsInv buffer hi
    · obtain ⟨t, ht, hi', -⟩ := chRx_goes_on bytes err hi
      exact .inl ⟨t, ht, hi'⟩
    · exact arrive_keepsInv _ _ hi
    · exact arrive_keepsInv _ _ hi
    · exact dpHandle_keepsInv hw hi
    · exact .inl ⟨_, exec_dpSetlearn e s, hi⟩
    · exact dpRegister_keepsInv h hi
    · exact .inl ⟨_, exec_dpUnregister a s, hi.1, Registry.remove_inv hi.2 a⟩
    · exact pdInvoke_keepsInv h P hi
    · exact ptypeReserved_keepsInv t hi
  · exact (exec_readsOnly h s).keepsInv hi

/-- A step keeps the invariant, or is refused: what it runs is well formed. -/
theorem step_keepsInv {s : State} (hi : s.Inv) : KeepsInv (step s) := by
  cases hq : s.issue with
  | nil => exact .inl ⟨s, step_of_idle hq, hi⟩
  | cons q rest =>
    cases q with
    | setDbmMin v => exact .inl ⟨_, step_of_setDbmMin hq, hi⟩
    | call i =>
      rw [step_of_call hq]
      split
      · exact exec_keepsInv ‹_› (s := { s with issue := rest }) hi
      · exact .inr ⟨_, rfl⟩
    | line l =>
      cases hd : decodeLine l with
      | error e => exact .inr ⟨_, step_of_undecodable hq hd⟩
      | ok i =>
        rw [step_of_decoded hq hd]
        exact exec_keepsInv (decodedLineIsItsEncoding l i hd).1 (s := { s with issue := rest }) hi

/-- Settles O6: `step_keepsInv` where there is a next state. -/
theorem stepKeepsInvariant : Obligations.StepKeepsInvariant :=
  fun _ _ hi ht => (ht ▸ step_keepsInv hi : KeepsInv (.next _)).of_next

/-- Settles O7: `step_keepsInv` leaves no room for a fault. -/
theorem stepNeverFaults : Obligations.StepNeverFaults := fun _ hi f => (step_keepsInv hi).ne_fault f

/-- Settles O8: the five host operations, of which only `CH.RX` touches the framer besides reset. -/
theorem hostOperationsComplete : Obligations.HostOperationsComplete := by
  rintro i s (rfl | ⟨e, rfl⟩ | ⟨h, rfl⟩ | ⟨a, rfl⟩ | ⟨bytes, err, rfl⟩) hrec hi
  · exact ⟨_, exec_coreReset s, resetMeetsInvariant, fun _ h => by cases h⟩
  · exact ⟨_, exec_dpSetlearn e s, hi, id⟩
  · have hok := hrec h rfl
    exact ⟨_, exec_dpRegister_of_ok hok s, ⟨hi.1, Registry.register_inv hi.2 hok⟩, id⟩
  · exact ⟨_, exec_dpUnregister a s, ⟨hi.1, Registry.remove_inv hi.2 a⟩, id⟩
  · exact chRx_goes_on bytes err hi

/-! The frame of every instruction. -/

/-- What every instruction but reset and `DP.SETLEARN` leaves: the threshold, learn mode off where it is off, the queue,
and what was emitted. -/
structure Steady (s t : State) : Prop where
  dbmMin  : t.dbmMin = s.dbmMin
  learn   : s.learn = .disabled → t.learn = .disabled
  issue   : t.issue = s.issue
  outputs : s.outputs <+: t.outputs

theorem ReadsOnly.steady {s t : State} (h : ReadsOnly s (.next t)) : t.fr = s.fr ∧ Steady s t := by
  rw [h.of_next]
  exact ⟨rfl, rfl, id, rfl, List.prefix_refl _⟩

theorem Kept.steady {s s' : State} (hk : Kept s s') (hl : s.learn = .disabled → s'.learn = .disabled) :
    Steady s s' := by
  obtain ⟨os, ho⟩ := hk.outputs
  exact ⟨hk.dbmMin, hl, hk.issue, ho ▸ List.prefix_append _ _⟩

theorem handle_steady {π : Config.Params} {P : Packet} {s s' : State} (he : handle π P s = .ok s') : Steady s s' :=
  (handle_kept he).steady fun hl => (handle_learn_of_disabled he hl).1

theorem deliver_learn_of_disabled {π : Config.Params} {s s' : State} (he : deliver π s = .ok s')
    (hl : s.learn = .disabled) : s'.learn = .disabled := by
  unfold deliver at he
  split at he
  · obtain ⟨P, -, he⟩ := Run.bind_eq_ok.1 he
    exact (handle_learn_of_disabled he hl).1
  · cases he
    exact hl

theorem rxFold_learn_of_disabled {π : Config.Params} {bs : List Byte} {s s' : State} (he : rxFold π bs s = .ok s')
    (hl : s.learn = .disabled) : s'.learn = .disabled := by
  induction bs generalizing s with
  | nil =>
    cases he
    exact hl
  | cons b bs ih =>
    obtain ⟨s₁, h₁, he⟩ := Run.bind_eq_ok.1 he
    obtain ⟨⟨F, ds⟩, -, h₁⟩ := Run.bind_eq_ok.1 h₁
    exact ih he (deliver_learn_of_disabled h₁ hl)

theorem rxChunk_steady {π : Config.Params} {bs : List Byte} {s s' : State} (he : rxChunk π bs s = .ok s') :
    Steady s s' := by
  obtain ⟨-, hdbm, -, hissue, os, hos⟩ := rxChunk_spec he
  refine ⟨hdbm, fun hl => ?_, hissue, hos ▸ List.prefix_append _ _⟩
  rw [rxChunk_eq] at he
  split at he
  · cases he
    exact hl
  · obtain ⟨s₁, h₁, he⟩ := Run.bind_eq_ok.1 he
    exact rxFold_learn_of_disabled he (deliver_learn_of_disabled h₁ hl)

theorem rx_steady {bs : List Byte} {err : Option Nat} {s s' : State} (he : rx Config.params bs err s = .ok s') :
    Steady s s' := by
  cases err with
  | none => exact rxChunk_steady he
  | some e =>
    cases he
    exact (Kept.raise s _).steady id

/-- An answer leaves everything else as the computation left it. -/
theorem steady_of_answered {x : Run State} {r : Result} {s t : State} (hx : ∀ s', x = .ok s' → Steady s s')
    (he : Run.outcome (x >>= fun s' => .ok (s'.answer r)) = .next t) : Steady s t := by
  obtain ⟨s', hs', he⟩ := Run.bind_eq_ok.1 ((Run.outcome_eq_next _ _).1 he)
  cases he
  obtain ⟨hdbm, hl, hissue, hout⟩ := hx s' hs'
  exact ⟨hdbm, hl, hissue, hout⟩

theorem frByte_steady {b : Byte} {s t : State} (he : exec (.frByte b) s = .next t) : Steady s t := by
  obtain ⟨⟨F, ds⟩, -, he⟩ := Run.bind_eq_ok.1 ((Run.outcome_eq_next _ _).1 he)
  cases he
  exact ⟨rfl, id, rfl, List.prefix_append _ _⟩

theorem frAccept_steady {buffer : List Byte} {s t : State} (he : exec (.frAccept buffer) s = .next t) : Steady s t := by
  obtain ⟨⟨n, F, ds⟩, -, he⟩ := Run.bind_eq_ok.1 ((Run.outcome_eq_next _ _).1 he)
  cases he
  exact ⟨rfl, id, rfl, List.prefix_append _ _⟩

theorem dpHandle_frame {P : Packet} {s t : State} (he : exec (.dpHandle P) s = .next t) :
    t.fr = s.fr ∧ Steady s t := by
  refine ⟨?_, steady_of_answered (fun _ => handle_steady) he⟩
  obtain ⟨s', hs', he⟩ := Run.bind_eq_ok.1 ((Run.outcome_eq_next _ _).1 he)
  cases he
  exact (handle_kept hs').fr

theorem dpRegister_frame {h : Handler} {s t : State} (he : exec (.dpRegister h) s = .next t) :
    t.fr = s.fr ∧ Steady s t := by
  by_cases hok : recordOk h = true
  · rw [exec_dpRegister_of_ok hok] at he
    cases he
    exact ⟨rfl, rfl, id, rfl, List.prefix_refl _⟩
  · rw [exec_dpRegister_of_not_ok (Bool.eq_false_iff.2 hok)] at he
    cases he

theorem pdInvoke_frame {h : Handler} {P : Packet} {s t : State} (he : exec (.pdInvoke h P) s = .next t) :
    t.fr = s.fr ∧ Steady s t := by
  obtain ⟨s', hs', he⟩ := Run.bind_eq_ok.1 ((Run.outcome_eq_next _ _).1 he)
  obtain ⟨es, -, hs'⟩ := Run.bind_eq_ok.1 hs'
  cases hs'
  cases he
  exact ⟨rfl, rfl, id, rfl, List.prefix_append _ _⟩

theorem ignoreType_frame (t : Byte) (s : State) : (ignoreType t s).fr = s.fr ∧ Steady s (ignoreType t s) := by
  unfold ignoreType
  split
  · exact ⟨rfl, rfl, id, rfl, List.prefix_refl _⟩
  · exact ⟨rfl, rfl, id, rfl, List.prefix_append _ _⟩

theorem ptypeReserved_frame {x : Byte} {s t : State} (he : exec (.ptypeReserved x) s = .next t) :
    t.fr = s.fr ∧ Steady s t := by
  cases he
  split
  · exact ⟨rfl, rfl, id, rfl, List.prefix_refl _⟩
  · obtain ⟨hfr, hdbm, hl, hissue, hout⟩ := ignoreType_frame x s
    exact ⟨hfr, hdbm, hl, hissue, hout⟩

/-- Every instruction but reset and `DP.SETLEARN` is steady, and leaves the framer where it does not work on it. -/
theorem exec_frame {i : Instr} {s t : State} (he : exec i s = .next t) (hr : i ≠ .coreReset)
    (hl : ∀ e, i ≠ .dpSetlearn e) : (¬ touchesFramer i → t.fr = s.fr) ∧ Steady s t := by
  by_cases h : hasEffect i
  · rcases h with hf | h
    · refine ⟨fun hno => absurd hf hno, ?_⟩
      rcases hf with rfl | rfl | ⟨b, rfl⟩ | ⟨buffer, rfl⟩ | ⟨bytes, err, rfl⟩ | ⟨h, l, o, t, c, rfl⟩ | ⟨data, opt, c, rfl⟩
      · exact absurd rfl hr
      · cases he
        exact ⟨rfl, id, rfl, List.prefix_refl _⟩
      · exact frByte_steady he
      · exact frAccept_steady he
      · exact steady_of_answered (fun _ => rx_steady) he
      · exact steady_of_answered (fun _ => rxChunk_steady) he
      · exact steady_of_answered (fun _ => rxChunk_steady) he
    · suffices hfr : t.fr = s.fr ∧ Steady s t from ⟨fun _ => hfr.1, hfr.2⟩
      rcases h with ⟨P, rfl⟩ | ⟨e, rfl⟩ | ⟨h, rfl⟩ | ⟨a, rfl⟩ | ⟨h, P, rfl⟩ | ⟨x, rfl⟩
      · exact dpHandle_frame he
      · exact absurd rfl (hl e)
      · exact dpRegister_frame he
      · cases he
        exact ⟨rfl, rfl, id, rfl, List.prefix_refl _⟩
      · exact pdInvoke_frame he
      · exact ptypeReserved_frame he
  · obtain ⟨hfr, hst⟩ := ReadsOnly.steady (he ▸ exec_readsOnly h s)
    exact ⟨fun _ => hfr, hst⟩

/-- Settles O60: reset and `DP.SETLEARN` by their equations, every other instruction by `exec_frame`. -/
theorem framesOfEveryInstruction : Obligations.FramesOfEveryInstruction := by
  intro i s t he
  by_cases hr : i = .coreReset
  · subst hr
    cases he
    exact ⟨fun h => absurd (.inl rfl) h, .inr ⟨rfl, rfl⟩, fun _ h => (by cases h), rfl, List.prefix_refl _⟩
  · by_cases hl : ∃ e, i = .dpSetlearn e
    · obtain ⟨e, rfl⟩ := hl
      cases he
      refine ⟨fun _ => rfl, .inl rfl, fun _ h => ?_, rfl, List.prefix_refl _⟩
      cases e with
      | false => cases h
      | true => rfl
    · obtain ⟨hfr, hst⟩ := exec_frame he hr (not_exists.1 hl)
      exact ⟨hfr, .inl hst.dbmMin, fun hoff hon => absurd ((hst.learn hoff).symm.trans hon) (by decide), hst.issue,
        hst.outputs⟩

end Sys2Proof.Machine
end
